-- ==== Sys2Proof/Word.lean ====
section
/-! DEFINITION. The widths of CN-CORE (00_scope.md R7): every value is an unsigned
integer of 8, 32, 64 or 128 bits. -/

namespace Sys2Proof

/-- `u8` (R7): a byte, the smallest addressable unit of every memory space. -/
abbrev Byte := BitVec 8

/-- `u32` (R7): a dword, a quarter of a block; also the width of a command word (R70). -/
abbrev Dword := BitVec 32

/-- `u64` (R7): a word. -/
abbrev Word := BitVec 64

/-- `u128` (R7): a block. -/
abbrev Block := BitVec 128

end Sys2Proof
end

