-- ==== Sys2Proof/Syntax.lean ====
section
/-! DEFINITION. The sixteen commands of CN-CORE (30_encoding.md R73), one constructor for each
row of spec/opcode_table.json, with their operands (R71, R72). -/

namespace Sys2Proof

/-- A hash lane, 0 or 1 (R9, R12). -/
inductive LaneId where
  | l0
  | l1
  deriving DecidableEq, Repr, Inhabited

/-- The lane operand (R71): one lane (D = 0, named by L) or both (D = 1 and L = 0). The words with
D = L = 1 are illegal and name no lanes. -/
inductive LaneSel where
  | one (l : LaneId)
  | both
  deriving DecidableEq, Repr, Inhabited

/-- KEYGEN's operand KSRC (R72): the seed of Explode, HS bytes 0..31 (written `E`), or the seed of
Implode, HS bytes 32..63 (written `I`). -/
inductive KeySrc where
  | explode
  | implode
  deriving DecidableEq, Repr, Inhabited

/-- A command (R73). `ksel` is the four bits of ARG as ROUND8 and XORK8 read them (R72). -/
inductive Instr where
  | nop
  | cfgcommit
  | absorb (sel : LaneSel)
  | keygen (sel : LaneSel) (ksrc : KeySrc)
  | ldx (sel : LaneSel)
  | round8 (sel : LaneSel) (ksel : BitVec 4)
  | xork8 (sel : LaneSel) (ksel : BitVec 4)
  | stx (sel : LaneSel)
  | explode (sel : LaneSel)
  | implode (sel : LaneSel)
  | mixinit (sel : LaneSel)
  | mixstep (sel : LaneSel)
  | mix (sel : LaneSel)
  | final (sel : LaneSel)
  | hash (sel : LaneSel)
  | reset
  deriving DecidableEq, Repr, Inhabited

/-- The lane operand of a command; none for NOP, CFGCOMMIT and RESET (R71). -/
def Instr.lanes : Instr → Option LaneSel
  | .nop => none
  | .cfgcommit => none
  | .absorb sel => some sel
  | .keygen sel _ => some sel
  | .ldx sel => some sel
  | .round8 sel _ => some sel
  | .xork8 sel _ => some sel
  | .stx sel => some sel
  | .explode sel => some sel
  | .implode sel => some sel
  | .mixinit sel => some sel
  | .mixstep sel => some sel
  | .mix sel => some sel
  | .final sel => some sel
  | .hash sel => some sel
  | .reset => none

end Sys2Proof
end

