-- ==== Sys2Proof/WellFormed.lean ====
section
/-! DEFINITION. When a command term stands for a legal word: its ARG value is in the legal set of
30_encoding.md R72. (That its lanes exist depends on NLANES and is checked when it is issued.) -/

namespace Sys2Proof

/-- ROUND8's legal key selectors (R72): 0..9, and 15 for the all-zero key. -/
def round8KeyLegal (ksel : BitVec 4) : Bool :=
  ksel.toNat < 10 || ksel == 15#4

/-- XORK8's legal key selectors (R72): 0..9. -/
def xork8KeyLegal (ksel : BitVec 4) : Bool :=
  ksel.toNat < 10

/-- The operand checks of R72: only ROUND8 and XORK8 have an ARG value that can be illegal here
(KEYGEN's KSRC is one bit, and every other command has ARG = 0 by its encoding). -/
def Instr.wellFormed : Instr → Bool
  | .nop => true
  | .cfgcommit => true
  | .absorb _ => true
  | .keygen _ _ => true
  | .ldx _ => true
  | .round8 _ ksel => round8KeyLegal ksel
  | .xork8 _ ksel => xork8KeyLegal ksel
  | .stx _ => true
  | .explode _ => true
  | .implode _ => true
  | .mixinit _ => true
  | .mixstep _ => true
  | .mix _ => true
  | .final _ => true
  | .hash _ => true
  | .reset => true

/-- A well-formed command (R72). -/
abbrev WellFormed (i : Instr) : Prop := i.wellFormed = true

end Sys2Proof
end

