-- ==== Sys2Proof/Decode.lean ====
section
/-! DEFINITION. Decoding a command word (30_encoding.md R70 to R74), total on every 32-bit word
and rejecting by name; and the encoder, from the same tables. -/

namespace Sys2Proof

/-- Why a word is illegal (R74), in the order the decoder tests. -/
inductive Reject where
  /-- bit 7 or one of bits 31:12 is 1 -/
  | reservedBit
  /-- OP is 0x0F to 0x1E -/
  | reservedOpcode
  /-- L or D is 1 on NOP, CFGCOMMIT or RESET -/
  | laneOnLaneless
  /-- D = 1 and L = 1 -/
  | bothLaneBits
  /-- ARG is outside the legal set of R72 -/
  | badArg
  deriving DecidableEq, Repr

/-- Field OP, bits 4:0 (R70). -/
def fieldOp (w : Dword) : BitVec 5 := w.extractLsb' 0 5

/-- Field L, bit 5 (R70). -/
def fieldL (w : Dword) : BitVec 1 := w.extractLsb' 5 1

/-- Field D, bit 6 (R70). -/
def fieldD (w : Dword) : BitVec 1 := w.extractLsb' 6 1

/-- Bit 7, reserved (R70). -/
def fieldRsv7 (w : Dword) : BitVec 1 := w.extractLsb' 7 1

/-- Field ARG, bits 11:8 (R70). -/
def fieldArg (w : Dword) : BitVec 4 := w.extractLsb' 8 4

/-- Bits 31:12, reserved (R70). -/
def fieldRsv (w : Dword) : BitVec 20 := w.extractLsb' 12 20

/-- The lane operand from L and D (R71). -/
def decodeLanes (l d : BitVec 1) : Except Reject LaneSel :=
  if d = 0#1 then .ok (.one (if l = 0#1 then .l0 else .l1))
  else if l = 0#1 then .ok .both
  else .error .bothLaneBits

/-- A command with no lane operand and no argument: L, D and ARG must be 0 (R71, R72). -/
def laneless (i : Instr) (l d : BitVec 1) (arg : BitVec 4) : Except Reject Instr :=
  if l = 0#1 ∧ d = 0#1 then
    if arg = 0#4 then .ok i else .error .badArg
  else .error .laneOnLaneless

/-- A command with a lane operand, and ARG in a legal set (R71, R72). -/
def laned (mk : LaneSel → Instr) (argLegal : Bool) (l d : BitVec 1) : Except Reject Instr :=
  match decodeLanes l d with
  | .error e => .error e
  | .ok sel => if argLegal then .ok (mk sel) else .error .badArg

/-- KSRC from ARG bit 0 (R72). -/
def decodeKeySrc (arg : BitVec 4) : KeySrc :=
  if arg = 0#4 then .explode else .implode

/-- The opcode map (R73): OP, then the fields L, D and ARG as each command reads them. -/
def decodeFields (op : BitVec 5) (l d : BitVec 1) (arg : BitVec 4) : Except Reject Instr :=
  match op.toNat with
  | 0x00 => laneless .nop l d arg
  | 0x01 => laneless .cfgcommit l d arg
  | 0x02 => laned .absorb (arg == 0#4) l d
  | 0x03 => laned (fun sel => .keygen sel (decodeKeySrc arg)) (arg.toNat ≤ 1) l d
  | 0x04 => laned .ldx (arg == 0#4) l d
  | 0x05 => laned (fun sel => .round8 sel arg) (round8KeyLegal arg) l d
  | 0x06 => laned (fun sel => .xork8 sel arg) (xork8KeyLegal arg) l d
  | 0x07 => laned .stx (arg == 0#4) l d
  | 0x08 => laned .explode (arg == 0#4) l d
  | 0x09 => laned .implode (arg == 0#4) l d
  | 0x0A => laned .mixinit (arg == 0#4) l d
  | 0x0B => laned .mixstep (arg == 0#4) l d
  | 0x0C => laned .mix (arg == 0#4) l d
  | 0x0D => laned .final (arg == 0#4) l d
  | 0x0E => laned .hash (arg == 0#4) l d
  | 0x1F => laneless .reset l d arg
  | _ => .error .reservedOpcode

/-- Decoding of a command word (R70, R73, R74). That a named lane exists depends on NLANES, not on
the word; it is tested when the command is issued (`State.verdict`). -/
def decodeWord (w : Dword) : Except Reject Instr :=
  if fieldRsv7 w = 0#1 ∧ fieldRsv w = 0#20 then
    decodeFields (fieldOp w) (fieldL w) (fieldD w) (fieldArg w)
  else .error .reservedBit

/-- The opcode of a command (R73). -/
def Instr.op : Instr → BitVec 5
  | .nop => 0x00#5
  | .cfgcommit => 0x01#5
  | .absorb _ => 0x02#5
  | .keygen _ _ => 0x03#5
  | .ldx _ => 0x04#5
  | .round8 _ _ => 0x05#5
  | .xork8 _ _ => 0x06#5
  | .stx _ => 0x07#5
  | .explode _ => 0x08#5
  | .implode _ => 0x09#5
  | .mixinit _ => 0x0A#5
  | .mixstep _ => 0x0B#5
  | .mix _ => 0x0C#5
  | .final _ => 0x0D#5
  | .hash _ => 0x0E#5
  | .reset => 0x1F#5

/-- ARG of a command (R72). -/
def Instr.arg : Instr → BitVec 4
  | .nop => 0#4
  | .cfgcommit => 0#4
  | .absorb _ => 0#4
  | .keygen _ .explode => 0#4
  | .keygen _ .implode => 1#4
  | .ldx _ => 0#4
  | .round8 _ ksel => ksel
  | .xork8 _ ksel => ksel
  | .stx _ => 0#4
  | .explode _ => 0#4
  | .implode _ => 0#4
  | .mixinit _ => 0#4
  | .mixstep _ => 0#4
  | .mix _ => 0#4
  | .final _ => 0#4
  | .hash _ => 0#4
  | .reset => 0#4

/-- Fields {D, L} of a lane operand (R71); zero where there is none. -/
def encodeLanes : Option LaneSel → BitVec 2
  | none => 0b00#2
  | some (.one .l0) => 0b00#2
  | some (.one .l1) => 0b01#2
  | some .both => 0b10#2

/-- The word of a command (R70): {31:12 zero, ARG, bit 7 zero, D, L, OP}. -/
def encode (i : Instr) : Dword :=
  0#20 ++ i.arg ++ 0#1 ++ encodeLanes i.lanes ++ i.op

/-- The command this decoder reads from the low `nbits` bits of `w`, the bits above them zero.
A command is one 32-bit word, written to CMD whole (R70). -/
def decodeTableWord (nbits w : Nat) : Option Instr :=
  match decodeWord (BitVec.ofNat 32 (w % 2 ^ nbits)) with
  | .ok i => some i
  | .error _ => none

end Sys2Proof
end

