-- ==== Sys2Proof/Config.lean ====
section
/-! DEFINITION. What the spec leaves open as a value or a function, as constants with no body:
the external collaborators (45_finalizer_pipeline.md R170 to R172) and the free values
(93_implementation_defined.md Part 1). Nothing in Lean can evaluate them, so a statement about
them holds for all of them. -/

namespace Sys2Proof

/-- `SpongeAbsorb : bytes -> 200 bytes` (R170), total over all lengths. Log 2 (DESIGN CHOICE, safe). -/
opaque Config.spongeAbsorb : List Byte → Vector Byte 200

/-- `Permute : 200 bytes -> 200 bytes` (R171). Log 2 (DESIGN CHOICE, safe). -/
opaque Config.permute : Vector Byte 200 → Vector Byte 200

/-- `Fin[s] : bytes -> 32 bytes`, s = 0..3 (R172); CN-CORE only passes 200 bytes. Log 2 (DESIGN CHOICE, safe). -/
opaque Config.fin : BitVec 2 → Vector Byte 200 → Vector Byte 32

/-- Where a free value goes: the register, flag or byte the spec leaves unspecified. -/
inductive Slot where
  | hsByte (l : LaneId) (offset : Nat)
  | digByte (l : LaneId) (offset : Nat)
  | sel (l : LaneId)
  | key (l : LaneId) (i : Nat)
  | block (l : LaneId) (i : Nat)
  | idx (l : LaneId)
  | al (l : LaneId)
  | ah (l : LaneId)
  | bx (l : LaneId)
  | reply
  | replyByte (offset : Nat)
  deriving DecidableEq, Repr

/-- The free values: `freeValue n slot` is what the n-th draw puts into `slot`, cut to the slot's
width. No rule constrains it (U2 to U6). Log 4 (DESIGN CHOICE, safe). -/
opaque Config.freeValue : Nat → Slot → Block

end Sys2Proof
end

