-- ==== Sys2Proof/Machine/State.lean ====
section
/-! DEFINITION. The state of CN-CORE as plain data (10_state.md R20 to R41): the memories and
register sets of both hash lanes, the message buffer, the configuration and status registers, the
sequencer, what the block is built with, and the host's accesses still to come. -/

namespace Sys2Proof.Machine

/-- A memory space (R20 to R23): the bytes that differ from `Memory.unlisted`, in strictly rising
order of offset. -/
abbrev Memory := List Host.Cell

/-- What an offset that no entry lists reads as. The spec leaves the memories unspecified after
reset (R40); log 6 (DESIGN CHOICE, unsafe). -/
def Memory.unlisted : Byte := 0#8

/-- One hash lane (R12): its memories, register sets, valid bits and selector. -/
structure Lane where
  /-- Hash State `HS[L]`, 200 bytes (R20). -/
  hs : Memory
  /-- Scratchpad `SP[L]`, SPMAX bytes, of which commands use the first MEM (R21). -/
  sp : Memory
  /-- Digest `DIG[L]`, 32 bytes (R23). -/
  dig : Memory
  /-- Round-key registers `K[L][0..9]` (R24). -/
  k : Vector Block 10
  /-- Cipher block registers `X[L][0..7]` (R25). -/
  x : Vector Block 8
  /-- Mixing register `IDX[L]` (R26). -/
  idx : Word
  /-- Mixing register `AL[L]` (R26). -/
  al : Word
  /-- Mixing register `AH[L]` (R26). -/
  ah : Word
  /-- Mixing register `BX[L]` (R26). -/
  bx : Block
  /-- Valid bit `KV[L]` (R28). -/
  kv : Bool
  /-- Valid bit `XV[L]` (R28). -/
  xv : Bool
  /-- Valid bit `MV[L]` (R28). -/
  mv : Bool
  /-- Valid bit `DV[L]` (R28). -/
  dv : Bool
  /-- Selector `SEL[L]` (R29). -/
  sel : BitVec 2
  deriving DecidableEq, Repr

/-- NLANES (R6): how many hash lanes the block has. -/
inductive NLanes where
  | single
  | dual
  deriving DecidableEq, Repr

/-- ROUNDSEQ (R6): the round sequence of Explode and Implode, R131 or R132. -/
inductive RoundSeq where
  | uniform10
  | literalAsym
  deriving DecidableEq, Repr

/-- What the block is built with (R6, R41): parameters that no command changes. Log 1 (DESIGN CHOICE, unsafe). -/
structure Build where
  nlanes : NLanes
  roundSeq : RoundSeq
  /-- SPMAX, a power of two, at least 128 (R34). -/
  spmax : Nat
  /-- MSGMAX, any natural number (R37). -/
  msgmax : Nat
  deriving DecidableEq, Repr

/-- The part of a command the sequencer is in (R30): a command with no parts is `single`. -/
inductive Phase where
  | single
  | absorb
  | explode
  | mix
  | implode
  | final
  deriving DecidableEq, Repr

/-- The sequencer state while a command runs (R30). -/
structure Sequencer where
  /-- the command being executed -/
  instr : Instr
  phase : Phase
  /-- CHUNK, counting 0 .. MEM/128 - 1 in EXPLODE and IMPLODE -/
  chunk : Word
  /-- ITER, counting 0 .. ITERATIONS - 1 in MIX -/
  iter : Word
  deriving DecidableEq, Repr

/-- A window of the host port (R31). -/
inductive Window where
  | msg
  | hs (l : LaneId)
  | sp (l : LaneId)
  | dig (l : LaneId)
  deriving DecidableEq, Repr

/-- The bytes HS, SP and MSG happen to hold after the reset input (R40, R210, U1): any. Log 8 (DESIGN CHOICE, safe). -/
structure MemoryImage where
  hs0 : List Host.Cell
  hs1 : List Host.Cell
  sp0 : List Host.Cell
  sp1 : List Host.Cell
  msg : List Host.Cell
  deriving DecidableEq, Repr

/-- What the outside does to the block: the host's accesses (R31, R58) and the reset input (R210).
A register write carries 64 data bits, the widest writable register; log 11 (DESIGN CHOICE, unsafe). -/
inductive HostAction where
  | readReg (number : Nat)
  | writeReg (number : Nat) (value : Word)
  | readWindow (w : Window) (offset : Nat) (count : Nat)
  | writeWindow (w : Window) (offset : Nat) (data : List Byte)
  | resetInput (image : MemoryImage)
  deriving DecidableEq, Repr

/-- When the outside acts (R63, R76): after it has seen BUSY = 0, or without waiting, after so many
further units of a command that still runs. Logs 9 (DESIGN CHOICE, safe) and 10 (DESIGN CHOICE, unsafe). -/
inductive Timing where
  | whenIdle
  | afterUnits (n : Nat)
  deriving DecidableEq, Repr

/-- One entry of the queue of host actions. -/
structure HostItem where
  timing : Timing
  action : HostAction
  deriving DecidableEq, Repr

/-- What the last host read returned: a register's value, zero-extended, or a window's bytes in
memory order. Log 11 (DESIGN CHOICE, unsafe). -/
inductive Reply where
  | nothing
  | register (v : Block)
  | window (bytes : List Byte)
  deriving DecidableEq, Repr

/-- The state of the block, and what its environment will do. -/
structure State where
  /-- What the block is built with (R41). -/
  build : Build
  lane0 : Lane
  /-- Lane 1; it exists for the host and for commands only when NLANES = 2 (R31). -/
  lane1 : Lane
  /-- Message buffer MSG, 2 x MSGMAX bytes (R22). -/
  msg : Memory
  /-- CFG_ITER (R33). -/
  cfgIter : Word
  /-- CFG_MEM (R34). -/
  cfgMem : Word
  /-- CFG_MASK (R35). -/
  cfgMask : Word
  /-- CFG_CTL (R36): bit 0 is HWPATH. -/
  cfgCtl : Dword
  /-- MSGLEN (R37). -/
  msgLen : Word
  /-- STATUS.DONE (R38). -/
  done : Bool
  /-- STATUS.CFGOK (R38). -/
  cfgok : Bool
  /-- STATUS.CFGERR (R38, R195). -/
  cfgerr : Bool
  /-- STATUS.CMDERR (R38, R196). -/
  cmderr : Bool
  /-- STATUS.SEQERR (R38, R197). -/
  seqerr : Bool
  /-- STATUS.EXTERR (R38, R198). -/
  exterr : Bool
  /-- STATUS.ACCERR (R38, R199). -/
  accerr : Bool
  /-- The sequencer (R30): dead when none; STATUS.BUSY says whether it runs. -/
  seq : Option Sequencer
  /-- The host actions still to come, first first. Log 9 (DESIGN CHOICE, safe). -/
  host : List HostItem
  /-- What the last host read returned. Log 11 (DESIGN CHOICE, unsafe). -/
  reply : Reply
  /-- For each coming collaborator call, whether it fails; none left means it returns (R198, U12).
  Log 3 (DESIGN CHOICE, safe). -/
  extFails : List Bool
  /-- How many times free values have been drawn. Log 4 (DESIGN CHOICE, safe). -/
  freeCount : Nat
  deriving DecidableEq, Repr

/-- Why a step stops with a fault. -/
inductive Fault where
  /-- Raised by `State.issue` and `State.unit`: a command that addresses the scratchpad runs under
  CFGOK = 1 with a tuple that fails the check of R173, so that it would form an offset outside
  SP[L], which R9 says cannot be written down. No run from reset reaches it. Safe: the model stops.
  Log 15 (DESIGN CHOICE, safe). -/
  | outsideSpace
  deriving DecidableEq, Repr

/-- Why a step is refused. -/
inductive Refusal where
  /-- Raised by an arm of `exec` for a command without a meaning yet; no arm does. Safe. -/
  | notModelled (mnemonic : String)
  deriving DecidableEq, Repr

/-- A lane right after reset: valid bits clear (R40); the rest is unspecified, logs 5 and 6 (DESIGN CHOICE, unsafe). -/
def Lane.reset : Lane where
  hs := []
  sp := []
  dig := []
  k := Vector.replicate 10 0#128
  x := Vector.replicate 8 0#128
  idx := 0#64
  al := 0#64
  ah := 0#64
  bx := 0#128
  kv := false
  xv := false
  mv := false
  dv := false
  sel := 0#2

/-- The build of `State.reset`: two lanes, the spec's UNIFORM10, SPMAX = 2 MiB, MSGMAX = 64 KiB.
Log 1 (DESIGN CHOICE, unsafe). -/
def Build.reset : Build where
  nlanes := .dual
  roundSeq := .uniform10
  spmax := 0x200000
  msgmax := 0x10000

/-- The block right after reset (R40, R210): STATUS, the configuration registers and MSGLEN zero,
the sequencer dead. -/
def State.reset : State where
  build := Build.reset
  lane0 := Lane.reset
  lane1 := Lane.reset
  msg := []
  cfgIter := 0#64
  cfgMem := 0#64
  cfgMask := 0#64
  cfgCtl := 0#32
  msgLen := 0#64
  done := false
  cfgok := false
  cfgerr := false
  cmderr := false
  seqerr := false
  exterr := false
  accerr := false
  seq := none
  host := []
  reply := .nothing
  extFails := []
  freeCount := 0

end Sys2Proof.Machine
end

