-- ==== Sys2Proof/Machine/Operands.lean ====
section
/-! DEFINITION. Operand forms: the slices of a block (00_scope.md R7), the byte order (20_memory.md
R50), the lane operand (30_encoding.md R71), the seed and key selectors (R72), and the derived
configuration values MEM, ITERATIONS, MASK and HWPATH (10_state.md R33 to R36). -/

namespace Sys2Proof.Machine

/-- `b.byte[j]`, j = 0..15 (R7). -/
def byteOf (b : Block) (j : Nat) : Byte := b.extractLsb' (8 * j) 8

/-- `b.dw[j]`, j = 0..3 (R7). -/
def dwOf (b : Block) (j : Nat) : Dword := b.extractLsb' (32 * j) 32

/-- `b.q[j]`, j = 0..1 (R7). -/
def qOf (b : Block) (j : Nat) : Word := b.extractLsb' (64 * j) 64

/-- `w.byte[j]` of a dword, j = 0..3 (R7). -/
def dwByte (w : Dword) (j : Nat) : Byte := w.extractLsb' (8 * j) 8

/-- The dword whose bytes 0..3 are given, byte 0 first (R50). -/
def dwOfBytes (b0 b1 b2 b3 : Byte) : Dword := b3 ++ b2 ++ b1 ++ b0

/-- The block whose dwords 0..3 are given, dword 0 first (R50). -/
def blockOfDws (d0 d1 d2 d3 : Dword) : Block := d3 ++ d2 ++ d1 ++ d0

/-- The block whose words 0 and 1 are given, word 0 (the low half) first (R50). -/
def blockOfQs (q0 q1 : Word) : Block := q1 ++ q0

/-- The block whose bytes 0..15 are `f 0` .. `f 15` (R7). -/
def blockOfBytes (f : Nat → Byte) : Block :=
  blockOfDws
    (dwOfBytes (f 0) (f 1) (f 2) (f 3))
    (dwOfBytes (f 4) (f 5) (f 6) (f 7))
    (dwOfBytes (f 8) (f 9) (f 10) (f 11))
    (dwOfBytes (f 12) (f 13) (f 14) (f 15))

/-- The number that bytes in memory order stand for: little-endian (R50). -/
def leValue : List Byte → Nat
  | [] => 0
  | b :: bs => b.toNat + 256 * leValue bs

/-- The `n` bytes of a number in memory order: little-endian (R50). -/
def leBytes : Nat → Nat → List Byte
  | 0, _ => []
  | n + 1, v => BitVec.ofNat 8 v :: leBytes n (v / 256)

/-- Does a lane operand name this lane (R71)? -/
def selHas : LaneSel → LaneId → Bool
  | .one l, l' => l == l'
  | .both, _ => true

/-- The lanes a lane operand names, in the order the model runs them (R71; log 17, DESIGN CHOICE, safe). -/
def selList : LaneSel → List LaneId
  | .one l => [l]
  | .both => [.l0, .l1]

/-- Is the operand a dual one (D = 1)? -/
def selDual : LaneSel → Bool
  | .one _ => false
  | .both => true

/-- Are all lanes of an operand in the block (R71: NLANES = 1 has lane 0 only)? -/
def selPresent : LaneSel → NLanes → Bool
  | _, .dual => true
  | .one .l0, .single => true
  | .one .l1, .single => false
  | .both, .single => false

/-- The number of a lane (R9). -/
def laneNumber : LaneId → Nat
  | .l0 => 0
  | .l1 => 1

/-- KEYGEN's seed offset in HS (R97): 32 * KSRC. -/
def seedOffset : KeySrc → Nat
  | .explode => 0
  | .implode => 32

/-- The key a selector names (R72): `K[KSEL]` for 0..9, else (15) the all-zero key. -/
def selectKey (k : Vector Block 10) (ksel : BitVec 4) : Block :=
  k.toList.getD ksel.toNat 0#128

/-- HWPATH, bit 0 of CFG_CTL (R36). -/
def State.hwPath (s : State) : Bool := s.cfgCtl.getLsbD 0

/-- The number of chunks, MEM / 128 (R56). -/
def State.chunks (s : State) : Nat := s.cfgMem.toNat / 128

/-- ITERATIONS (R33). -/
def State.iterations (s : State) : Nat := s.cfgIter.toNat

/-- A lane by its number. -/
def State.lane (s : State) : LaneId → Lane
  | .l0 => s.lane0
  | .l1 => s.lane1

end Sys2Proof.Machine
end

