-- ==== Sys2Proof/Machine/Flags.lean ====
section
/-! DEFINITION. Every flag computation: the STATUS register (10_state.md R38), the faulted state
(60_exceptions.md R194), the "needs" of a command (30_encoding.md R73) and the configuration check
(45_finalizer_pipeline.md R173). -/

namespace Sys2Proof.Machine

/-- The five fault bits of STATUS (R191). -/
inductive FaultBit where
  | cfgerr
  | cmderr
  | seqerr
  | exterr
  | accerr
  deriving DecidableEq, Repr

/-- STATUS.BUSY (R38): a command is running. -/
def State.busy (s : State) : Bool := s.seq.isSome

/-- Is a fault bit, one of STATUS bits 7:3, set (R194)? -/
def State.faulted (s : State) : Bool :=
  s.cfgerr || s.cmderr || s.seqerr || s.exterr || s.accerr

/-- The four valid bits of a lane as STATUS shows them: {DV, MV, XV, KV} (R38). -/
def Lane.validBits (ln : Lane) : BitVec 4 :=
  BitVec.ofBool ln.dv ++ BitVec.ofBool ln.mv ++ BitVec.ofBool ln.xv ++ BitVec.ofBool ln.kv

/-- The valid bits of lane 1, which read 0 when NLANES = 1 (R38). -/
def State.lane1ValidBits (s : State) : BitVec 4 :=
  match s.build.nlanes with
  | .single => 0#4
  | .dual => s.lane1.validBits

/-- STATUS, register 0x01 (R38). -/
def State.statusWord (s : State) : Dword :=
  0#16 ++ s.lane1ValidBits ++ s.lane0.validBits
    ++ BitVec.ofBool s.accerr ++ BitVec.ofBool s.exterr ++ BitVec.ofBool s.seqerr
    ++ BitVec.ofBool s.cmderr ++ BitVec.ofBool s.cfgerr ++ BitVec.ofBool s.cfgok
    ++ BitVec.ofBool s.done ++ BitVec.ofBool s.busy

/-- A power of two (R34). -/
def isPowerOfTwo (n : Nat) : Bool := n != 0 && 2 ^ n.log2 == n

/-- The check of CFGCOMMIT (R173): MEM a power of two, 128 ≤ MEM ≤ SPMAX,
MASK = (MEM - 1) & ~0xF, CFG_CTL[31:1] = 0. -/
def State.cfgConsistent (s : State) : Bool :=
  isPowerOfTwo s.cfgMem.toNat && 128 ≤ s.cfgMem.toNat && s.cfgMem.toNat ≤ s.build.spmax
    && s.cfgMask == (s.cfgMem - 1#64) &&& ~~~0xF#64
    && s.cfgCtl.extractLsb' 1 31 == 0#31

/-- CFGCOMMIT whose check fails (R173, R195). -/
def State.commitFails (s : State) (i : Instr) : Bool := i == .cfgcommit && !s.cfgConsistent

/-- One row of the "needs" column of R73. -/
structure Needs where
  cfgok : Bool := false
  kv : Bool := false
  xv : Bool := false
  mv : Bool := false
  deriving DecidableEq, Repr

/-- The "needs" column of R73: what must hold when the command is accepted, else SEQERR (R197). -/
def needs : Instr → Needs
  | .nop => {}
  | .cfgcommit => {}
  | .absorb _ => {}
  | .keygen _ _ => { cfgok := true }
  | .ldx _ => {}
  | .round8 _ ksel => { cfgok := true, xv := true, kv := ksel != 15#4 }
  | .xork8 _ _ => { xv := true, kv := true }
  | .stx _ => { xv := true }
  | .explode _ => { cfgok := true }
  | .implode _ => { cfgok := true }
  | .mixinit _ => {}
  | .mixstep _ => { cfgok := true, mv := true }
  | .mix _ => { cfgok := true }
  | .final _ => {}
  | .hash _ => { cfgok := true }
  | .reset => {}

/-- The valid bits needed of one lane (R197). -/
def laneReady (n : Needs) (ln : Lane) : Bool :=
  (!n.kv || ln.kv) && (!n.xv || ln.xv) && (!n.mv || ln.mv)

/-- The valid bits a command needs, for every lane it works on (R71, R197). -/
def State.lanesReady (s : State) (i : Instr) : Bool :=
  match i.lanes with
  | none => true
  | some sel =>
    (!selHas sel .l0 || laneReady (needs i) s.lane0)
      && (!selHas sel .l1 || laneReady (needs i) s.lane1)

/-- What R73 says the command needs; where it fails the command raises SEQERR (R197). -/
def State.needsMet (s : State) (i : Instr) : Bool :=
  (!(needs i).cfgok || s.cfgok) && s.lanesReady i

/-- The commands that read a message (R75, R196). -/
def readsMessage : Instr → Bool
  | .nop => false
  | .cfgcommit => false
  | .absorb _ => true
  | .keygen _ _ => false
  | .ldx _ => false
  | .round8 _ _ => false
  | .xork8 _ _ => false
  | .stx _ => false
  | .explode _ => false
  | .implode _ => false
  | .mixinit _ => false
  | .mixstep _ => false
  | .mix _ => false
  | .final _ => false
  | .hash _ => true
  | .reset => false

/-- MSGLEN ≤ MSGMAX, where the command reads a message (R75, R196). -/
def State.messageFits (s : State) (i : Instr) : Bool :=
  !readsMessage i || s.msgLen.toNat ≤ s.build.msgmax

/-- The commands that form scratchpad offsets from the configuration (R52). -/
def addressesScratchpad : Instr → Bool
  | .nop => false
  | .cfgcommit => false
  | .absorb _ => false
  | .keygen _ _ => false
  | .ldx _ => false
  | .round8 _ _ => false
  | .xork8 _ _ => false
  | .stx _ => false
  | .explode _ => true
  | .implode _ => true
  | .mixinit _ => false
  | .mixstep _ => true
  | .mix _ => true
  | .final _ => false
  | .hash _ => true
  | .reset => false

/-- Are the lanes a command names in the block (R71)? -/
def State.lanesPresent (s : State) (i : Instr) : Bool :=
  match i.lanes with
  | none => true
  | some sel => selPresent sel s.build.nlanes

/-- A command whose word is legal on this block (R74): its operands are in their legal sets and its
lanes exist. -/
def State.legal (s : State) (i : Instr) : Bool := i.wellFormed && s.lanesPresent i

end Sys2Proof.Machine
end

