-- ==== Sys2Proof/Machine/Ops.lean ====
section
/-! DEFINITION. The named operations over memories, lanes and registers; raising a fault and the
RESET that is the only way out of it (60_exceptions.md R193, R194, R198); calling a collaborator;
and issuing a command in the order of 30_encoding.md R75. -/

namespace Sys2Proof.Machine

/-! ### Memory (20_memory.md R50 to R53) -/

/-- The byte at an offset (R53): the entry's, else `Memory.unlisted`. -/
def Memory.read : Memory → Nat → Byte
  | [], _ => Memory.unlisted
  | (k, v) :: rest, a => if a = k then v else Memory.read rest a

/-- Drop the entry of an offset. -/
def Memory.erase (m : Memory) (a : Nat) : Memory := m.filter (fun c => c.1 != a)

/-- Put an entry in its place in the rising order. -/
def Memory.insert : Memory → Nat → Byte → Memory
  | [], a, v => [(a, v)]
  | (k, w) :: rest, a, v =>
    if a < k then (a, v) :: (k, w) :: rest else (k, w) :: Memory.insert rest a v

/-- Store a byte (R53), keeping the canonical form: storing what an unlisted offset reads as removes
the entry. -/
def Memory.write (m : Memory) (a : Nat) (v : Byte) : Memory :=
  if v = Memory.unlisted then m.erase a else (m.erase a).insert a v

/-- The canonical form: offsets strictly rising, and no entry equal to what an unlisted offset reads
as. -/
def Memory.wf : Memory → Bool
  | [] => true
  | (a, v) :: rest =>
    v != Memory.unlisted && rest.all (fun c => a < c.1) && Memory.wf rest

/-- Every entry lies in a space of this many bytes. -/
def Memory.within (m : Memory) (size : Nat) : Bool := m.all (fun c => c.1 < size)

/-- `n` bytes from an offset upward, in memory order. -/
def Memory.readBytes (m : Memory) : Nat → Nat → List Byte
  | _, 0 => []
  | a, n + 1 => m.read a :: Memory.readBytes m (a + 1) n

/-- Store bytes from an offset upward, in memory order. -/
def Memory.writeBytes : Memory → Nat → List Byte → Memory
  | m, _, [] => m
  | m, a, b :: bs => Memory.writeBytes (m.write a b) (a + 1) bs

/-- A memory that holds exactly these bytes from offset 0 (R174, R176). -/
def Memory.ofBytes (bs : List Byte) : Memory := Memory.writeBytes [] 0 bs

/-- A memory of `size` bytes with the contents a reset input left (R210); cells outside it do not
exist. Log 8 (DESIGN CHOICE, safe). -/
def Memory.ofCells (size : Nat) : List Host.Cell → Memory
  | [] => []
  | (a, v) :: rest =>
    if a < size then (Memory.ofCells size rest).write a v else Memory.ofCells size rest

/-- `MemRead(S, a, 8)` (R9, R50). -/
def Memory.read64 (m : Memory) (a : Nat) : Word := BitVec.ofNat 64 (leValue (m.readBytes a 8))

/-- `MemRead(S, a, 16)` (R9, R50). -/
def Memory.read128 (m : Memory) (a : Nat) : Block := BitVec.ofNat 128 (leValue (m.readBytes a 16))

/-- `MemWrite(S, a, 8, v)` (R9, R50). -/
def Memory.write64 (m : Memory) (a : Nat) (v : Word) : Memory := m.writeBytes a (leBytes 8 v.toNat)

/-- `MemWrite(S, a, 16, v)` (R9, R50). -/
def Memory.write128 (m : Memory) (a : Nat) (v : Block) : Memory :=
  m.writeBytes a (leBytes 16 v.toNat)

/-- The 200 bytes of a Hash State (R20). -/
def Lane.hsBytes (ln : Lane) : Vector Byte 200 := Vector.ofFn fun i => ln.hs.read i.val

/-! ### Lanes and loops -/

/-- Replace one lane. -/
def State.setLane (s : State) (l : LaneId) (ln : Lane) : State :=
  match l with
  | .l0 => { s with lane0 := ln }
  | .l1 => { s with lane1 := ln }

/-- Do the same to every lane a lane operand names (R71): the lanes share nothing (R61), so there is
no order to choose. -/
def State.onLanes (s : State) (sel : LaneSel) (f : Lane → Lane) : State :=
  { s with
    lane0 := if selHas sel .l0 then f s.lane0 else s.lane0
    lane1 := if selHas sel .l1 then f s.lane1 else s.lane1 }

/-- `for c in 0 .. n - 1: a = f(c, a)` (R10): counts up, an empty range runs nothing. -/
def loopUp {α : Type} : Nat → (Nat → α → α) → α → α
  | 0, _, a => a
  | n + 1, f, a => f n (loopUp n f a)

/-! ### Free values (93_implementation_defined.md Part 1; log 4, DESIGN CHOICE, safe) -/

/-- Count one draw of free values. -/
def State.drawn (s : State) : State := { s with freeCount := s.freeCount + 1 }

/-- `count` free bytes of one draw. -/
def freeBytes (draw : Nat) (slot : Nat → Slot) : Nat → List Byte
  | 0 => []
  | n + 1 => freeBytes draw slot n ++ [(Config.freeValue draw (slot n)).setWidth 8]

/-- A lane whose register sets, selector and digest the spec leaves unspecified, valid bits clear
(R40, U2); HS and SP are kept. Log 7 (DESIGN CHOICE, safe). -/
def Lane.afterReset (ln : Lane) (l : LaneId) (draw : Nat) : Lane :=
  { ln with
    dig := Memory.ofBytes (freeBytes draw (Slot.digByte l) 32)
    k := Vector.ofFn fun i => Config.freeValue draw (.key l i.val)
    x := Vector.ofFn fun i => Config.freeValue draw (.block l i.val)
    idx := (Config.freeValue draw (.idx l)).setWidth 64
    al := (Config.freeValue draw (.al l)).setWidth 64
    ah := (Config.freeValue draw (.ah l)).setWidth 64
    bx := Config.freeValue draw (.bx l)
    sel := (Config.freeValue draw (.sel l)).setWidth 2
    kv := false
    xv := false
    mv := false
    dv := false }

/-- A lane whose Hash State, digest and selector a failed collaborator call left unspecified, with DV
clear (R198, U5, D28). Log 14 (DEDUCED, unsafe). -/
def Lane.afterExtFailure (ln : Lane) (l : LaneId) (draw : Nat) : Lane :=
  { ln with
    hs := Memory.ofBytes (freeBytes draw (Slot.hsByte l) 200)
    dig := Memory.ofBytes (freeBytes draw (Slot.digByte l) 32)
    sel := (Config.freeValue draw (.sel l)).setWidth 2
    dv := false }

/-! ### Faults and RESET (60_exceptions.md) -/

/-- Set one fault bit of STATUS. -/
def State.setFault (s : State) (f : FaultBit) : State :=
  match f with
  | .cfgerr => { s with cfgerr := true }
  | .cmderr => { s with cmderr := true }
  | .seqerr => { s with seqerr := true }
  | .exterr => { s with exterr := true }
  | .accerr => { s with accerr := true }

/-- `raise Fault(f)` for CFGERR, CMDERR and SEQERR (R193): the bit is set, DONE is cleared, nothing
else changes. -/
def State.raise (s : State) (f : FaultBit) : State := { s.setFault f with done := false }

/-- The effect of RESET (R180, R40): every register and flag takes its reset value, the register
sets, SEL and DIG are unspecified, and HS, SP and MSG keep their bytes. -/
def State.resetRegisters (s : State) : State :=
  { s with
    lane0 := s.lane0.afterReset .l0 s.freeCount
    lane1 := s.lane1.afterReset .l1 s.freeCount
    cfgIter := 0#64
    cfgMem := 0#64
    cfgMask := 0#64
    cfgCtl := 0#32
    msgLen := 0#64
    done := false
    cfgok := false
    cfgerr := false
    cmderr := false
    seqerr := false
    exterr := false
    accerr := false
    seq := none
    freeCount := s.freeCount + 1 }

/-- The reset input (R210): as RESET, and HS, SP and MSG hold whatever bytes they happen to hold. A
running command is abandoned. Log 8 (DESIGN CHOICE, safe). -/
def State.resetInput (s : State) (image : MemoryImage) : State :=
  let r := s.resetRegisters
  { r with
    lane0 := { r.lane0 with
      hs := Memory.ofCells 200 image.hs0, sp := Memory.ofCells s.build.spmax image.sp0 }
    lane1 := { r.lane1 with
      hs := Memory.ofCells 200 image.hs1, sp := Memory.ofCells s.build.spmax image.sp1 }
    msg := Memory.ofCells (2 * s.build.msgmax) image.msg }

/-! ### Commands -/

/-- How a part of a command ends: completed, or with the whole command stopped there, DONE not set
(the check of CFGCOMMIT fails, R173; a collaborator call fails, R198; or RESET, R180). -/
inductive Ending where
  | completed (s : State)
  | stopped (s : State)
  deriving DecidableEq, Repr

/-- One part of a command after another (R177): a stopped part ends the command at once (R198). -/
def Ending.andThen (e : Ending) (f : State → Ending) : Ending :=
  match e with
  | .completed s => f s
  | .stopped s => .stopped s

/-- The end of a command (R75): BUSY falls and, if no fault, DONE is set. -/
def Ending.close : Ending → State
  | .completed s => { s with seq := none, done := true }
  | .stopped s => { s with seq := none }

/-- A collaborator call: whether it fails is the environment's choice (R198, U12). Log 3 (DESIGN CHOICE, safe). -/
def State.extCall (s : State) : Bool × State :=
  match s.extFails with
  | [] => (false, s)
  | b :: rest => (b, { s with extFails := rest })

/-- Clear DV of the lanes of a command (R28: the start of FINAL or HASH on that lane). -/
def State.clearDV (s : State) (sel : LaneSel) : State :=
  s.onLanes sel fun ln => { ln with dv := false }

/-- What a failed collaborator call leaves (R198, U5): EXTERR, and on every lane of the command HS,
DIG and SEL unspecified and DV clear. Log 14 (DEDUCED, unsafe). -/
def State.extFailure (s : State) (sel : LaneSel) : State :=
  { s with
    lane0 := if selHas sel .l0 then s.lane0.afterExtFailure .l0 s.freeCount else s.lane0
    lane1 := if selHas sel .l1 then s.lane1.afterExtFailure .l1 s.freeCount else s.lane1
    exterr := true
    freeCount := s.freeCount + 1 }

/-- What becomes of a command written to CMD (R75). -/
inductive Verdict where
  /-- BUSY: ACCERR, the word is ignored (R32) -/
  | refusedBusy
  /-- faulted, and the word is not RESET (R194) -/
  | ignored
  /-- CMDERR or SEQERR (R193) -/
  | raises (f : FaultBit)
  /-- a state no run reaches: CFGOK over an inconsistent tuple (log 15, DESIGN CHOICE, safe) -/
  | outside
  | accepted
  deriving DecidableEq, Repr

/-- The order of tests of R75 and R201 on a decoded command. -/
def State.verdict (s : State) (i : Instr) : Verdict :=
  if s.busy then .refusedBusy
  else if s.faulted then (if i = .reset then .accepted else .ignored)
  else if !s.legal i then .raises .cmderr
  else if !s.needsMet i then .raises .seqerr
  else if !s.messageFits i then .raises .cmderr
  else if addressesScratchpad i && !s.cfgConsistent then .outside
  else .accepted

/-- A decoded command written to CMD (R75): the tests in their order, then `run` on the state with
DONE cleared. -/
def State.issue (s : State) (i : Instr) (run : State → State) :
    Host.Outcome State Fault Refusal :=
  match s.verdict i with
  | .refusedBusy => .next (s.setFault .accerr)
  | .ignored => .next s
  | .raises f => .next (s.raise f)
  | .outside => .fault .outsideSpace
  | .accepted => .next (run { s with done := false })

/-- A word that decodes to no command, written to CMD (R74, R75). -/
def State.issueIllegal (s : State) : State :=
  if s.busy then s.setFault .accerr
  else if s.faulted then s
  else s.raise .cmderr

end Sys2Proof.Machine
end

