-- ==== Sys2Proof/Machine/Housekeeping.lean ====
section
/-! DEFINITION. The housekeeping commands NOP, CFGCOMMIT and RESET (45_finalizer_pipeline.md R173,
R179, R180). -/

namespace Sys2Proof.Machine

/-- The body of NOP (R179): nothing. -/
def nopBody (s : State) : Ending := .completed s

/-- NOP (R179): DONE is cleared when it is accepted and set when it ends. -/
def execNop (s : State) : Host.Outcome State Fault Refusal :=
  s.issue .nop fun t => (nopBody t).close

/-- The body of CFGCOMMIT (R173): CFGOK, or the fault CFGERR (R195). Whether the check fails is known
when the command is accepted; log 21 (DEDUCED, unsafe). -/
def cfgcommitBody (s : State) : Ending :=
  if s.cfgConsistent then .completed { s with cfgok := true } else .stopped (s.raise .cfgerr)

/-- CFGCOMMIT (R173). -/
def execCfgcommit (s : State) : Host.Outcome State Fault Refusal :=
  s.issue .cfgcommit fun t => (cfgcommitBody t).close

/-- The body of RESET (R180): STATUS becomes 0, so DONE is not set at its end. -/
def resetBody (s : State) : Ending := .stopped s.resetRegisters

/-- RESET (R180). -/
def execReset (s : State) : Host.Outcome State Fault Refusal :=
  s.issue .reset fun t => (resetBody t).close

end Sys2Proof.Machine
end

