-- ==== Sys2Proof/Machine/Cipher.lean ====
section
/-! DEFINITION. The block-cipher round, by its direct and by its table-driven definition
(41_round.md R110 to R119), and the ten-round sequence of Explode and Implode (42_explode.md R131,
R132). -/

namespace Sys2Proof.Machine

/-- The S-box (R111), row by row as the spec prints it: row r, column c is byte 15 - c of entry r,
so that column 0 is the leftmost. -/
def sboxRows : List Block :=
  [0x637c777bf26b6fc53001672bfed7ab76#128,
   0xca82c97dfa5947f0add4a2af9ca472c0#128,
   0xb7fd9326363ff7cc34a5e5f171d83115#128,
   0x04c723c31896059a071280e2eb27b275#128,
   0x09832c1a1b6e5aa0523bd6b329e32f84#128,
   0x53d100ed20fcb15b6acbbe394a4c58cf#128,
   0xd0efaafb434d338545f9027f503c9fa8#128,
   0x51a3408f929d38f5bcb6da2110fff3d2#128]
  ++
  [0xcd0c13ec5f974417c4a77e3d645d1973#128,
   0x60814fdc222a908846eeb814de5e0bdb#128,
   0xe0323a0a4906245cc2d3ac629195e479#128,
   0xe7c8376d8dd54ea96c56f4ea657aae08#128,
   0xba78252e1ca6b4c6e8dd741f4bbd8b8a#128,
   0x703eb5664803f60e613557b986c11d9e#128,
   0xe1f8981169d98e949b1e87e9ce5528df#128,
   0x8ca1890dbfe6426841992d0fb054bb16#128]

/-- `S[a]` (R111). -/
def sbox (a : Byte) : Byte := byteOf (sboxRows.getD (a.toNat / 16) 0#128) (15 - a.toNat % 16)

/-- Multiplication by two in GF(2^8) (R112). -/
def xtime (a : Byte) : Byte := (a <<< 1) ^^^ (if a.getLsbD 7 then 0x1b#8 else 0x00#8)

/-- `mul2` (R112). -/
def mul2 (a : Byte) : Byte := xtime a

/-- `mul3` (R112). -/
def mul3 (a : Byte) : Byte := xtime a ^^^ a

/-- SubBytes (R114). -/
def subBytes (x : Block) : Block := blockOfBytes fun j => sbox (byteOf x j)

/-- ShiftRows (R114): byte r + 4c of the result is byte r + 4((c + r) mod 4). -/
def shiftRows (x : Block) : Block :=
  blockOfBytes fun j => byteOf x (j % 4 + 4 * ((j / 4 + j % 4) % 4))

/-- MixColumns on one column of bytes a0..a3 (R115). -/
def mixColumn (a0 a1 a2 a3 : Byte) : Dword :=
  dwOfBytes
    (mul2 a0 ^^^ mul3 a1 ^^^ a2 ^^^ a3)
    (a0 ^^^ mul2 a1 ^^^ mul3 a2 ^^^ a3)
    (a0 ^^^ a1 ^^^ mul2 a2 ^^^ mul3 a3)
    (mul3 a0 ^^^ a1 ^^^ a2 ^^^ mul2 a3)

/-- Column c of a block, mixed (R113, R115): column c is dword c, row 0 in its low byte. -/
def mixColumnOf (x : Block) (c : Nat) : Dword :=
  mixColumn (byteOf x (4 * c)) (byteOf x (4 * c + 1)) (byteOf x (4 * c + 2)) (byteOf x (4 * c + 3))

/-- MixColumns (R115). -/
def mixColumns (x : Block) : Block :=
  blockOfDws (mixColumnOf x 0) (mixColumnOf x 1) (mixColumnOf x 2) (mixColumnOf x 3)

/-- `RoundHW(x, k)` (R110, R116): substitution, row shift, column mix, key exclusive-or. -/
def roundHW (x k : Block) : Block := mixColumns (shiftRows (subBytes x)) ^^^ k

/-- Table T0 (R118): {mul3(S[a]), S[a], S[a], mul2(S[a])}, mul3 in bits 31:24. -/
def table0 (a : Byte) : Dword := dwOfBytes (mul2 (sbox a)) (sbox a) (sbox a) (mul3 (sbox a))

/-- Table T1 (R118). -/
def table1 (a : Byte) : Dword := (table0 a).rotateLeft 8

/-- Table T2 (R118). -/
def table2 (a : Byte) : Dword := (table0 a).rotateLeft 16

/-- Table T3 (R118). -/
def table3 (a : Byte) : Dword := (table0 a).rotateLeft 24

/-- One dword of `RoundSW` (R119): four look-ups and the key's dword. -/
def roundSWDw (x k : Block) (c : Nat) : Dword :=
  table0 (byteOf x (4 * c))
    ^^^ table1 (byteOf x (1 + 4 * ((c + 1) % 4)))
    ^^^ table2 (byteOf x (2 + 4 * ((c + 2) % 4)))
    ^^^ table3 (byteOf x (3 + 4 * ((c + 3) % 4)))
    ^^^ dwOf k c

/-- `RoundSW(x, k)` (R119). -/
def roundSW (x k : Block) : Block :=
  blockOfDws (roundSWDw x k 0) (roundSWDw x k 1) (roundSWDw x k 2) (roundSWDw x k 3)

/-- `Round(x, k)` on the path HWPATH selects (R36, R120). -/
def cipherRound (hw : Bool) (x k : Block) : Block := if hw then roundHW x k else roundSW x k

/-- Keyed rounds with the keys of a list in order. -/
def roundsWith (hw : Bool) (x : Block) : List Block → Block
  | [] => x
  | k :: ks => roundsWith hw (cipherRound hw x k) ks

/-- `RoundSeq(x, k[0..9])`: ten keyed rounds with UNIFORM10 (R131); with LITERAL_ASYM the same on
the software path, and on the hardware path one unkeyed round, keys 0..8, then an exclusive-or with
key 9 (R132). -/
def roundSeq (mode : RoundSeq) (hw : Bool) (x : Block) (k : Vector Block 10) : Block :=
  match mode, hw with
  | .literalAsym, true => roundsWith true (cipherRound true x 0#128) (k.toList.take 9) ^^^ k[9]
  | .literalAsym, false => roundsWith false x k.toList
  | .uniform10, _ => roundsWith hw x k.toList

end Sys2Proof.Machine
end

