-- ==== Sys2Proof/Machine/KeySchedule.lean ====
section
/-! DEFINITION. The key schedule and the command KEYGEN (40_key_schedule.md R90 to R97). -/

namespace Sys2Proof.Machine

/-- `SubWord(w)` (R91): each byte through the S-box. -/
def subWord (w : Dword) : Dword :=
  dwOfBytes (sbox (dwByte w 0)) (sbox (dwByte w 1)) (sbox (dwByte w 2)) (sbox (dwByte w 3))

/-- `RotWord(w)` (R91): rotate right by 8 bits. -/
def rotWord (w : Dword) : Dword := (w >>> 8) ||| (w <<< 24)

/-- `slxor(v)` (R92). -/
def slxor (v : Block) : Block := v ^^^ (v <<< 32) ^^^ (v <<< 64) ^^^ (v <<< 96)

/-- `Bcast(w)` (R92). -/
def bcast (w : Dword) : Block := blockOfDws w w w w

/-- `Assist(v, rcon)`, the hardware assist primitive (R93). -/
def assistHW (v : Block) (rcon : Byte) : Block :=
  blockOfDws
    (subWord (dwOf v 1))
    (rotWord (subWord (dwOf v 1)) ^^^ rcon.setWidth 32)
    (subWord (dwOf v 3))
    (rotWord (subWord (dwOf v 3)) ^^^ rcon.setWidth 32)

/-- The four look-ups of one dword (R94). -/
def assistLookup (x : Dword) : Dword :=
  (sbox (dwByte x 0)).setWidth 32 ||| ((sbox (dwByte x 1)).setWidth 32 <<< 8)
    ||| ((sbox (dwByte x 2)).setWidth 32 <<< 16) ||| ((sbox (dwByte x 3)).setWidth 32 <<< 24)

/-- `AssistSW(v, rcon)`, the table-driven equivalent (R94). -/
def assistSW (v : Block) (rcon : Byte) : Block :=
  blockOfDws
    (assistLookup (dwOf v 1))
    (rotWord (assistLookup (dwOf v 1)) ^^^ rcon.setWidth 32)
    (assistLookup (dwOf v 3))
    (rotWord (assistLookup (dwOf v 3)) ^^^ rcon.setWidth 32)

/-- The assist on the path HWPATH selects (R96). -/
def assist (hw : Bool) (v : Block) (rcon : Byte) : Block :=
  if hw then assistHW v rcon else assistSW v rcon

/-- The new first half of one step (R96). -/
def keygenFirst (hw : Bool) (a b : Block) (rcon : Byte) : Block :=
  slxor a ^^^ bcast (dwOf (assist hw b rcon) 3)

/-- The new second half of one step (R96), from the new first half `a'`. -/
def keygenSecond (hw : Bool) (a' b : Block) : Block :=
  slxor b ^^^ bcast (dwOf (assist hw a' 0x00#8) 2)

/-- The four steps of R96, one for each round constant: the keys they make, two a step. -/
def keygenSteps (hw : Bool) (a b : Block) : List Byte → List Block
  | [] => []
  | rcon :: rest =>
    let a' := keygenFirst hw a b rcon
    let b' := keygenSecond hw a' b
    a' :: b' :: keygenSteps hw a' b' rest

/-- `KeyExpand(s0, s1)` (R90, R96) as a list: the seed blocks, then the keys of the steps with
0x01, 0x02, 0x04, 0x08. -/
def keyExpandList (hw : Bool) (s0 s1 : Block) : List Block :=
  s0 :: s1 :: keygenSteps hw s0 s1 [0x01#8, 0x02#8, 0x04#8, 0x08#8]

/-- `KeyExpand(s0, s1)` (R90): the ten keys k[0..9]. -/
def keyExpand (hw : Bool) (s0 s1 : Block) : Vector Block 10 :=
  ⟨(keyExpandList hw s0 s1).toArray, rfl⟩

/-- KEYGEN on one lane (R97). -/
def keygenLane (hw : Bool) (src : KeySrc) (ln : Lane) : Lane :=
  { ln with
    k := keyExpand hw (ln.hs.read128 (seedOffset src)) (ln.hs.read128 (seedOffset src + 16))
    kv := true }

/-- The body of KEYGEN (R97). -/
def keygenBody (sel : LaneSel) (src : KeySrc) (s : State) : Ending :=
  .completed (s.onLanes sel (keygenLane s.hwPath src))

/-- KEYGEN (R97). -/
def execKeygen (sel : LaneSel) (src : KeySrc) (s : State) : Host.Outcome State Fault Refusal :=
  s.issue (.keygen sel src) fun t => (keygenBody sel src t).close

end Sys2Proof.Machine
end

