-- ==== Sys2Proof/Machine/Explode.lean ====
section
/-! DEFINITION. The commands LDX and EXPLODE (42_explode.md R130 to R136). -/

namespace Sys2Proof.Machine

/-- The offset in HS of initial cipher block i (R130): bytes 64..191 are blocks 4 to 11. -/
def blockOffset (i : Nat) : Nat := 64 + 16 * i

/-- The offset in SP of cell i of chunk c (R56). -/
def cellOffset (c i : Nat) : Nat := 128 * c + 16 * i

/-- LDX on one lane (R134). -/
def ldxLane (ln : Lane) : Lane :=
  { ln with x := Vector.ofFn fun i => ln.hs.read128 (blockOffset i.val), xv := true }

/-- The body of LDX (R134). -/
def ldxBody (sel : LaneSel) (s : State) : Ending := .completed (s.onLanes sel ldxLane)

/-- LDX (R134). -/
def execLdx (sel : LaneSel) (s : State) : Host.Outcome State Fault Refusal :=
  s.issue (.ldx sel) fun t => (ldxBody sel t).close

/-- `MemWrite` of blocks one after another, 16 bytes apart (R52). -/
def storeBlocks (m : Memory) (a : Nat) : List Block → Memory
  | [] => m
  | b :: bs => storeBlocks (m.write128 a b) (a + 16) bs

/-- The start of EXPLODE (R135): the keys from KSRC = 0 (R133), then the blocks as LDX. -/
def explodeStart (hw : Bool) (ln : Lane) : Lane := ldxLane (keygenLane hw .explode ln)

/-- One chunk of EXPLODE (R135): the round sequence on each block, then the eight stores. -/
def explodeChunk (mode : RoundSeq) (hw : Bool) (c : Nat) (ln : Lane) : Lane :=
  let x := ln.x.map fun b => roundSeq mode hw b ln.k
  { ln with x := x, sp := storeBlocks ln.sp (cellOffset c 0) x.toList }

/-- EXPLODE on one lane (R135): chunks 0 .. n - 1 in increasing order. -/
def explodeLane (mode : RoundSeq) (hw : Bool) (n : Nat) (ln : Lane) : Lane :=
  loopUp n (explodeChunk mode hw) (explodeStart hw ln)

/-- The body of EXPLODE (R135). -/
def explodeBody (sel : LaneSel) (s : State) : Ending :=
  .completed (s.onLanes sel (explodeLane s.build.roundSeq s.hwPath s.chunks))

/-- EXPLODE (R135). -/
def execExplode (sel : LaneSel) (s : State) : Host.Outcome State Fault Refusal :=
  s.issue (.explode sel) fun t => (explodeBody sel t).close

end Sys2Proof.Machine
end

