-- ==== Sys2Proof/Machine/Implode.lean ====
section
/-! DEFINITION. The commands STX and IMPLODE (43_implode.md R140 to R144). -/

namespace Sys2Proof.Machine

/-- STX on one lane (R141): bytes 64..191 of HS. -/
def stxLane (ln : Lane) : Lane :=
  { ln with hs := storeBlocks ln.hs (blockOffset 0) ln.x.toList }

/-- The body of STX (R141). -/
def stxBody (sel : LaneSel) (s : State) : Ending := .completed (s.onLanes sel stxLane)

/-- STX (R141). -/
def execStx (sel : LaneSel) (s : State) : Host.Outcome State Fault Refusal :=
  s.issue (.stx sel) fun t => (stxBody sel t).close

/-- The start of IMPLODE (R143): the keys from KSRC = 1 (R142), then the blocks as LDX. -/
def implodeStart (hw : Bool) (ln : Lane) : Lane := ldxLane (keygenLane hw .implode ln)

/-- One chunk of IMPLODE (R143): exclusive-or the chunk into the blocks first, the round sequence
second. -/
def implodeChunk (mode : RoundSeq) (hw : Bool) (c : Nat) (ln : Lane) : Lane :=
  { ln with
    x := Vector.ofFn fun i : Fin 8 =>
      roundSeq mode hw (ln.x[i] ^^^ ln.sp.read128 (cellOffset c i.val)) ln.k }

/-- IMPLODE on one lane (R143): chunks 0 .. n - 1 in address order, then the stores as STX. -/
def implodeLane (mode : RoundSeq) (hw : Bool) (n : Nat) (ln : Lane) : Lane :=
  stxLane (loopUp n (implodeChunk mode hw) (implodeStart hw ln))

/-- The body of IMPLODE (R143). -/
def implodeBody (sel : LaneSel) (s : State) : Ending :=
  .completed (s.onLanes sel (implodeLane s.build.roundSeq s.hwPath s.chunks))

/-- IMPLODE (R143). -/
def execImplode (sel : LaneSel) (s : State) : Host.Outcome State Fault Refusal :=
  s.issue (.implode sel) fun t => (implodeBody sel t).close

end Sys2Proof.Machine
end

