-- ==== Sys2Proof/Machine/Mix.lean ====
section
/-! DEFINITION. The memory-hard mixing loop: MIXINIT, MIXSTEP and MIX (44_mix.md R150 to R158). -/

namespace Sys2Proof.Machine

/-- Word h[i] of a Hash State (R12, R20). -/
def hsWord (ln : Lane) (i : Nat) : Word := ln.hs.read64 (8 * i)

/-- MIXINIT on one lane (R150, R151). -/
def mixinitLane (ln : Lane) : Lane :=
  { ln with
    al := hsWord ln 0 ^^^ hsWord ln 4
    ah := hsWord ln 1 ^^^ hsWord ln 5
    bx := blockOfQs (hsWord ln 2 ^^^ hsWord ln 6) (hsWord ln 3 ^^^ hsWord ln 7)
    idx := hsWord ln 0 ^^^ hsWord ln 4
    mv := true }

/-- The body of MIXINIT (R151). -/
def mixinitBody (sel : LaneSel) (s : State) : Ending := .completed (s.onLanes sel mixinitLane)

/-- MIXINIT (R151). -/
def execMixinit (sel : LaneSel) (s : State) : Host.Outcome State Fault Refusal :=
  s.issue (.mixinit sel) fun t => (mixinitBody sel t).close

/-- The key of step 2 (R152): {AH, AL}, AH in the high half. -/
def mixKey (ln : Lane) : Block := blockOfQs ln.al ln.ah

/-- A scratchpad offset (R54): idx & MASK. -/
def mixAddress (idx mask : Word) : Nat := (idx &&& mask).toNat

/-- The full 128-bit unsigned product (R154). -/
def mulFull (a b : Word) : Block := a.setWidth 128 * b.setWidth 128

/-- Steps 1 to 4 of an iteration (R153): read the cell, one round keyed by {AH, AL}, store BX ^ cx
with the old BX, then IDX and BX from cx. -/
def mixFirstHalf (hw : Bool) (mask : Word) (ln : Lane) : Lane :=
  let a1 := mixAddress ln.idx mask
  let cx := cipherRound hw (ln.sp.read128 a1) (mixKey ln)
  { ln with sp := ln.sp.write128 a1 (ln.bx ^^^ cx), idx := qOf cx 0, bx := cx }

/-- Steps 5 to 10 of an iteration (R153): read the second cell as cl and ch, multiply, add hi to AL
and lo to AH, store the sums, exclusive-or cl and ch in, and IDX from AL. -/
def mixSecondHalf (mask : Word) (ln : Lane) : Lane :=
  let a2 := mixAddress ln.idx mask
  let cl := ln.sp.read64 a2
  let ch := ln.sp.read64 (a2 + 8)
  let p := mulFull ln.idx cl
  let al := ln.al + qOf p 1
  let ah := ln.ah + qOf p 0
  { ln with
    sp := (ln.sp.write64 a2 al).write64 (a2 + 8) ah
    ah := ah ^^^ ch
    al := al ^^^ cl
    idx := al ^^^ cl }

/-- MIXSTEP on one lane (R153): the second half sees the first one's store (R155). -/
def mixstepLane (hw : Bool) (mask : Word) (ln : Lane) : Lane :=
  mixSecondHalf mask (mixFirstHalf hw mask ln)

/-- The body of MIXSTEP (R153). -/
def mixstepBody (sel : LaneSel) (s : State) : Ending :=
  .completed (s.onLanes sel (mixstepLane s.hwPath s.cfgMask))

/-- MIXSTEP (R153). -/
def execMixstep (sel : LaneSel) (s : State) : Host.Outcome State Fault Refusal :=
  s.issue (.mixstep sel) fun t => (mixstepBody sel t).close

/-- MIX on one lane (R157): MIXINIT, then n iterations one after another. -/
def mixLane (hw : Bool) (mask : Word) (n : Nat) (ln : Lane) : Lane :=
  loopUp n (fun _ => mixstepLane hw mask) (mixinitLane ln)

/-- The body of MIX (R157, R158). -/
def mixBody (sel : LaneSel) (s : State) : Ending :=
  .completed (s.onLanes sel (mixLane s.hwPath s.cfgMask s.iterations))

/-- MIX (R157, R158). -/
def execMix (sel : LaneSel) (s : State) : Host.Outcome State Fault Refusal :=
  s.issue (.mix sel) fun t => (mixBody sel t).close

end Sys2Proof.Machine
end

