-- ==== Sys2Proof/Machine/Pipeline.lean ====
section
/-! DEFINITION. The commands that call the external collaborators: ABSORB, FINAL and the whole HASH
(45_finalizer_pipeline.md R170 to R178). -/

namespace Sys2Proof.Machine

/-- Where a lane's message begins in MSG (R174): 0 for a single command, n * lane for a dual one. -/
def messageBase (sel : LaneSel) (l : LaneId) (n : Nat) : Nat :=
  if selDual sel then n * laneNumber l else 0

/-- The message a lane absorbs (R22, R174): MSGLEN bytes of MSG. -/
def State.message (s : State) (sel : LaneSel) (l : LaneId) : List Byte :=
  s.msg.readBytes (messageBase sel l s.msgLen.toNat) s.msgLen.toNat

/-- ABSORB on one lane (R174): the call of SpongeAbsorb, which may fail (R198). -/
def absorbLane (sel : LaneSel) (l : LaneId) (s : State) : Ending :=
  match s.extCall with
  | (true, t) => .stopped (t.extFailure sel)
  | (false, t) =>
    .completed (t.setLane l { t.lane l with
      hs := Memory.ofBytes (Config.spongeAbsorb (t.message sel l)).toList })

/-- A part that calls collaborators, on the lanes of a command in turn (R71; log 17, DESIGN CHOICE, safe). -/
def eachLane (f : LaneId → State → Ending) : List LaneId → State → Ending
  | [], s => .completed s
  | l :: ls, s => (f l s).andThen (eachLane f ls)

/-- The body of ABSORB (R174). -/
def absorbBody (sel : LaneSel) (s : State) : Ending :=
  eachLane (absorbLane sel) (selList sel) s

/-- ABSORB (R174). -/
def execAbsorb (sel : LaneSel) (s : State) : Host.Outcome State Fault Refusal :=
  s.issue (.absorb sel) fun t => (absorbBody sel t).close

/-- The selector (R175): bits 1:0 of byte 0 of the permuted state. -/
def selectorOf (p : Vector Byte 200) : BitVec 2 := p[0].extractLsb' 0 2

/-- What FINAL leaves in a lane when no call fails (R176). -/
def finalLane (p : Vector Byte 200) (ln : Lane) : Lane :=
  { ln with
    hs := Memory.ofBytes p.toList
    dig := Memory.ofBytes (Config.fin (selectorOf p) p).toList
    sel := selectorOf p
    dv := true }

/-- FINAL on one lane (R176): the calls of Permute and of Fin[s], each of which may fail (R198). -/
def finalOnLane (sel : LaneSel) (l : LaneId) (s : State) : Ending :=
  match s.extCall with
  | (true, t) => .stopped (t.extFailure sel)
  | (false, t) =>
    match t.extCall with
    | (true, u) => .stopped (u.extFailure sel)
    | (false, u) =>
      .completed (u.setLane l (finalLane (Config.permute (u.lane l).hsBytes) (u.lane l)))

/-- The body of FINAL (R176): DV of its lanes is cleared first (R28). -/
def finalBody (sel : LaneSel) (s : State) : Ending :=
  eachLane (finalOnLane sel) (selList sel) (s.clearDV sel)

/-- FINAL (R176). -/
def execFinal (sel : LaneSel) (s : State) : Host.Outcome State Fault Refusal :=
  s.issue (.final sel) fun t => (finalBody sel t).close

/-- The absorb part of HASH (R177): as ABSORB, with DV of the lanes cleared at the start (R28). -/
def hashAbsorb (sel : LaneSel) (s : State) : Ending :=
  eachLane (absorbLane sel) (selList sel) (s.clearDV sel)

/-- The body of HASH (R177): the five parts in order, each complete before the next begins. -/
def hashBody (sel : LaneSel) (s : State) : Ending :=
  ((((hashAbsorb sel s).andThen (explodeBody sel)).andThen (mixBody sel)).andThen
    (implodeBody sel)).andThen (finalBody sel)

/-- HASH (R177, R178). -/
def execHash (sel : LaneSel) (s : State) : Host.Outcome State Fault Refusal :=
  s.issue (.hash sel) fun t => (hashBody sel t).close

end Sys2Proof.Machine
end

