-- ==== Sys2Proof/Machine/Round.lean ====
section
/-! DEFINITION. The commands ROUND8 and XORK8 (41_round.md R121, R122). -/

namespace Sys2Proof.Machine

/-- ROUND8 on one lane (R121): the same key to all eight blocks; KSEL = 15 is the zero key. -/
def round8Lane (hw : Bool) (ksel : BitVec 4) (ln : Lane) : Lane :=
  { ln with x := ln.x.map fun b => cipherRound hw b (selectKey ln.k ksel) }

/-- The body of ROUND8 (R121). -/
def round8Body (sel : LaneSel) (ksel : BitVec 4) (s : State) : Ending :=
  .completed (s.onLanes sel (round8Lane s.hwPath ksel))

/-- ROUND8 (R121). -/
def execRound8 (sel : LaneSel) (ksel : BitVec 4) (s : State) :
    Host.Outcome State Fault Refusal :=
  s.issue (.round8 sel ksel) fun t => (round8Body sel ksel t).close

/-- XORK8 on one lane (R122). -/
def xork8Lane (ksel : BitVec 4) (ln : Lane) : Lane :=
  { ln with x := ln.x.map fun b => b ^^^ selectKey ln.k ksel }

/-- The body of XORK8 (R122). -/
def xork8Body (sel : LaneSel) (ksel : BitVec 4) (s : State) : Ending :=
  .completed (s.onLanes sel (xork8Lane ksel))

/-- XORK8 (R122). -/
def execXork8 (sel : LaneSel) (ksel : BitVec 4) (s : State) :
    Host.Outcome State Fault Refusal :=
  s.issue (.xork8 sel ksel) fun t => (xork8Body sel ksel t).close

end Sys2Proof.Machine
end

