-- ==== Sys2Proof/Machine/Dispatch.lean ====
section
/-! DEFINITION. The meaning of every command: one arm for each constructor of Instr. -/

namespace Sys2Proof.Machine

def exec (i : Instr) (s : State) : Host.Outcome State Fault Refusal :=
  match i with
  | .nop => Sys2Proof.Machine.execNop s
  | .cfgcommit => Sys2Proof.Machine.execCfgcommit s
  | .absorb sel => Sys2Proof.Machine.execAbsorb sel s
  | .keygen sel ksrc => Sys2Proof.Machine.execKeygen sel ksrc s
  | .ldx sel => Sys2Proof.Machine.execLdx sel s
  | .round8 sel ksel => Sys2Proof.Machine.execRound8 sel ksel s
  | .xork8 sel ksel => Sys2Proof.Machine.execXork8 sel ksel s
  | .stx sel => Sys2Proof.Machine.execStx sel s
  | .explode sel => Sys2Proof.Machine.execExplode sel s
  | .implode sel => Sys2Proof.Machine.execImplode sel s
  | .mixinit sel => Sys2Proof.Machine.execMixinit sel s
  | .mixstep sel => Sys2Proof.Machine.execMixstep sel s
  | .mix sel => Sys2Proof.Machine.execMix sel s
  | .final sel => Sys2Proof.Machine.execFinal sel s
  | .hash sel => Sys2Proof.Machine.execHash sel s
  | .reset => Sys2Proof.Machine.execReset s

end Sys2Proof.Machine
end

