-- ==== Sys2Proof/Machine/Sequencer.lean ====
section
/-! DEFINITION. The sequencer (10_state.md R30) for a command during which the host acts: the same
bodies as `exec`, one chunk, one iteration or one part at a time. R30 lets a model take either
step; `exec` takes the whole command. Log 10 (DESIGN CHOICE, unsafe). -/

namespace Sys2Proof.Machine

/-- The parts of a command, in order (R30, R177). -/
def phasesOf : Instr → List Phase
  | .nop => [.single]
  | .cfgcommit => [.single]
  | .absorb _ => [.absorb]
  | .keygen _ _ => [.single]
  | .ldx _ => [.single]
  | .round8 _ _ => [.single]
  | .xork8 _ _ => [.single]
  | .stx _ => [.single]
  | .explode _ => [.explode]
  | .implode _ => [.implode]
  | .mixinit _ => [.single]
  | .mixstep _ => [.single]
  | .mix _ => [.mix]
  | .final _ => [.final]
  | .hash _ => [.absorb, .explode, .mix, .implode, .final]
  | .reset => [.single]

/-- The body of a command that has no parts; a command with parts has none of these. -/
def singleBody : Instr → State → Ending
  | .nop, s => nopBody s
  | .cfgcommit, s => cfgcommitBody s
  | .absorb _, s => .completed s
  | .keygen sel src, s => keygenBody sel src s
  | .ldx sel, s => ldxBody sel s
  | .round8 sel ksel, s => round8Body sel ksel s
  | .xork8 sel ksel, s => xork8Body sel ksel s
  | .stx sel, s => stxBody sel s
  | .explode _, s => .completed s
  | .implode _, s => .completed s
  | .mixinit sel, s => mixinitBody sel s
  | .mixstep sel, s => mixstepBody sel s
  | .mix _, s => .completed s
  | .final _, s => .completed s
  | .hash _, s => .completed s
  | .reset, s => resetBody s

/-- The absorb part of a command: HASH clears DV of its lanes at its start (R28). -/
def absorbPart (i : Instr) (sel : LaneSel) (s : State) : Ending :=
  match i with
  | .hash _ => hashAbsorb sel s
  | _ => absorbBody sel s

/-- The part that follows another in a list of parts. -/
def phaseAfter (p : Phase) : List Phase → Option Phase
  | [] => none
  | q :: rest => if q = p then rest.head? else phaseAfter p rest

/-- After a part: the next part from its start, or the end of the command (R30, R75). -/
def endPart (q : Sequencer) (e : Ending) : State :=
  match e with
  | .stopped s => (Ending.stopped s).close
  | .completed s =>
    match phaseAfter q.phase (phasesOf q.instr) with
    | some p => { s with seq := some ⟨q.instr, p, 0#64, 0#64⟩ }
    | none => (Ending.completed s).close

/-- One chunk of EXPLODE's loop (R135), with its start before chunk 0. -/
def explodeUnit (q : Sequencer) (sel : LaneSel) (s : State) : State :=
  let step := fun ln =>
    explodeChunk s.build.roundSeq s.hwPath q.chunk.toNat
      (if q.chunk = 0#64 then explodeStart s.hwPath ln else ln)
  let t := s.onLanes sel step
  if q.chunk.toNat + 1 < s.chunks then
    { t with seq := some { q with chunk := q.chunk + 1#64 } }
  else endPart q (.completed t)

/-- One chunk of IMPLODE's loop (R143), with its start before chunk 0 and its stores after the last
chunk. -/
def implodeUnit (q : Sequencer) (sel : LaneSel) (s : State) : State :=
  let step := fun ln =>
    implodeChunk s.build.roundSeq s.hwPath q.chunk.toNat
      (if q.chunk = 0#64 then implodeStart s.hwPath ln else ln)
  let t := s.onLanes sel step
  if q.chunk.toNat + 1 < s.chunks then
    { t with seq := some { q with chunk := q.chunk + 1#64 } }
  else endPart q (.completed (t.onLanes sel stxLane))

/-- One iteration of MIX's loop (R157), with MIXINIT before iteration 0. -/
def mixUnit (q : Sequencer) (sel : LaneSel) (s : State) : State :=
  let t := if q.iter = 0#64 then s.onLanes sel mixinitLane else s
  if q.iter.toNat < s.iterations then
    let u := t.onLanes sel (mixstepLane s.hwPath s.cfgMask)
    if q.iter.toNat + 1 < s.iterations then
      { u with seq := some { q with iter := q.iter + 1#64 } }
    else endPart q (.completed u)
  else endPart q (.completed t)

/-- The lane operand the parts work on; a command without one has only a `single` part. -/
def sequencerLanes (i : Instr) : LaneSel :=
  match i.lanes with
  | some sel => sel
  | none => .one .l0

/-- One unit of a running command. -/
def runUnit (q : Sequencer) (s : State) : State :=
  match q.phase with
  | .single => endPart q (singleBody q.instr s)
  | .absorb => endPart q (absorbPart q.instr (sequencerLanes q.instr) s)
  | .explode => explodeUnit q (sequencerLanes q.instr) s
  | .mix => mixUnit q (sequencerLanes q.instr) s
  | .implode => implodeUnit q (sequencerLanes q.instr) s
  | .final => endPart q (finalBody (sequencerLanes q.instr) s)

/-- The sequencer advances by one unit (R30); dead, it does nothing. -/
def State.unit (s : State) : Host.Outcome State Fault Refusal :=
  match s.seq with
  | none => .next s
  | some q =>
    if addressesScratchpad q.instr && !s.cfgConsistent then .fault .outsideSpace
    else .next (runUnit q s)

/-- Start the sequencer on a command: BUSY is set (R75). -/
def State.startSequencer (s : State) (i : Instr) : State :=
  { s with seq := some ⟨i, (phasesOf i).headD .single, 0#64, 0#64⟩ }

/-- A decoded command written to CMD when the host does not wait for its end: the tests of R75, then
BUSY. The check of CFGCOMMIT is made in this step too, so that BUSY stays 0 where it fails (R192,
R193) although the command is accepted (R75, R201): log 21 (DEDUCED, unsafe). -/
def State.beginCommand (s : State) (i : Instr) : Host.Outcome State Fault Refusal :=
  s.issue i fun t => if t.commitFails i then t.raise .cfgerr else t.startSequencer i

end Sys2Proof.Machine
end

