-- ==== Sys2Proof/Machine/HostPort.lean ====
section
/-! DEFINITION. The host port (10_state.md R31 to R38; 60_exceptions.md R199): register and window
accesses, the write to CMD, and the next host action. -/

namespace Sys2Proof.Machine

/-- The registers of the port (R31). -/
inductive Reg where
  | cmd
  | status
  | cfgIter
  | cfgMem
  | cfgMask
  | cfgCtl
  | msgLen
  | sel (l : LaneId)
  | k (l : LaneId) (i : Fin 10)
  | x (l : LaneId) (i : Fin 8)
  | idx (l : LaneId)
  | al (l : LaneId)
  | ah (l : LaneId)
  | bx (l : LaneId)
  deriving DecidableEq, Repr

/-- The registers of one lane's block of numbers (R31), from their place in it: K at 0x00, X at
0x10, IDX, AL, AH, BX at 0x20 to 0x23. -/
def laneReg (l : LaneId) (n : Nat) : Option Reg :=
  if h : n < 10 then some (.k l ⟨n, h⟩)
  else if h : 0x10 ≤ n ∧ n < 0x18 then some (.x l ⟨n - 0x10, by omega⟩)
  else if n = 0x20 then some (.idx l)
  else if n = 0x21 then some (.al l)
  else if n = 0x22 then some (.ah l)
  else if n = 0x23 then some (.bx l)
  else none

/-- The register of a number (R31); none where the number is reserved. -/
def regOfNumber (n : Nat) : Option Reg :=
  if n = 0x00 then some .cmd
  else if n = 0x01 then some .status
  else if n = 0x02 then some .cfgIter
  else if n = 0x03 then some .cfgMem
  else if n = 0x04 then some .cfgMask
  else if n = 0x05 then some .cfgCtl
  else if n = 0x06 then some .msgLen
  else if n = 0x08 then some (.sel .l0)
  else if n = 0x09 then some (.sel .l1)
  else if 0x40 ≤ n ∧ n < 0x80 then laneReg .l0 (n - 0x40)
  else if 0x80 ≤ n ∧ n < 0xC0 then laneReg .l1 (n - 0x80)
  else none

/-- The lane a register belongs to. -/
def regLane : Reg → Option LaneId
  | .cmd => none
  | .status => none
  | .cfgIter => none
  | .cfgMem => none
  | .cfgMask => none
  | .cfgCtl => none
  | .msgLen => none
  | .sel l => some l
  | .k l _ => some l
  | .x l _ => some l
  | .idx l => some l
  | .al l => some l
  | .ah l => some l
  | .bx l => some l

/-- The lane a window belongs to. -/
def windowLane : Window → Option LaneId
  | .msg => none
  | .hs l => some l
  | .sp l => some l
  | .dig l => some l

/-- Lane 1's registers and windows exist only when NLANES = 2 (R31). -/
def State.hasLane (s : State) : Option LaneId → Bool
  | none => true
  | some .l0 => true
  | some .l1 => s.build.nlanes == .dual

/-- The register a number names on this block (R31). -/
def State.regAt (s : State) (n : Nat) : Option Reg :=
  match regOfNumber n with
  | some r => if s.hasLane (regLane r) then some r else none
  | none => none

/-- The size of a window in bytes (R31). -/
def State.windowSize (s : State) : Window → Nat
  | .msg => 2 * s.build.msgmax
  | .hs _ => 200
  | .sp _ => s.build.spmax
  | .dig _ => 32

/-- The bytes of a window. -/
def State.windowMem (s : State) : Window → Memory
  | .msg => s.msg
  | .hs l => (s.lane l).hs
  | .sp l => (s.lane l).sp
  | .dig l => (s.lane l).dig

/-- The window exists on this block and holds bytes offset .. offset + count - 1 (R199). Log 13 (DEDUCED, unsafe). -/
def State.inWindow (s : State) (w : Window) (offset count : Nat) : Bool :=
  s.hasLane (windowLane w) && offset + count ≤ s.windowSize w

/-- An access that is not allowed sets ACCERR and has no other effect (R199). -/
def State.refuseWrite (s : State) : State := s.setFault .accerr

/-- A read that is not allowed sets ACCERR and returns no defined value (R199, U4): a free one. -/
def State.refuseRegRead (s : State) : State :=
  { (s.setFault .accerr).drawn with
    reply := .register (Config.freeValue s.freeCount .reply) }

/-- The same for a window read. -/
def State.refuseWindowRead (s : State) (count : Nat) : State :=
  { (s.setFault .accerr).drawn with
    reply := .window (freeBytes s.freeCount Slot.replyByte count) }

/-- Answer a register read (R31). -/
def State.answer (s : State) (v : Block) : State := { s with reply := .register v }

/-- Answer the read of a register whose valid bit says whether it holds a value (R31, U3): `width`
free bits where it is clear. -/
def State.answerIf (s : State) (valid : Bool) (width : Nat) (v : Block) : State :=
  if valid then s.answer v
  else s.drawn.answer (((Config.freeValue s.freeCount .reply).setWidth width).setWidth 128)

/-- A register read that finds the block idle (R31). CMD has no readable value (R32): log 12 (DEDUCED,
unsafe). SEL while DV is clear: bits 1:0 are free and bits 31:2 read 0, log 22 (DEDUCED, unsafe). -/
def State.readRegIdle (s : State) : Reg → State
  | .cmd => s.refuseRegRead
  | .status => s.answer (s.statusWord.setWidth 128)
  | .cfgIter => s.answer (s.cfgIter.setWidth 128)
  | .cfgMem => s.answer (s.cfgMem.setWidth 128)
  | .cfgMask => s.answer (s.cfgMask.setWidth 128)
  | .cfgCtl => s.answer (s.cfgCtl.setWidth 128)
  | .msgLen => s.answer (s.msgLen.setWidth 128)
  | .sel l => s.answerIf (s.lane l).dv 2 ((s.lane l).sel.setWidth 128)
  | .k l i => s.answerIf (s.lane l).kv 128 (s.lane l).k[i]
  | .x l i => s.answerIf (s.lane l).xv 128 (s.lane l).x[i]
  | .idx l => s.answerIf (s.lane l).mv 64 ((s.lane l).idx.setWidth 128)
  | .al l => s.answerIf (s.lane l).mv 64 ((s.lane l).al.setWidth 128)
  | .ah l => s.answerIf (s.lane l).mv 64 ((s.lane l).ah.setWidth 128)
  | .bx l => s.answerIf (s.lane l).mv 128 (s.lane l).bx

/-- A register read (R31, R63): only STATUS while BUSY. -/
def State.readReg (s : State) (n : Nat) : State :=
  match s.regAt n with
  | none => s.refuseRegRead
  | some .status => s.answer (s.statusWord.setWidth 128)
  | some r => if s.busy then s.refuseRegRead else s.readRegIdle r

/-- A register write, but for CMD, that finds the block idle (R31): any write to a CFG register
clears CFGOK (R214); a read-only register refuses. 32-bit registers take the low 32 bits: log 11 (DESIGN CHOICE, unsafe). -/
def State.writeRegIdle (s : State) (v : Word) : Reg → State
  | .cmd => s
  | .status => s.refuseWrite
  | .cfgIter => { s with cfgIter := v, cfgok := false }
  | .cfgMem => { s with cfgMem := v, cfgok := false }
  | .cfgMask => { s with cfgMask := v, cfgok := false }
  | .cfgCtl => { s with cfgCtl := v.setWidth 32, cfgok := false }
  | .msgLen => { s with msgLen := v }
  | .sel _ => s.refuseWrite
  | .k _ _ => s.refuseWrite
  | .x _ _ => s.refuseWrite
  | .idx _ => s.refuseWrite
  | .al _ => s.refuseWrite
  | .ah _ => s.refuseWrite
  | .bx _ => s.refuseWrite

/-- A word written to CMD (R32, R75). `waits` says whether the host waits for the command's end. -/
def State.writeCmd (s : State) (waits : Bool) (w : Dword) : Host.Outcome State Fault Refusal :=
  match decodeWord w with
  | .ok i => if waits then exec i s else s.beginCommand i
  | .error _ => .next s.issueIllegal

/-- A register write (R31, R63): any but CMD is refused while BUSY, CMD refuses by itself (R75). -/
def State.writeReg (s : State) (waits : Bool) (n : Nat) (v : Word) :
    Host.Outcome State Fault Refusal :=
  match s.regAt n with
  | none => .next s.refuseWrite
  | some .cmd => s.writeCmd waits (v.setWidth 32)
  | some r => if s.busy then .next s.refuseWrite else .next (s.writeRegIdle v r)

/-- A window read (R31, R63, U3): DIG while DV is clear returns no defined value. -/
def State.readWindow (s : State) (w : Window) (offset count : Nat) : State :=
  if s.busy || !s.inWindow w offset count then s.refuseWindowRead count
  else
    match w with
    | .dig l =>
      if (s.lane l).dv then { s with reply := .window ((s.lane l).dig.readBytes offset count) }
      else { s.drawn with reply := .window (freeBytes s.freeCount Slot.replyByte count) }
    | .msg => { s with reply := .window (s.msg.readBytes offset count) }
    | .hs l => { s with reply := .window ((s.lane l).hs.readBytes offset count) }
    | .sp l => { s with reply := .window ((s.lane l).sp.readBytes offset count) }

/-- A window write (R31, R63): DIG is read-only. -/
def State.writeWindow (s : State) (w : Window) (offset : Nat) (data : List Byte) : State :=
  if s.busy || !s.inWindow w offset data.length then s.refuseWrite
  else
    match w with
    | .dig _ => s.refuseWrite
    | .msg => { s with msg := s.msg.writeBytes offset data }
    | .hs l => s.setLane l { s.lane l with hs := (s.lane l).hs.writeBytes offset data }
    | .sp l => s.setLane l { s.lane l with sp := (s.lane l).sp.writeBytes offset data }

/-- One host action (R31, R58, R210). -/
def State.hostAct (s : State) (waits : Bool) : HostAction → Host.Outcome State Fault Refusal
  | .readReg n => .next (s.readReg n)
  | .writeReg n v => s.writeReg waits n v
  | .readWindow w offset count => .next (s.readWindow w offset count)
  | .writeWindow w offset data => .next (s.writeWindow w offset data)
  | .resetInput image => .next (s.resetInput image)

/-- Does the host wait for BUSY = 0 before its next action? With nothing queued it does. Log 10 (DESIGN CHOICE, unsafe). -/
def hostWaits : List HostItem → Bool
  | [] => true
  | ⟨.whenIdle, _⟩ :: _ => true
  | ⟨.afterUnits _, _⟩ :: _ => false

/-- A step of an idle block: the host's next action; with nothing queued it stays as it is (R210). -/
def State.stepIdle (s : State) : Host.Outcome State Fault Refusal :=
  match s.host with
  | [] => .next s
  | item :: rest => { s with host := rest }.hostAct (hostWaits rest) item.action

/-- A step of a block that is BUSY: a host action whose moment has come, else one unit (R63). -/
def State.stepBusy (s : State) : Host.Outcome State Fault Refusal :=
  match s.host with
  | [] => s.unit
  | ⟨.whenIdle, _⟩ :: _ => s.unit
  | ⟨.afterUnits 0, a⟩ :: rest => { s with host := rest }.hostAct (hostWaits rest) a
  | ⟨.afterUnits (n + 1), a⟩ :: rest => { s with host := ⟨.afterUnits n, a⟩ :: rest }.unit

/-- One step of the block. -/
def State.stepOnce (s : State) : Host.Outcome State Fault Refusal :=
  if s.busy then s.stepBusy else s.stepIdle

/-- The host is about to write this word to CMD, finds the block idle, and waits for the end. -/
def State.placeCommand (s : State) (w : Dword) : State :=
  { s with host := [⟨.whenIdle, .writeReg 0x00 (w.setWidth 64)⟩], seq := none }

end Sys2Proof.Machine
end

