-- ==== Sys2Proof/Machine/Step.lean ====
section
/-! DEFINITION. The step of the machine, and how a command word is placed where the next step takes
its command from: the host's write to CMD (10_state.md R32). -/

namespace Sys2Proof.Machine

/-- One step: a host action, with the command it issues if it is a write to CMD, or one unit of a
running command (R30, R32, R63). -/
def step (s : State) : Host.Outcome State Fault Refusal := s.stepOnce

/-- The state in which the next step issues the command word `w` (log 9, DESIGN CHOICE, safe). -/
def State.withFetchWord (s : State) (nbits w : Nat) : State :=
  s.placeCommand (BitVec.ofNat 32 (w % 2 ^ nbits))

end Sys2Proof.Machine
end

