-- ==== Sys2Proof/Safety.lean ====
section
/-! DEFINITION. What claims about CN-CORE are stated in: when a command runs normally, issuing
commands one after another, the invariant of the machine, and the closed forms of the rules that
the loops are measured against. -/

namespace Sys2Proof.Machine

/-! ### Issuing commands -/

/-- The command runs normally (R75, "otherwise"): the block is idle and not faulted, the command is
legal on it, its needs hold, its message fits, and (which every run guarantees, `State.Inv`) a
scratchpad command finds a consistent tuple. -/
abbrev Ready (s : State) (i : Instr) : Prop :=
  s.seq = none ∧ s.faulted = false ∧ s.legal i = true ∧ s.needsMet i = true
    ∧ s.messageFits i = true ∧ (addressesScratchpad i = true → s.cfgConsistent = true)

/-- What a command runs, in one piece, when it is accepted (R75). -/
def bodyOf : Instr → State → Ending
  | .nop, s => nopBody s
  | .cfgcommit, s => cfgcommitBody s
  | .absorb sel, s => absorbBody sel s
  | .keygen sel src, s => keygenBody sel src s
  | .ldx sel, s => ldxBody sel s
  | .round8 sel ksel, s => round8Body sel ksel s
  | .xork8 sel ksel, s => xork8Body sel ksel s
  | .stx sel, s => stxBody sel s
  | .explode sel, s => explodeBody sel s
  | .implode sel, s => implodeBody sel s
  | .mixinit sel, s => mixinitBody sel s
  | .mixstep sel, s => mixstepBody sel s
  | .mix sel, s => mixBody sel s
  | .final sel, s => finalBody sel s
  | .hash sel, s => hashBody sel s
  | .reset, s => resetBody s

/-- Commands issued one after another, the host waiting for each (R75). -/
def execAll : List Instr → State → Host.Outcome State Fault Refusal
  | [], s => .next s
  | i :: is, s =>
    match exec i s with
    | .next t => execAll is t
    | .fault f => .fault f
    | .refused r => .refused r

/-- The same command on other lanes (R71). -/
def withLanes (sel : LaneSel) : Instr → Instr
  | .nop => .nop
  | .cfgcommit => .cfgcommit
  | .absorb _ => .absorb sel
  | .keygen _ src => .keygen sel src
  | .ldx _ => .ldx sel
  | .round8 _ ksel => .round8 sel ksel
  | .xork8 _ ksel => .xork8 sel ksel
  | .stx _ => .stx sel
  | .explode _ => .explode sel
  | .implode _ => .implode sel
  | .mixinit _ => .mixinit sel
  | .mixstep _ => .mixstep sel
  | .mix _ => .mix sel
  | .final _ => .final sel
  | .hash _ => .hash sel
  | .reset => .reset

/-- The commands that call an external collaborator (R191: EXTERR). -/
def callsCollaborator : Instr → Bool
  | .nop => false
  | .cfgcommit => false
  | .absorb _ => true
  | .keygen _ _ => false
  | .ldx _ => false
  | .round8 _ _ => false
  | .xork8 _ _ => false
  | .stx _ => false
  | .explode _ => false
  | .implode _ => false
  | .mixinit _ => false
  | .mixstep _ => false
  | .mix _ => false
  | .final _ => true
  | .hash _ => true
  | .reset => false

/-- The next `n` collaborator calls return (R198). -/
def State.callsReturn (s : State) (n : Nat) : Prop := ∀ b ∈ s.extFails.take n, b = false

/-- HS, DIG and SEL of a lane are the free values of a draw, which nothing constrains (R198, U5; log 4,
DESIGN CHOICE, safe). -/
def Lane.lost (ln : Lane) (l : LaneId) (draw : Nat) : Prop :=
  (∀ j, j < 200 → ln.hs.read j = (Config.freeValue draw (.hsByte l j)).setWidth 8)
    ∧ (∀ j, j < 32 → ln.dig.read j = (Config.freeValue draw (.digByte l j)).setWidth 8)
    ∧ ln.sel = (Config.freeValue draw (.sel l)).setWidth 2

/-- Apply a function to the state a step answers, if it answers one. -/
def mapNext (f : State → State) :
    Host.Outcome State Fault Refusal → Host.Outcome State Fault Refusal
  | .next s => .next (f s)
  | .fault r => .fault r
  | .refused r => .refused r

/-- `n` units of the sequencer (R30), or until it stops with a fault. -/
def runUnits : Nat → State → Host.Outcome State Fault Refusal
  | 0, s => .next s
  | n + 1, s =>
    match s.unit with
    | .next t => runUnits n t
    | .fault f => .fault f
    | .refused r => .refused r

/-- A refused access of the host while a command runs (R199, R213): ACCERR is set, and nothing else
changes but what the host sees and will do, and the count of free values. -/
def RefusedAccess (s t : State) : Prop :=
  t = { s with accerr := true, host := t.host, reply := t.reply, freeCount := t.freeCount }

/-- A running command's units and the host's refused accesses, in any order and number (R30, R63). -/
inductive RunsAmidAccesses (s : State) : State → Prop where
  | here : RunsAmidAccesses s s
  | unit {t u : State} :
      RunsAmidAccesses s t → t.seq ≠ none → t.unit = .next u → RunsAmidAccesses s u
  | access {t u : State} :
      RunsAmidAccesses s t → t.seq ≠ none → RefusedAccess t u → RunsAmidAccesses s u

/-- How many collaborator calls a unit of this part makes, if none fails (R174, R176; log 3, DESIGN
CHOICE, safe). -/
def callsOfUnit (sel : LaneSel) : Phase → Nat
  | .absorb => (selList sel).length
  | .final => 2 * (selList sel).length
  | .single | .explode | .mix | .implode => 0

/-! ### The rules' own lists -/

/-- The legal ARG values of an opcode (R72). -/
def argLegal (op arg : Nat) : Prop :=
  if op = 0x03 then arg ≤ 1
  else if op = 0x05 then arg ≤ 9 ∨ arg = 15
  else if op = 0x06 then arg ≤ 9
  else arg = 0

/-- An illegal command word (R74), condition by condition as the rule lists them. -/
def illegalWord (n : NLanes) (w : Dword) : Prop :=
  (0x0F ≤ (w &&& 0x1F#32).toNat ∧ (w &&& 0x1F#32).toNat ≤ 0x1E)
    ∨ w.getLsbD 7 = true
    ∨ (∃ k, 12 ≤ k ∧ k ≤ 31 ∧ w.getLsbD k = true)
    ∨ (((w &&& 0x1F#32).toNat = 0x00 ∨ (w &&& 0x1F#32).toNat = 0x01
        ∨ (w &&& 0x1F#32).toNat = 0x1F) ∧ (w.getLsbD 5 = true ∨ w.getLsbD 6 = true))
    ∨ (w.getLsbD 6 = true ∧ w.getLsbD 5 = true)
    ∨ (n = .single ∧ (w.getLsbD 5 = true ∨ w.getLsbD 6 = true))
    ∨ ¬ argLegal (w &&& 0x1F#32).toNat ((w >>> 8) &&& 0xF#32).toNat

/-- A lane of the operand whose valid bit is clear. -/
def someLane (s : State) (sel : LaneSel) (clear : Lane → Prop) : Prop :=
  ∃ l, selHas sel l = true ∧ clear (s.lane l)

/-- The conditions of SEQERR, command by command (R197). -/
def seqNeedFails (s : State) : Instr → Prop
  | .nop => False
  | .cfgcommit => False
  | .absorb _ => False
  | .keygen _ _ => s.cfgok = false
  | .ldx _ => False
  | .round8 sel ksel =>
    s.cfgok = false ∨ someLane s sel (fun ln => ln.xv = false)
      ∨ (ksel ≠ 15#4 ∧ someLane s sel (fun ln => ln.kv = false))
  | .xork8 sel _ =>
    someLane s sel (fun ln => ln.xv = false) ∨ someLane s sel (fun ln => ln.kv = false)
  | .stx sel => someLane s sel (fun ln => ln.xv = false)
  | .explode _ => s.cfgok = false
  | .implode _ => s.cfgok = false
  | .mixinit _ => False
  | .mixstep sel => s.cfgok = false ∨ someLane s sel (fun ln => ln.mv = false)
  | .mix _ => s.cfgok = false
  | .final _ => False
  | .hash _ => s.cfgok = false
  | .reset => False

/-- The register numbers R31 lists. -/
def listedNumber (n : Nat) : Prop :=
  n ≤ 0x06 ∨ n = 0x08 ∨ n = 0x09
    ∨ (0x40 ≤ n ∧ n ≤ 0x49) ∨ (0x50 ≤ n ∧ n ≤ 0x57) ∨ (0x60 ≤ n ∧ n ≤ 0x63)
    ∨ (0x80 ≤ n ∧ n ≤ 0x89) ∨ (0x90 ≤ n ∧ n ≤ 0x97) ∨ (0xA0 ≤ n ∧ n ≤ 0xA3)

/-- The register numbers of lane 1 (R31). -/
def lane1Number (n : Nat) : Prop := n = 0x09 ∨ 0x80 ≤ n

/-- The register numbers the host may write (R31): CMD, the configuration registers, MSGLEN. -/
def writableNumber (n : Nat) : Prop := n = 0x00 ∨ (0x02 ≤ n ∧ n ≤ 0x06)

/-- A register number that is reserved on this block (R31). -/
def reservedNumber (s : State) (n : Nat) : Prop :=
  ¬ listedNumber n ∨ (s.build.nlanes = .single ∧ lane1Number n)

/-- A range of a window that is not there (R199): past its end, or lane 1's when NLANES = 1. -/
def outsideWindow (s : State) (w : Window) (offset count : Nat) : Prop :=
  s.windowSize w < offset + count ∨ (s.build.nlanes = .single ∧ windowLane w = some .l1)

/-- The accesses of an idle block that R199 does not allow; CMD cannot be read (log 12, DEDUCED, unsafe). -/
def forbiddenAccess (s : State) : HostAction → Prop
  | .readReg n => reservedNumber s n ∨ n = 0x00
  | .writeReg n _ => reservedNumber s n ∨ ¬ writableNumber n
  | .readWindow w offset count => outsideWindow s w offset count
  | .writeWindow w offset data =>
    outsideWindow s w offset data.length ∨ ∃ l, w = .dig l
  | .resetInput _ => False

/-- The commands that write HS (R20). -/
def writesHs : Instr → Bool
  | .absorb _ | .stx _ | .implode _ | .final _ | .hash _ => true
  | .nop | .cfgcommit | .keygen _ _ | .ldx _ | .round8 _ _ | .xork8 _ _ | .explode _ => false
  | .mixinit _ | .mixstep _ | .mix _ | .reset => false

/-- The commands that write SP (R21). -/
def writesSp : Instr → Bool
  | .explode _ | .mixstep _ | .mix _ | .hash _ => true
  | .nop | .cfgcommit | .absorb _ | .keygen _ _ | .ldx _ | .round8 _ _ | .xork8 _ _ => false
  | .stx _ | .implode _ | .mixinit _ | .final _ | .reset => false

/-- The commands that write K (R24), and RESET, which leaves it unspecified (R40). -/
def writesK : Instr → Bool
  | .keygen _ _ | .explode _ | .implode _ | .hash _ | .reset => true
  | .nop | .cfgcommit | .absorb _ | .ldx _ | .round8 _ _ | .xork8 _ _ | .stx _ => false
  | .mixinit _ | .mixstep _ | .mix _ | .final _ => false

/-- The commands that write X (R25), and RESET (R40). -/
def writesX : Instr → Bool
  | .ldx _ | .round8 _ _ | .xork8 _ _ | .explode _ | .implode _ | .hash _ | .reset => true
  | .nop | .cfgcommit | .absorb _ | .keygen _ _ | .stx _ => false
  | .mixinit _ | .mixstep _ | .mix _ | .final _ => false

/-- The commands that write the mixing registers (R26), and RESET (R40). -/
def writesMixing : Instr → Bool
  | .mixinit _ | .mixstep _ | .mix _ | .hash _ | .reset => true
  | .nop | .cfgcommit | .absorb _ | .keygen _ _ | .ldx _ | .round8 _ _ | .xork8 _ _ => false
  | .stx _ | .explode _ | .implode _ | .final _ => false

/-- The commands that write DIG and SEL (R23, R29), those whose failed collaborator call leaves
them unspecified (R198), and RESET (R40). -/
def writesDigest : Instr → Bool
  | .absorb _ | .final _ | .hash _ | .reset => true
  | .nop | .cfgcommit | .keygen _ _ | .ldx _ | .round8 _ _ | .xork8 _ _ | .stx _ => false
  | .explode _ | .implode _ | .mixinit _ | .mixstep _ | .mix _ => false

/-! ### The invariant -/

/-- SPMAX is a power of two, at least 128 (R6). -/
def Build.wf (b : Build) : Bool := isPowerOfTwo b.spmax && 128 ≤ b.spmax

/-- A lane's memories are canonical and lie in their spaces (R20, R21, R23). -/
def Lane.memoriesWf (b : Build) (ln : Lane) : Bool :=
  ln.hs.wf && ln.hs.within 200 && ln.sp.wf && ln.sp.within b.spmax
    && ln.dig.wf && ln.dig.within 32

/-- Every memory is canonical and lies in its space (R20 to R23). -/
def State.memoriesWf (s : State) : Bool :=
  s.lane0.memoriesWf s.build && s.lane1.memoriesWf s.build
    && s.msg.wf && s.msg.within (2 * s.build.msgmax)

/-- CFGOK says that the tuple is consistent (R38, R39). -/
def State.configSound (s : State) : Bool := !s.cfgok || s.cfgConsistent

/-- With NLANES = 1 no valid bit of lane 1 is set (R38). -/
def State.absentLaneClear (s : State) : Bool :=
  s.build.nlanes == .dual || s.lane1.validBits == 0#4

/-- How many of the fault bits 3 to 6 are set: R193 lets at most one be. -/
def State.commandFaults (s : State) : Nat :=
  s.cfgerr.toNat + s.cmderr.toNat + s.seqerr.toNat + s.exterr.toNat

/-- CHUNK and ITER are within their bounds (R30). -/
def State.countersInRange (s : State) (q : Sequencer) : Bool :=
  match q.phase with
  | .single => true
  | .absorb => true
  | .explode => q.chunk.toNat < s.chunks
  | .mix => q.iter.toNat < s.iterations || q.iter.toNat == 0
  | .implode => q.chunk.toNat < s.chunks
  | .final => true

/-- What is so while a command runs (R30, R38, R75): DONE is clear, no fault bit but ACCERR is set
(RESET may be running out of the faulted state), the command is legal and has CFGOK if it needs it,
a CFGCOMMIT is one whose check passes (R192; log 21, DEDUCED, unsafe), it is in one of its parts, and
its counters are in range. -/
def State.sequencerSound (s : State) : Bool :=
  match s.seq with
  | none => true
  | some q =>
    !s.done && (s.commandFaults == 0 || decide (q.instr = .reset)) && s.legal q.instr
      && (!(needs q.instr).cfgok || s.cfgok) && !s.commitFails q.instr
      && (phasesOf q.instr).contains q.phase && s.countersInRange q

/-- The invariant of the machine. -/
def State.inv (s : State) : Bool :=
  s.build.wf && s.memoriesWf && s.configSound && s.absentLaneClear
    && decide (s.commandFaults ≤ 1) && s.sequencerSound

/-- The invariant of the machine, as a proposition. -/
abbrev Inv (s : State) : Prop := s.inv = true

/-! ### Closed forms -/

/-- Apply a function `n` times (R136). -/
def times {α : Type} (f : α → α) : Nat → α → α
  | 0, a => a
  | n + 1, a => f (times f n a)

/-- Multiplication in the field of R112, modulo 0x11b: `a` times the low bits of `b`, one bit a
step. -/
def gfMul : Nat → Byte → Byte → Byte
  | 0, _, _ => 0#8
  | n + 1, a, b => (if b.getLsbD 0 then a else 0#8) ^^^ gfMul n (xtime a) (b >>> 1)

/-- The affine map of the S-box (R111). -/
def sboxAffine (b : Byte) : Byte :=
  b ^^^ b.rotateLeft 1 ^^^ b.rotateLeft 2 ^^^ b.rotateLeft 3 ^^^ b.rotateLeft 4 ^^^ 0x63#8

/-- R144: acc_0 = a, acc_{c+1} = E(acc_c ^ s_c). -/
def foldCells (e : Block → Block) (cells : Nat → Block) (a : Block) : Nat → Block
  | 0 => a
  | c + 1 => e (foldCells e cells a c ^^^ cells c)

end Sys2Proof.Machine
end

