-- ==== Sys2Proof/Certificates/Slice0/Obligations.lean ====
section
/-! DEFINITION. The statements about CN-CORE for the provers, from the numbered rules of spec/. -/

open Sys2Proof
open Sys2Proof.Machine

/-! ### Encoding (30_encoding.md) -/

/-- R70 to R73: the word of every well-formed command decodes to that command. -/
def Obligations.EncodeThenDecode : Prop :=
  ∀ i : Instr, WellFormed i → decodeWord (encode i) = .ok i

/-- R70 to R73: a word that decodes is the word of the command it decodes to. -/
def Obligations.DecodeThenEncode : Prop :=
  ∀ (w : Dword) (i : Instr), decodeWord w = .ok i → WellFormed i ∧ encode i = w

/-- R74: a word names a command that is legal on the block exactly when none of the conditions of
the rule holds; an illegal one, written while idle and not faulted, raises CMDERR (with R193's
clearing of DONE) and changes nothing else. -/
def Obligations.IllegalWordsAreThoseOfTheRule : Prop :=
  (∀ (s : State) (w : Dword),
    (¬ ∃ i, decodeWord w = .ok i ∧ s.legal i = true) ↔ illegalWord s.build.nlanes w)
  ∧ ∀ (s : State) (w : Dword) (v : Word) (tm : Timing) (rest : List HostItem),
      s.seq = none → s.faulted = false → s.host = ⟨tm, .writeReg 0x00 v⟩ :: rest →
      v.setWidth 32 = w → illegalWord s.build.nlanes w →
      step s = .next { s with host := rest, cmderr := true, done := false }

/-- R76: words of the assembler table decode to the commands it names (a sanity statement). -/
def Obligations.SampleWordsDecode : Prop :=
  decodeWord 0x00000000#32 = .ok .nop
  ∧ decodeWord 0x00000001#32 = .ok .cfgcommit
  ∧ decodeWord 0x00000103#32 = .ok (.keygen (.one .l0) .implode)
  ∧ decodeWord 0x00000123#32 = .ok (.keygen (.one .l1) .implode)
  ∧ decodeWord 0x00000905#32 = .ok (.round8 (.one .l0) 9#4)
  ∧ decodeWord 0x00000945#32 = .ok (.round8 .both 9#4)
  ∧ decodeWord 0x00000906#32 = .ok (.xork8 (.one .l0) 9#4)
  ∧ decodeWord 0x00000028#32 = .ok (.explode (.one .l1))
  ∧ decodeWord 0x0000004C#32 = .ok (.mix .both)
  ∧ decodeWord 0x0000004E#32 = .ok (.hash .both)
  ∧ decodeWord 0x0000001F#32 = .ok .reset

/-! ### The step and the host port (10_state.md, 20_memory.md, 60_exceptions.md) -/

/-- R32, R75: an idle block whose host writes CMD runs the decoded command on the state with that
host action taken: the whole command where the host waits for its end, else its start (R30). And
`withFetchWord` places a command so. -/
def Obligations.StepRunsTheDecodedCommand : Prop :=
  (∀ (s : State) (tm : Timing) (v : Word) (rest : List HostItem) (i : Instr),
    s.seq = none → s.host = ⟨tm, .writeReg 0x00 v⟩ :: rest →
    decodeWord (v.setWidth 32) = .ok i →
    (hostWaits rest = true → step s = exec i { s with host := rest })
    ∧ (hostWaits rest = false → step s = ({ s with host := rest } : State).beginCommand i))
  ∧ ∀ (s : State) (w : Nat) (i : Instr), decodeTableWord 32 w = some i →
      step (s.withFetchWord 32 w) = exec i { s with host := [], seq := none }

/-- R75: a word written to CMD is decided in the rule's order: BUSY, the faulted state, an illegal word,
a need that fails, the message length, and else the command runs: DONE is cleared, BUSY rises, and at
its end BUSY falls and DONE is set exactly if no fault came. (That a scratchpad command finds a
consistent tuple is a premise; the invariant gives it. That a CFGCOMMIT whose check fails raises
CFGERR in the step that accepts it, so that BUSY is not seen, is the model's reading, log 21.) -/
def Obligations.WritesToCmdAreDecidedInOrder : Prop :=
  ∀ (s : State) (tm : Timing) (v : Word) (rest : List HostItem),
    s.host = ⟨tm, .writeReg 0x00 v⟩ :: rest →
    let w : Dword := v.setWidth 32
    let r : State := { s with host := rest }
    (s.seq ≠ none → tm = .afterUnits 0 → step s = .next { r with accerr := true })
    ∧ (s.seq = none → s.faulted = true →
        (w ≠ 0x0000001F#32 → step s = .next r)
        ∧ (w = 0x0000001F#32 → hostWaits rest = true → step s = .next r.resetRegisters)
        ∧ (w = 0x0000001F#32 → hostWaits rest = false →
            ∃ q, q.instr = .reset ∧ step s = .next { r with done := false, seq := some q }))
    ∧ (s.seq = none → s.faulted = false →
        (illegalWord s.build.nlanes w → step s = .next { r with cmderr := true, done := false })
        ∧ ∀ i, decodeWord w = .ok i → s.legal i = true →
          (seqNeedFails s i → step s = .next { r with seqerr := true, done := false })
          ∧ (¬ seqNeedFails s i → readsMessage i = true → s.build.msgmax < s.msgLen.toNat →
              step s = .next { r with cmderr := true, done := false })
          ∧ (¬ seqNeedFails s i → (readsMessage i = true → s.msgLen.toNat ≤ s.build.msgmax) →
              (addressesScratchpad i = true → s.cfgConsistent = true) →
              (hostWaits rest = true →
                ∃ t, step s = .next t ∧ t = (bodyOf i { r with done := false }).close
                  ∧ t.seq = none ∧ (i ≠ .reset → (t.done = true ↔ t.faulted = false)))
              ∧ (hostWaits rest = false →
                (¬ (i = .cfgcommit ∧ s.cfgConsistent = false) →
                  ∃ q, q.instr = i ∧ step s = .next { r with done := false, seq := some q })
                ∧ (i = .cfgcommit ∧ s.cfgConsistent = false →
                  step s = .next { r with cfgerr := true, done := false }))))

/-- R197: a legal command raises SEQERR exactly when a condition of the rule's list fails. -/
def Obligations.SeqerrExactlyWhenANeedFails : Prop :=
  ∀ (s : State) (i : Instr), s.seq = none → s.faulted = false → s.legal i = true →
    (seqNeedFails s i → exec i s = .next { s with seqerr := true, done := false })
    ∧ (¬ seqNeedFails s i → ∀ t, exec i s = .next t → t.seqerr = false)

/-- R63, R199, R213: while BUSY, STATUS is read, and any other access sets ACCERR and changes
nothing else (a read returns a free value). -/
def Obligations.BusyRefusesAllButStatus : Prop :=
  ∀ (s : State) (q : Sequencer) (a : HostAction) (rest : List HostItem),
    s.seq = some q → s.host = ⟨.afterUnits 0, a⟩ :: rest → (∀ image, a ≠ .resetInput image) →
    (a = .readReg 0x01 →
      step s = .next { s with host := rest, reply := .register (s.statusWord.setWidth 128) })
    ∧ (a ≠ .readReg 0x01 → ∃ t, step s = .next t
        ∧ t = { s with
            host := rest, accerr := true, reply := t.reply, freeCount := t.freeCount })

/-- R199: on an idle block an access that is not allowed sets ACCERR and changes nothing else, and
one that is allowed leaves ACCERR as it was (a write to CMD apart, whose command may be RESET). -/
def Obligations.ForbiddenAccessesSetAccerr : Prop :=
  ∀ (s : State) (tm : Timing) (a : HostAction) (rest : List HostItem),
    s.seq = none → s.host = ⟨tm, a⟩ :: rest →
    (forbiddenAccess s a → ∃ t, step s = .next t
      ∧ t = { s with
          host := rest, accerr := true, reply := t.reply, freeCount := t.freeCount })
    ∧ (¬ forbiddenAccess s a → (∀ v, a ≠ .writeReg 0x00 v) → (∀ image, a ≠ .resetInput image) →
        ∃ t, step s = .next t ∧ t.accerr = s.accerr)

/-- R214: a host write to any CFG register, even of the value already there, stores it and clears
CFGOK, and does nothing else; a write to MSGLEN stores it and keeps CFGOK. -/
def Obligations.ConfigurationWritesUncommit : Prop :=
  ∀ (s : State) (tm : Timing) (v : Word) (rest : List HostItem), s.seq = none →
    (s.host = ⟨tm, .writeReg 0x02 v⟩ :: rest →
      step s = .next { s with host := rest, cfgIter := v, cfgok := false })
    ∧ (s.host = ⟨tm, .writeReg 0x03 v⟩ :: rest →
      step s = .next { s with host := rest, cfgMem := v, cfgok := false })
    ∧ (s.host = ⟨tm, .writeReg 0x04 v⟩ :: rest →
      step s = .next { s with host := rest, cfgMask := v, cfgok := false })
    ∧ (s.host = ⟨tm, .writeReg 0x05 v⟩ :: rest →
      step s = .next { s with host := rest, cfgCtl := v.setWidth 32, cfgok := false })
    ∧ (s.host = ⟨tm, .writeReg 0x06 v⟩ :: rest →
      step s = .next { s with host := rest, msgLen := v })

/-- R53, R57, R60, R63: what the host writes to a window of an idle block, inside it, it reads back, byte
for byte, from every window it may write; and the write stores those bytes and changes nothing
else: no other byte of that memory, no other memory, lane, register or STATUS bit. -/
def Obligations.WindowWriteIsReadBack : Prop :=
  (∀ (s : State) (tm tm' : Timing) (w : Window) (offset : Nat) (data : List Byte)
    (rest : List HostItem),
    s.seq = none → (∀ l, w ≠ .dig l) → ¬ outsideWindow s w offset data.length →
    s.host = ⟨tm, .writeWindow w offset data⟩ :: ⟨tm', .readWindow w offset data.length⟩ :: rest →
    ∃ t u, step s = .next t ∧ step t = .next u ∧ u.reply = .window data ∧ u.host = rest
      ∧ u.accerr = s.accerr)
  ∧ ∀ (s : State) (tm : Timing) (w : Window) (offset : Nat) (data : List Byte)
      (rest : List HostItem),
      s.seq = none → ¬ outsideWindow s w offset data.length →
      s.host = ⟨tm, .writeWindow w offset data⟩ :: rest →
      let stored := fun (m m' : Memory) => ∀ b, m'.read b =
        if offset ≤ b ∧ b < offset + data.length then data.getD (b - offset) 0#8 else m.read b
      (w = .msg → ∃ m, step s = .next { s with host := rest, msg := m } ∧ stored s.msg m)
      ∧ ∀ l,
          (w = .hs l → ∃ m,
            step s = .next (State.setLane { s with host := rest } l { s.lane l with hs := m })
            ∧ stored (s.lane l).hs m)
          ∧ (w = .sp l → ∃ m,
            step s = .next (State.setLane { s with host := rest } l { s.lane l with sp := m })
            ∧ stored (s.lane l).sp m)

/-- R31, R24 to R26, R29, R33 to R37: the read of each register of an idle block, its valid bit set
where it has one, returns the register, zero-extended, and changes nothing else. Where its valid bit
is clear the read is allowed too: it answers some value of the register's width, of which nothing is
said (U3), and changes nothing else but the count of free values (log 4; that bits 31:2 of SEL read 0
then is log 22). -/
def Obligations.RegisterReadsReturnTheRegister : Prop :=
  ∀ (s : State) (tm : Timing) (n : Nat) (rest : List HostItem),
    s.seq = none → s.host = ⟨tm, .readReg n⟩ :: rest →
    let answers := fun (v : Block) => step s = .next { s with host := rest, reply := .register v }
    let answersAny := fun (width : Nat) => ∃ v : Block, v.toNat < 2 ^ width
      ∧ step s = .next { s with
          host := rest, reply := .register v, freeCount := s.freeCount + 1 }
    (n = 0x01 → answers (s.statusWord.setWidth 128))
    ∧ (n = 0x02 → answers (s.cfgIter.setWidth 128))
    ∧ (n = 0x03 → answers (s.cfgMem.setWidth 128))
    ∧ (n = 0x04 → answers (s.cfgMask.setWidth 128))
    ∧ (n = 0x05 → answers (s.cfgCtl.setWidth 128))
    ∧ (n = 0x06 → answers (s.msgLen.setWidth 128))
    ∧ ∀ l : LaneId, (l = .l1 → s.build.nlanes = .dual) →
        (n = 0x08 + laneNumber l → (s.lane l).dv = true →
          answers ((s.lane l).sel.setWidth 128))
        ∧ (∀ i : Fin 10, n = 0x40 + 0x40 * laneNumber l + i.val → (s.lane l).kv = true →
          answers (s.lane l).k[i])
        ∧ (∀ i : Fin 8, n = 0x50 + 0x40 * laneNumber l + i.val → (s.lane l).xv = true →
          answers (s.lane l).x[i])
        ∧ (n = 0x60 + 0x40 * laneNumber l → (s.lane l).mv = true →
          answers ((s.lane l).idx.setWidth 128))
        ∧ (n = 0x61 + 0x40 * laneNumber l → (s.lane l).mv = true →
          answers ((s.lane l).al.setWidth 128))
        ∧ (n = 0x62 + 0x40 * laneNumber l → (s.lane l).mv = true →
          answers ((s.lane l).ah.setWidth 128))
        ∧ (n = 0x63 + 0x40 * laneNumber l → (s.lane l).mv = true → answers (s.lane l).bx)
        ∧ (n = 0x08 + laneNumber l → (s.lane l).dv = false → answersAny 2)
        ∧ (∀ i : Fin 10, n = 0x40 + 0x40 * laneNumber l + i.val → (s.lane l).kv = false →
          answersAny 128)
        ∧ (∀ i : Fin 8, n = 0x50 + 0x40 * laneNumber l + i.val → (s.lane l).xv = false →
          answersAny 128)
        ∧ (∀ i, i < 3 → n = 0x60 + 0x40 * laneNumber l + i → (s.lane l).mv = false →
          answersAny 64)
        ∧ (n = 0x63 + 0x40 * laneNumber l → (s.lane l).mv = false → answersAny 128)

/-- R38: the bits of STATUS. -/
def Obligations.StatusRegisterLayout : Prop :=
  ∀ s : State,
    s.statusWord.getLsbD 0 = s.seq.isSome ∧ s.statusWord.getLsbD 1 = s.done
    ∧ s.statusWord.getLsbD 2 = s.cfgok ∧ s.statusWord.getLsbD 3 = s.cfgerr
    ∧ s.statusWord.getLsbD 4 = s.cmderr ∧ s.statusWord.getLsbD 5 = s.seqerr
    ∧ s.statusWord.getLsbD 6 = s.exterr ∧ s.statusWord.getLsbD 7 = s.accerr
    ∧ s.statusWord.getLsbD 8 = s.lane0.kv ∧ s.statusWord.getLsbD 9 = s.lane0.xv
    ∧ s.statusWord.getLsbD 10 = s.lane0.mv ∧ s.statusWord.getLsbD 11 = s.lane0.dv
    ∧ s.statusWord.getLsbD 12 = (s.lane1.kv && decide (s.build.nlanes = .dual))
    ∧ s.statusWord.getLsbD 13 = (s.lane1.xv && decide (s.build.nlanes = .dual))
    ∧ s.statusWord.getLsbD 14 = (s.lane1.mv && decide (s.build.nlanes = .dual))
    ∧ s.statusWord.getLsbD 15 = (s.lane1.dv && decide (s.build.nlanes = .dual))
    ∧ ∀ k, 16 ≤ k → s.statusWord.getLsbD k = false

/-- R210, R40: the reset input, at any time, leaves STATUS, the configuration registers and MSGLEN
zero and the sequencer dead; HS, SP and MSG hold what it left there, whatever that is. (That
contents outside a space are dropped and unlisted bytes are zero is the model's choice, log 8.) -/
def Obligations.ResetInputFromAnyState : Prop :=
  ∀ (s : State) (image : MemoryImage) (rest : List HostItem),
    s.host = ⟨.afterUnits 0, .resetInput image⟩ :: rest →
    ∃ t, step s = .next t ∧ t.statusWord = 0#32 ∧ t.seq = none
      ∧ t.cfgIter = 0#64 ∧ t.cfgMem = 0#64 ∧ t.cfgMask = 0#64 ∧ t.cfgCtl = 0#32
      ∧ t.msgLen = 0#64 ∧ t.build = s.build ∧ t.host = rest
      ∧ t.lane0.hs = Memory.ofCells 200 image.hs0
      ∧ t.lane1.hs = Memory.ofCells 200 image.hs1
      ∧ t.lane0.sp = Memory.ofCells s.build.spmax image.sp0
      ∧ t.lane1.sp = Memory.ofCells s.build.spmax image.sp1
      ∧ t.msg = Memory.ofCells (2 * s.build.msgmax) image.msg

/-! ### Primitives (40_key_schedule.md, 41_round.md, 20_memory.md) -/

/-- R50: n bytes read from an offset are the sum of byte j times 2^(8j); a 16-byte, 8-byte or 1-byte
store puts byte j of the value at offset a + j and nothing elsewhere. -/
def Obligations.MemoryIsLittleEndian : Prop :=
  ∀ (m : Memory) (a : Nat),
    (∀ n, leValue (m.readBytes a n) = ∑ j ∈ Finset.range n, (m.read (a + j)).toNat * 2 ^ (8 * j))
    ∧ (m.read64 a).toNat = ∑ j ∈ Finset.range 8, (m.read (a + j)).toNat * 2 ^ (8 * j)
    ∧ (m.read128 a).toNat = ∑ j ∈ Finset.range 16, (m.read (a + j)).toNat * 2 ^ (8 * j)
    ∧ (∀ (v : Block) (b : Nat), (m.write128 a v).read b =
      if a ≤ b ∧ b < a + 16 then v.extractLsb' (8 * (b - a)) 8 else m.read b)
    ∧ (∀ (v : Word) (b : Nat), (m.write64 a v).read b =
      if a ≤ b ∧ b < a + 8 then v.extractLsb' (8 * (b - a)) 8 else m.read b)
    ∧ (∀ (v : Byte) (b : Nat), (m.write a v).read b = if b = a then v else m.read b)

/-- R51: one cell read as a block and as two words agrees, and two words stored leave the block of
both, the second in the high half. -/
def Obligations.CellWidthsAgree : Prop :=
  ∀ (m : Memory) (a : Nat),
    m.read64 a = (m.read128 a).extractLsb' 0 64
    ∧ m.read64 (a + 8) = (m.read128 a).extractLsb' 64 64
    ∧ ∀ lo hi : Word, ((m.write64 a lo).write64 (a + 8) hi).read128 a = hi ++ lo

/-- Memory operations keep the canonical form, and equal contents are equal data. -/
def Obligations.CanonicalMemoriesAreEqualWhenTheyReadAlike : Prop :=
  (∀ (m : Memory) (a : Nat) (v : Byte), m.wf = true →
    (m.write a v).wf = true ∧ (m.write a v).write a (m.read a) = m)
  ∧ ∀ m n : Memory, m.wf = true → n.wf = true → (∀ a, m.read a = n.read a) → m = n

/-- R54: under a consistent tuple MASK is MEM - 16 and the offset idx & MASK is 16 times
(idx / 16 mod MEM / 16): a multiple of 16 with its 16 bytes inside [0, MEM), which only bits
log2(MEM) - 1 : 4 of idx reach. -/
def Obligations.MixAddressesAreAlignedAndInRange : Prop :=
  ∀ (s : State) (idx : Word), s.cfgConsistent = true →
    s.cfgMask.toNat = s.cfgMem.toNat - 16
    ∧ mixAddress idx s.cfgMask = (idx &&& s.cfgMask).toNat
    ∧ mixAddress idx s.cfgMask = 16 * (idx.toNat / 16 % (s.cfgMem.toNat / 16))
    ∧ 16 ∣ mixAddress idx s.cfgMask
    ∧ mixAddress idx s.cfgMask + 16 ≤ s.cfgMem.toNat
    ∧ s.cfgMem.toNat ≤ s.build.spmax

/-- R111: every entry of the S-box is the affine map of the inverse of its index in GF(2^8), with
inv(0) = 0. -/
def Obligations.SboxIsTheAffineInverse : Prop :=
  ∀ a : Byte, ∃ b : Byte,
    (a ≠ 0#8 → gfMul 8 a b = 0x01#8) ∧ (a = 0#8 → b = 0#8) ∧ sbox a = sboxAffine b

/-- R120: the table-driven round and the direct one are the same function, so HWPATH selects only
how it is evaluated. -/
def Obligations.RoundPathsAgree : Prop :=
  (∀ x k : Block, roundSW x k = roundHW x k)
  ∧ ∀ (hw hw' : Bool) (x k : Block), cipherRound hw x k = cipherRound hw' x k

/-- R95: the table-driven assist and the direct one are the same function, and the key schedule
gives the same ten keys on both paths. -/
def Obligations.KeySchedulePathsAgree : Prop :=
  (∀ (v : Block) (rcon : Byte), assistSW v rcon = assistHW v rcon)
  ∧ ∀ s0 s1 : Block, keyExpand true s0 s1 = keyExpand false s0 s1

/-- R90, R96: the ten keys: the seed, then step j = 0..3 makes key 2j + 2 from keys 2j and 2j + 1
with dword 3 substituted, rotated and the constant 2^j added, and key 2j + 3 from key 2j + 1 with
dword 3 of key 2j + 2 substituted only. -/
def Obligations.KeyExpandRecurrence : Prop :=
  ∀ (hw : Bool) (s0 s1 : Block),
    (keyExpand hw s0 s1)[0] = s0 ∧ (keyExpand hw s0 s1)[1] = s1
    ∧ ∀ (j : Nat) (h : j < 4),
        (keyExpand hw s0 s1)[2 * j + 2] =
          slxor (keyExpand hw s0 s1)[2 * j] ^^^
            bcast (rotWord (subWord (dwOf (keyExpand hw s0 s1)[2 * j + 1] 3)) ^^^
              BitVec.ofNat 32 (2 ^ j))
        ∧ (keyExpand hw s0 s1)[2 * j + 3] =
          slxor (keyExpand hw s0 s1)[2 * j + 1] ^^^
            bcast (subWord (dwOf (keyExpand hw s0 s1)[2 * j + 2] 3))

/-- R92: slxor as four shifts and in dwords, its example, and the broadcast. -/
def Obligations.SlxorInDwords : Prop :=
  (∀ v : Block,
    slxor v = v ^^^ (v <<< 32) ^^^ (v <<< 64) ^^^ (v <<< 96)
    ∧ dwOf (slxor v) 0 = dwOf v 0
    ∧ dwOf (slxor v) 1 = dwOf v 0 ^^^ dwOf v 1
    ∧ dwOf (slxor v) 2 = dwOf v 0 ^^^ dwOf v 1 ^^^ dwOf v 2
    ∧ dwOf (slxor v) 3 = dwOf v 0 ^^^ dwOf v 1 ^^^ dwOf v 2 ^^^ dwOf v 3)
  ∧ slxor 0x100f0e0d0c0b0a090807060504030201#128 = 0x10000000000f0e0d0c04040404030201#128
  ∧ ∀ (w : Dword) (j : Nat), j < 4 → dwOf (bcast w) j = w

/-- R117 (a) and (d): two keys make a difference of their exclusive-or, and output column c depends
only on four bytes of the input and on dword c of the key. -/
def Obligations.RoundDependsOnOneDiagonal : Prop :=
  ∀ (hw : Bool) (x x' k k' : Block),
    cipherRound hw x k ^^^ cipherRound hw x k' = k ^^^ k'
    ∧ ∀ c, c < 4 → (∀ r, r < 4 → byteOf x (r + 4 * ((c + r) % 4)) = byteOf x' (r + 4 * ((c + r) % 4))) →
        dwOf k c = dwOf k' c → dwOf (cipherRound hw x k) c = dwOf (cipherRound hw x' k') c

/-- R117 (b): a round is a bijection of the block for a fixed key. -/
def Obligations.RoundIsABijection : Prop :=
  ∀ (hw : Bool) (k : Block), Function.Bijective fun x => cipherRound hw x k

/-- R131, R132: UNIFORM10 is ten keyed rounds, keys in order, the same on both paths; LITERAL_ASYM is
that on the software path, and on the hardware path one unkeyed round, the keys 0 to 8, and an
exclusive-or with key 9, which is another function: the rule's own example. -/
def Obligations.RoundSequencesAndTheirDifference : Prop :=
  (∀ (hw : Bool) (x : Block) (k : Vector Block 10),
    roundSeq .uniform10 hw x k = (List.finRange 10).foldl (fun y j => cipherRound hw y k[j]) x
    ∧ roundSeq .uniform10 hw x k = roundSeq .uniform10 (!hw) x k
    ∧ roundSeq .literalAsym false x k = roundSeq .uniform10 false x k
    ∧ roundSeq .literalAsym true x k =
        (List.finRange 9).foldl (fun y j => cipherRound true y k[j.castSucc]) (cipherRound true x 0#128)
          ^^^ k[9])
  ∧ (let k := keyExpand true 0x0f0e0d0c0b0a09080706050403020100#128
        0x1f1e1d1c1b1a19181716151413121110#128
     let x := 0x4f4e4d4c4b4a49484746454443424140#128
     roundSeq .uniform10 true x k = 0x10efd14d59db67e05cfbcdd4511dcb05#128
     ∧ roundSeq .literalAsym true x k = 0xb91b7a7b01e29a0cb3413f17dc9776c1#128)

/-! ### What each command does -/

/-- R179: NOP's only effect is DONE, and OP = 0 with L, D or ARG not zero is no command. -/
def Obligations.NopSetsDoneOnly : Prop :=
  (∀ s : State, s.seq = none → s.faulted = false → exec .nop s = .next { s with done := true })
  ∧ ∀ w : Dword, w &&& 0x1F#32 = 0#32 → w ≠ 0#32 → ∃ e, decodeWord w = .error e

/-- R173, R195: CFGCOMMIT sets CFGOK when MEM is a power of two from 128 to SPMAX, MASK is MEM - 16
and CFG_CTL[31:1] is zero, and else raises CFGERR; it changes nothing else. -/
def Obligations.CfgcommitValidatesTheTuple : Prop :=
  ∀ s : State, s.seq = none → s.faulted = false →
    let ok := (∃ k, s.cfgMem.toNat = 2 ^ k) ∧ 128 ≤ s.cfgMem.toNat
      ∧ s.cfgMem.toNat ≤ s.build.spmax ∧ s.cfgMask.toNat = s.cfgMem.toNat - 16
      ∧ ∀ b, 1 ≤ b → s.cfgCtl.getLsbD b = false
    (ok → exec .cfgcommit s = .next { s with cfgok := true, done := true })
    ∧ (¬ ok → exec .cfgcommit s = .next { s with cfgerr := true, done := false })

/-- R180, R194: RESET, faulted or not: STATUS, the configuration registers and MSGLEN become zero,
HS, SP and MSG keep their bytes; so do the build and what is outside the block. -/
def Obligations.ResetClearsRegistersAndKeepsMemories : Prop :=
  ∀ s : State, s.seq = none → ∃ t, exec .reset s = .next t
    ∧ t.statusWord = 0#32 ∧ t.seq = none
    ∧ t.cfgIter = 0#64 ∧ t.cfgMem = 0#64 ∧ t.cfgMask = 0#64 ∧ t.cfgCtl = 0#32
    ∧ t.msgLen = 0#64
    ∧ (∀ l, (t.lane l).hs = (s.lane l).hs ∧ (t.lane l).sp = (s.lane l).sp)
    ∧ t.msg = s.msg ∧ t.build = s.build ∧ t.host = s.host ∧ t.reply = s.reply
    ∧ t.extFails = s.extFails

/-- R174, R22: ABSORB, its collaborator calls returning, leaves in HS of each lane it names the
SpongeAbsorb of its message, MSGLEN bytes of MSG from 0, or from MSGLEN for lane 1 of the dual
form; nothing else changes. (That the calls return is what `extFails` says, log 3; that offsets past
the end of HS read as 0 is log 6.) -/
def Obligations.AbsorbFillsTheHashState : Prop :=
  ∀ (s : State) (sel : LaneSel), Ready s (.absorb sel) → s.callsReturn (selList sel).length →
    ∃ t, exec (.absorb sel) s = .next t
      ∧ t = { s with
          lane0 := t.lane0, lane1 := t.lane1, done := true,
          extFails := s.extFails.drop (selList sel).length }
      ∧ (∀ l, selHas sel l = false → t.lane l = s.lane l)
      ∧ ∀ l, selHas sel l = true →
          let base := if sel = .both ∧ l = .l1 then s.msgLen.toNat else 0
          let m := (List.range s.msgLen.toNat).map fun j => s.msg.read (base + j)
          t.lane l = { s.lane l with hs := (t.lane l).hs }
          ∧ (∀ (j : Nat) (h : j < 200), (t.lane l).hs.read j = (Config.spongeAbsorb m)[j])
          ∧ ∀ j, 200 ≤ j → (t.lane l).hs.read j = 0#8

/-- R97: KEYGEN leaves in K the keys of the seed at HS bytes 0 (KSRC = 0) or 32 (KSRC = 1) and sets
KV, on each lane it names; nothing else changes. -/
def Obligations.KeygenDerivesTheKeys : Prop :=
  ∀ (s : State) (sel : LaneSel) (src : KeySrc), Ready s (.keygen sel src) →
    ∃ t, exec (.keygen sel src) s = .next t
      ∧ t = { s with lane0 := t.lane0, lane1 := t.lane1, done := true }
      ∧ (∀ l, selHas sel l = false → t.lane l = s.lane l)
      ∧ ∀ l, selHas sel l = true →
          let off := if src = .implode then 32 else 0
          t.lane l = { s.lane l with
            k := keyExpand (s.cfgCtl.getLsbD 0) ((s.lane l).hs.read128 off)
              ((s.lane l).hs.read128 (off + 16))
            kv := true }

/-- R134: LDX loads X[i] from HS bytes 64 + 16i and sets XV, on each lane it names; nothing else
changes. -/
def Obligations.LdxLoadsTheBlocks : Prop :=
  ∀ (s : State) (sel : LaneSel), Ready s (.ldx sel) →
    ∃ t, exec (.ldx sel) s = .next t
      ∧ t = { s with lane0 := t.lane0, lane1 := t.lane1, done := true }
      ∧ (∀ l, selHas sel l = false → t.lane l = s.lane l)
      ∧ ∀ l, selHas sel l = true →
          t.lane l = { s.lane l with x := (t.lane l).x, xv := true }
          ∧ ∀ i : Fin 8, (t.lane l).x[i] = (s.lane l).hs.read128 (64 + 16 * i.val)

/-- R121: ROUND8 replaces X[i] by one round of it, keyed by K[KSEL], or by zero for KSEL = 15, on
each lane it names; nothing else changes. -/
def Obligations.Round8AppliesOneRound : Prop :=
  ∀ (s : State) (sel : LaneSel) (ksel : BitVec 4), Ready s (.round8 sel ksel) →
    ∃ t, exec (.round8 sel ksel) s = .next t
      ∧ t = { s with lane0 := t.lane0, lane1 := t.lane1, done := true }
      ∧ (∀ l, selHas sel l = false → t.lane l = s.lane l)
      ∧ ∀ l, selHas sel l = true →
          t.lane l = { s.lane l with x := (t.lane l).x }
          ∧ (ksel = 15#4 → ∀ i : Fin 8, (t.lane l).x[i] = roundHW (s.lane l).x[i] 0#128)
          ∧ ∀ h : ksel.toNat < 10, ∀ i : Fin 8,
              (t.lane l).x[i] = roundHW (s.lane l).x[i] (s.lane l).k[ksel.toNat]

/-- R122: XORK8 exclusive-ors K[KSEL] into X[i], on each lane it names; nothing else changes. -/
def Obligations.Xork8AddsOneKey : Prop :=
  ∀ (s : State) (sel : LaneSel) (ksel : BitVec 4), Ready s (.xork8 sel ksel) →
    ∃ t, exec (.xork8 sel ksel) s = .next t
      ∧ t = { s with lane0 := t.lane0, lane1 := t.lane1, done := true }
      ∧ (∀ l, selHas sel l = false → t.lane l = s.lane l)
      ∧ ∀ l, selHas sel l = true →
          t.lane l = { s.lane l with x := (t.lane l).x }
          ∧ ∀ h : ksel.toNat < 10, ∀ i : Fin 8,
              (t.lane l).x[i] = (s.lane l).x[i] ^^^ (s.lane l).k[ksel.toNat]

/-- R141: STX stores X[i] at HS bytes 64 + 16i; every other byte of HS, and everything else, is
unchanged. -/
def Obligations.StxStoresTheBlocks : Prop :=
  ∀ (s : State) (sel : LaneSel), Ready s (.stx sel) →
    ∃ t, exec (.stx sel) s = .next t
      ∧ t = { s with lane0 := t.lane0, lane1 := t.lane1, done := true }
      ∧ (∀ l, selHas sel l = false → t.lane l = s.lane l)
      ∧ ∀ l, selHas sel l = true →
          t.lane l = { s.lane l with hs := (t.lane l).hs }
          ∧ (∀ i : Fin 8, (t.lane l).hs.read128 (64 + 16 * i.val) = (s.lane l).x[i])
          ∧ ∀ a, (a < 64 ∨ 192 ≤ a) → (t.lane l).hs.read a = (s.lane l).hs.read a

/-- R135, R136: EXPLODE leaves in cell i of chunk c the round sequence, under the keys of HS bytes
0..31, applied c + 1 times to HS block 4 + i; bytes from MEM up are unchanged; K and X hold the keys
and the last chunk, KV and XV are set; nothing else changes. -/
def Obligations.ExplodeClosedForm : Prop :=
  ∀ (s : State) (sel : LaneSel), Ready s (.explode sel) →
    ∃ t, exec (.explode sel) s = .next t
      ∧ t = { s with lane0 := t.lane0, lane1 := t.lane1, done := true }
      ∧ (∀ l, selHas sel l = false → t.lane l = s.lane l)
      ∧ ∀ l, selHas sel l = true →
          let hw := s.cfgCtl.getLsbD 0
          let k := keyExpand hw ((s.lane l).hs.read128 0) ((s.lane l).hs.read128 16)
          let e := fun b => roundSeq s.build.roundSeq hw b k
          let start := fun i : Nat => (s.lane l).hs.read128 (64 + 16 * i)
          t.lane l = { s.lane l with
            k := k, x := (t.lane l).x, sp := (t.lane l).sp, kv := true, xv := true }
          ∧ (∀ c i, c < s.cfgMem.toNat / 128 → i < 8 →
              (t.lane l).sp.read128 (128 * c + 16 * i) = times e (c + 1) (start i))
          ∧ (∀ a, s.cfgMem.toNat ≤ a → (t.lane l).sp.read a = (s.lane l).sp.read a)
          ∧ ∀ i : Fin 8, (t.lane l).x[i] = times e (s.cfgMem.toNat / 128) (start i.val)

/-- R143, R144: IMPLODE leaves in HS block 4 + i the chained fold acc_{c+1} = E(acc_c ^ cell i of
chunk c), from the block itself, under the keys of HS bytes 32..63; X holds the same, the rest of HS
and all of SP are unchanged, KV and XV are set; nothing else changes. -/
def Obligations.ImplodeClosedForm : Prop :=
  ∀ (s : State) (sel : LaneSel), Ready s (.implode sel) →
    ∃ t, exec (.implode sel) s = .next t
      ∧ t = { s with lane0 := t.lane0, lane1 := t.lane1, done := true }
      ∧ (∀ l, selHas sel l = false → t.lane l = s.lane l)
      ∧ ∀ l, selHas sel l = true →
          let hw := s.cfgCtl.getLsbD 0
          let k := keyExpand hw ((s.lane l).hs.read128 32) ((s.lane l).hs.read128 48)
          let e := fun b => roundSeq s.build.roundSeq hw b k
          let acc := fun i : Nat =>
            foldCells e (fun c => (s.lane l).sp.read128 (128 * c + 16 * i))
              ((s.lane l).hs.read128 (64 + 16 * i)) (s.cfgMem.toNat / 128)
          t.lane l = { s.lane l with
            k := k, x := (t.lane l).x, hs := (t.lane l).hs, kv := true, xv := true }
          ∧ (∀ i, i < 8 → (t.lane l).hs.read128 (64 + 16 * i) = acc i)
          ∧ (∀ i : Fin 8, (t.lane l).x[i] = acc i.val)
          ∧ ∀ a, (a < 64 ∨ 192 ≤ a) → (t.lane l).hs.read a = (s.lane l).hs.read a

/-- R150, R151: MIXINIT derives AL, AH, BX and IDX from the words h[0..7] of HS and sets MV, on each
lane it names; nothing else changes. -/
def Obligations.MixinitDerivesTheRegisters : Prop :=
  ∀ (s : State) (sel : LaneSel), Ready s (.mixinit sel) →
    ∃ t, exec (.mixinit sel) s = .next t
      ∧ t = { s with lane0 := t.lane0, lane1 := t.lane1, done := true }
      ∧ (∀ l, selHas sel l = false → t.lane l = s.lane l)
      ∧ ∀ l, selHas sel l = true →
          let h := fun i : Nat => (s.lane l).hs.read64 (8 * i)
          t.lane l = { s.lane l with
            al := h 0 ^^^ h 4
            ah := h 1 ^^^ h 5
            bx := (h 3 ^^^ h 7) ++ (h 2 ^^^ h 6)
            idx := h 0 ^^^ h 4
            mv := true }

/-- R152 to R155: one MIXSTEP, with the values of its ten steps: the key {AH, AL}; the first cell
gets the old BX ^ cx; cl and ch come from the second cell, which is what was just stored when the
two addresses are equal; hi goes to AL and lo to AH; the second cell gets the sums, IDX and AL the
sum ^ cl, AH the sum ^ ch; every other byte of SP, and everything else, is unchanged. -/
def Obligations.MixstepIsOneIteration : Prop :=
  ∀ (s : State) (sel : LaneSel), Ready s (.mixstep sel) →
    ∃ t, exec (.mixstep sel) s = .next t
      ∧ t = { s with lane0 := t.lane0, lane1 := t.lane1, done := true }
      ∧ (∀ l, selHas sel l = false → t.lane l = s.lane l)
      ∧ ∀ l, selHas sel l = true →
          let ln := s.lane l
          let a1 := (ln.idx &&& s.cfgMask).toNat
          let cx := roundHW (ln.sp.read128 a1) (ln.ah ++ ln.al)
          let w1 := ln.bx ^^^ cx
          let a2 := (cx.extractLsb' 0 64 &&& s.cfgMask).toNat
          let cell2 := if a2 = a1 then w1 else ln.sp.read128 a2
          let cl := cell2.extractLsb' 0 64
          let ch := cell2.extractLsb' 64 64
          let p := (cx.toNat % 2 ^ 64) * cl.toNat
          let al1 := ln.al + BitVec.ofNat 64 (p / 2 ^ 64)
          let ah1 := ln.ah + BitVec.ofNat 64 (p % 2 ^ 64)
          t.lane l = { ln with
            sp := (t.lane l).sp, idx := al1 ^^^ cl, al := al1 ^^^ cl, ah := ah1 ^^^ ch, bx := cx }
          ∧ (t.lane l).sp.read128 a2 = ah1 ++ al1
          ∧ (a1 ≠ a2 → (t.lane l).sp.read128 a1 = w1)
          ∧ ∀ b, ¬ (a1 ≤ b ∧ b < a1 + 16) → ¬ (a2 ≤ b ∧ b < a2 + 16) →
              (t.lane l).sp.read b = ln.sp.read b

/-- R157: MIX completes, and gives the same state as MIXINIT and then MIXSTEP issued ITERATIONS
times. -/
def Obligations.MixIsMixinitAndIterations : Prop :=
  ∀ (s : State) (sel : LaneSel), Ready s (.mix sel) →
    ∃ t, exec (.mix sel) s = .next t
      ∧ execAll (.mixinit sel :: List.replicate s.cfgIter.toNat (.mixstep sel)) s = .next t

/-- R175, R176: FINAL, its collaborator calls returning, leaves the permuted state p in HS, the two
low bits of p[0] in SEL, that primitive's digest of p in DIG, and sets DV, on each lane it names;
nothing else changes. (That the calls return is what `extFails` says, log 3; that offsets past the
end of HS and DIG read as 0 is log 6.) -/
def Obligations.FinalDispatchesOnTheSelector : Prop :=
  ∀ (s : State) (sel : LaneSel), Ready s (.final sel) →
    s.callsReturn (2 * (selList sel).length) →
    ∃ t, exec (.final sel) s = .next t
      ∧ t = { s with
          lane0 := t.lane0, lane1 := t.lane1, done := true,
          extFails := s.extFails.drop (2 * (selList sel).length) }
      ∧ (∀ l, selHas sel l = false → t.lane l = s.lane l)
      ∧ ∀ l, selHas sel l = true →
          let p := Config.permute (Vector.ofFn fun j : Fin 200 => (s.lane l).hs.read j.val)
          let d := Config.fin (p[0].extractLsb' 0 2) p
          t.lane l = { s.lane l with
            hs := (t.lane l).hs, dig := (t.lane l).dig, sel := p[0].extractLsb' 0 2, dv := true }
          ∧ (∀ (j : Nat) (h : j < 200), (t.lane l).hs.read j = p[j])
          ∧ (∀ j, 200 ≤ j → (t.lane l).hs.read j = 0#8)
          ∧ (∀ (j : Nat) (h : j < 32), (t.lane l).dig.read j = d[j])
          ∧ ∀ j, 32 ≤ j → (t.lane l).dig.read j = 0#8

/-- R177: HASH, its collaborator calls returning, completes, and its final state is that of issuing
ABSORB, EXPLODE, MIX, IMPLODE and FINAL one after the other. -/
def Obligations.HashIsTheFiveCommands : Prop :=
  ∀ (s : State) (sel : LaneSel), Ready s (.hash sel) →
    s.callsReturn (3 * (selList sel).length) →
    ∃ t, exec (.hash sel) s = .next t
      ∧ execAll [.absorb sel, .explode sel, .mix sel, .implode sel, .final sel] s = .next t

/-! ### A collaborator that fails (60_exceptions.md R198) -/

/-- R198, U5: the first collaborator call that fails, whichever of ABSORB, of FINAL, or of the absorb
part of HASH it is, and in whichever lane, ends the command: EXTERR is set, DONE stays clear, on every
lane the command works on HS, DIG and SEL are free values and DV is clear, and every other register
and memory is as before the command. (Which call fails is the model's input, logs 3 and 17; the free
values are log 4; that ABSORB leaves DIG and SEL unspecified and DV clear is log 14.) -/
def Obligations.FirstCollaboratorFailureEndsTheCommand : Prop :=
  ∀ (s : State) (i : Instr) (sel : LaneSel) (k : Nat) (rest : List Bool),
    ((i = .absorb sel ∧ k < (selList sel).length)
      ∨ (i = .final sel ∧ k < 2 * (selList sel).length)
      ∨ (i = .hash sel ∧ k < (selList sel).length)) →
    Ready s i → s.extFails = List.replicate k false ++ true :: rest →
    ∃ t, exec i s = .next t
      ∧ t = { s with
          lane0 := t.lane0, lane1 := t.lane1, done := false, exterr := true,
          extFails := rest, freeCount := s.freeCount + 1 }
      ∧ (∀ l, selHas sel l = false → t.lane l = s.lane l)
      ∧ ∀ l, selHas sel l = true →
          t.lane l = { s.lane l with
            hs := (t.lane l).hs, dig := (t.lane l).dig, sel := (t.lane l).sel, dv := false }
          ∧ (t.lane l).lost l s.freeCount

/-- R198: after a HASH, on one lane or on both, that fails in its final part, at whichever of its calls
of Permute and Fin, everything but HS, DIG, SEL and DV of its lanes is what ABSORB, EXPLODE, MIX and
IMPLODE left; HS, DIG and SEL of every lane it works on are free values, EXTERR is set, and DONE and
DV are clear. (Which call fails is the model's input, logs 3 and 17; the free values are log 4.) -/
def Obligations.EndedPartsKeepTheirEffects : Prop :=
  ∀ (s : State) (sel : LaneSel) (k : Nat) (rest : List Bool), Ready s (.hash sel) →
    (selList sel).length ≤ k → k < 3 * (selList sel).length →
    s.extFails = List.replicate k false ++ true :: rest →
    ∃ t u, exec (.hash sel) s = .next t
      ∧ execAll [.absorb sel, .explode sel, .mix sel, .implode sel] s = .next u
      ∧ t = { u with
          lane0 := t.lane0, lane1 := t.lane1, done := false, exterr := true,
          extFails := rest, freeCount := s.freeCount + 1 }
      ∧ (∀ l, selHas sel l = false → t.lane l = s.lane l)
      ∧ ∀ l, selHas sel l = true →
          t.lane l = { u.lane l with
            hs := (t.lane l).hs, dig := (t.lane l).dig, sel := (t.lane l).sel, dv := false }
          ∧ (t.lane l).lost l s.freeCount

/-! ### Compositions and whole-machine rules -/

/-- R122: an unkeyed ROUND8 and then XORK8 equals ROUND8 with the key, and XORK8 twice restores the
blocks. -/
def Obligations.Round8SplitsIntoUnkeyedAndXor : Prop :=
  ∀ (s : State) (sel : LaneSel) (ksel : BitVec 4), ksel.toNat < 10 → Ready s (.round8 sel ksel) →
    ∃ t, exec (.round8 sel ksel) s = .next t
      ∧ execAll [.round8 sel 15#4, .xork8 sel ksel] s = .next t
      ∧ execAll [.xork8 sel ksel, .xork8 sel ksel] s = .next { s with done := true }

/-- R141: LDX and then STX leaves every byte of HS as it was. -/
def Obligations.LdxThenStxKeepsTheHashState : Prop :=
  ∀ (s : State) (sel : LaneSel), Ready s (.ldx sel) →
    ∃ t, execAll [.ldx sel, .stx sel] s = .next t
      ∧ ∀ l a, (t.lane l).hs.read a = (s.lane l).hs.read a

/-- R61, R71, R158: a dual command that calls no collaborator ends in the state of the same command
on lane 0 and then on lane 1, and of the two in the other order. -/
def Obligations.DualIsBothLanesInAnyOrder : Prop :=
  ∀ (s : State) (i : Instr), i.lanes = some .both → callsCollaborator i = false → Ready s i →
    ∃ t, exec i s = .next t
      ∧ execAll [withLanes (.one .l0) i, withLanes (.one .l1) i] s = .next t
      ∧ execAll [withLanes (.one .l1) i, withLanes (.one .l0) i] s = .next t

/-- R61, R205: a command on one lane neither reads nor writes the other: with anything else in the
other lane it does the same and leaves that there. -/
def Obligations.LanesDoNotInterfere : Prop :=
  ∀ (s : State) (i : Instr) (l l' : LaneId) (other : Lane), i.lanes = some (.one l) → l' ≠ l →
    exec i (s.setLane l' other) = mapNext (fun t => t.setLane l' other) (exec i s)

/-- R178: the dual hash decomposes: HASH.D on two messages leaves in each lane what HASH on that
lane leaves with its message at the start of MSG. -/
def Obligations.DualHashDecomposes : Prop :=
  ∀ (s : State) (msg1 : Memory), Ready s (.hash .both) → s.callsReturn 6 →
    (∀ j, j < s.msgLen.toNat → msg1.read j = s.msg.read (s.msgLen.toNat + j)) →
    ∃ t t0 t1, exec (.hash .both) s = .next t
      ∧ exec (.hash (.one .l0)) s = .next t0
      ∧ exec (.hash (.one .l1)) { s with msg := msg1 } = .next t1
      ∧ t.lane0 = t0.lane0 ∧ t.lane1 = t1.lane1

/-- R177, R211: the result of HASH does not depend on what HS, SP, the register sets, DIG or SEL
held before: from two states with the same configuration and message it leaves the same digest,
selector, Hash State, keys, blocks, mixing registers and scratchpad bytes below MEM. -/
def Obligations.HashForgetsThePast : Prop :=
  ∀ (s s' : State) (l : LaneId),
    Ready s (.hash (.one l)) → Ready s' (.hash (.one l)) →
    s.callsReturn 3 → s'.callsReturn 3 →
    s'.build = s.build → s'.cfgIter = s.cfgIter → s'.cfgMem = s.cfgMem →
    s'.cfgMask = s.cfgMask → s'.cfgCtl = s.cfgCtl → s'.msgLen = s.msgLen →
    (∀ j, j < s.msgLen.toNat → s'.msg.read j = s.msg.read j) →
    ∃ t t', exec (.hash (.one l)) s = .next t ∧ exec (.hash (.one l)) s' = .next t'
      ∧ t'.lane l = { t.lane l with sp := (t'.lane l).sp }
      ∧ ∀ a, a < s.cfgMem.toNat → (t'.lane l).sp.read a = (t.lane l).sp.read a

/-- R181 (b): with ROUNDSEQ = UNIFORM10, two states that differ only in HWPATH end, under any
command, in states that differ at most in CFG_CTL. -/
def Obligations.HwPathChangesNoResult : Prop :=
  ∀ (s : State) (i : Instr) (c : Dword), s.build.roundSeq = .uniform10 →
    mapNext (fun t => { t with cfgCtl := 0#32 }) (exec i { s with cfgCtl := c })
      = mapNext (fun t => { t with cfgCtl := 0#32 }) (exec i { s with cfgCtl := c ^^^ 1#32 })

/-- R20 to R29: each memory and register set is written only by the commands its rule names (and,
of those the spec leaves unspecified, by RESET and a failed collaborator call); no command writes
MSG, and only RESET writes CFG_ITER, CFG_MEM, CFG_MASK, CFG_CTL and MSGLEN. -/
def Obligations.OnlyTheNamedCommandsWrite : Prop :=
  ∀ (s t : State) (i : Instr), exec i s = .next t →
    (∀ l, (writesHs i = false → (t.lane l).hs = (s.lane l).hs)
      ∧ (writesSp i = false → (t.lane l).sp = (s.lane l).sp)
      ∧ (writesK i = false → (t.lane l).k = (s.lane l).k)
      ∧ (writesX i = false → (t.lane l).x = (s.lane l).x)
      ∧ (writesMixing i = false → (t.lane l).idx = (s.lane l).idx ∧ (t.lane l).al = (s.lane l).al
          ∧ (t.lane l).ah = (s.lane l).ah ∧ (t.lane l).bx = (s.lane l).bx)
      ∧ (writesDigest i = false →
          (t.lane l).dig = (s.lane l).dig ∧ (t.lane l).sel = (s.lane l).sel))
    ∧ t.msg = s.msg ∧ t.host = s.host ∧ t.reply = s.reply
    ∧ (i ≠ .reset → t.cfgIter = s.cfgIter ∧ t.cfgMem = s.cfgMem ∧ t.cfgMask = s.cfgMask
        ∧ t.cfgCtl = s.cfgCtl ∧ t.msgLen = s.msgLen)

/-- R41: no step changes what the block is built with. -/
def Obligations.NoStepChangesTheBuild : Prop :=
  ∀ s t : State, step s = .next t → t.build = s.build

/-- R30, R63, R199: the sequencer, started on a command that is ready, or on RESET in the faulted state,
and left alone, reaches in some number of units the state that `exec` answers in one. However many
refused accesses of the host come between its units, it still reaches that state, with ACCERR as
they left it beside it (RESET clears it): they change no lane, unless the command draws free values,
at the failure of a collaborator or in RESET, and then none but the values drawn. (A CFGCOMMIT whose
check fails does not start the sequencer: it ends in the step that accepts it, log 21. That RESET
clears an ACCERR set while it runs is log 10; the free values are log 4.) -/
def Obligations.SequencerRunsTheWholeCommand : Prop :=
  ∀ (s : State) (i : Instr),
    (Ready s i ∨ (s.seq = none ∧ s.faulted = true ∧ i = .reset)) →
    ∃ n t u, exec i s = .next t ∧ s.beginCommand i = .next u
      ∧ (u.seq = none ↔ i = .cfgcommit ∧ s.cfgConsistent = false)
      ∧ runUnits n u = .next t
      ∧ ∀ v, RunsAmidAccesses u v → ∃ k t', runUnits k v = .next t'
          ∧ t' = { t with
              lane0 := t'.lane0, lane1 := t'.lane1, accerr := v.accerr && decide (i ≠ .reset),
              host := v.host, reply := v.reply, freeCount := t'.freeCount }
          ∧ (i ≠ .reset → t.exterr = false → t'.lane0 = t.lane0 ∧ t'.lane1 = t.lane1)
          ∧ (i ≠ .reset → ∀ l, t'.lane l = { t.lane l with
              hs := (t'.lane l).hs, dig := (t'.lane l).dig, sel := (t'.lane l).sel })
          ∧ (i = .reset → ∀ l, (t'.lane l).hs = (t.lane l).hs ∧ (t'.lane l).sp = (t.lane l).sp
              ∧ (t'.lane l).validBits = (t.lane l).validBits)

/-- The invariant holds after reset. -/
def Obligations.ResetMeetsTheInvariant : Prop := Inv State.reset

/-- Every step keeps the invariant: memories canonical and within their spaces (R20 to R23), CFGOK
only over a consistent tuple (R38, R39), no valid bit of an absent lane (R38), at most one of the
fault bits 3 to 6 (R193), and while a command runs DONE clear, the command legal and committed, a
CFGCOMMIT one whose check passes (R192, log 21), and CHUNK and ITER in range (R30, R38, R75). -/
def Obligations.StepKeepsTheInvariant : Prop :=
  ∀ s t : State, Inv s → step s = .next t → Inv t

/-- R9, R54 to R56, R192: under the invariant a step always answers a next state: no command forms an
offset outside its space, and no command or access stops the machine. -/
def Obligations.NoStepStopsUnderTheInvariant : Prop :=
  ∀ s : State, Inv s → ∃ t, step s = .next t

/-- R31, R53, R60, R20 to R23: the read of a window of an idle block, inside the window, answers the
bytes that memory holds, those of DIG where DV is set, and changes nothing else; where DV is clear the
read of DIG answers as many bytes, of which nothing is said (U3), and changes nothing else but the
count of free values (log 4). -/
def Obligations.WindowReadsReturnTheMemory : Prop :=
  ∀ (s : State) (tm : Timing) (w : Window) (offset count : Nat) (rest : List HostItem),
    s.seq = none → s.host = ⟨tm, .readWindow w offset count⟩ :: rest →
    ¬ outsideWindow s w offset count →
    let answers := fun m : Memory => step s = .next { s with
      host := rest, reply := .window ((List.range count).map fun j => m.read (offset + j)) }
    (w = .msg → answers s.msg)
    ∧ ∀ l,
        (w = .hs l → answers (s.lane l).hs)
        ∧ (w = .sp l → answers (s.lane l).sp)
        ∧ (w = .dig l → (s.lane l).dv = true → answers (s.lane l).dig)
        ∧ (w = .dig l → (s.lane l).dv = false → ∃ bytes, bytes.length = count
            ∧ step s = .next { s with
                host := rest, reply := .window bytes, freeCount := s.freeCount + 1 })

/-- R193: a word written to CMD of an idle block that raises CFGERR, CMDERR or SEQERR, the host waiting
for its end or not, sets that bit, leaves BUSY 0, clears DONE, and changes nothing else. (That
CFGOK is kept and that BUSY is not seen for CFGERR are the model's readings, logs 19 and 21.) -/
def Obligations.CommandFaultsArePrecise : Prop :=
  ∀ (s t : State) (tm : Timing) (v : Word) (rest : List HostItem),
    s.seq = none → s.host = ⟨tm, .writeReg 0x00 v⟩ :: rest → step s = .next t →
    (s.cfgerr = false → t.cfgerr = true →
      t = { s with host := rest, cfgerr := true, done := false })
    ∧ (s.cmderr = false → t.cmderr = true →
      t = { s with host := rest, cmderr := true, done := false })
    ∧ (s.seqerr = false → t.seqerr = true →
      t = { s with host := rest, seqerr := true, done := false })

/-- R192: under the invariant a unit of a running command raises no fault but EXTERR, and that exactly
in a unit of the absorb part or the final part of a command one of whose own collaborator calls fails
(which one does is the model's input, log 3). -/
def Obligations.OnlyExterrArisesWhileACommandRuns : Prop :=
  ∀ (s t : State) (q : Sequencer), Inv s → s.seq = some q → s.unit = .next t →
    (t.cfgerr = true → s.cfgerr = true) ∧ (t.cmderr = true → s.cmderr = true)
    ∧ (t.seqerr = true → s.seqerr = true) ∧ (t.accerr = true → s.accerr = true)
    ∧ (s.exterr = false →
        (t.exterr = true ↔ ∃ sel, q.instr.lanes = some sel ∧ callsCollaborator q.instr = true
          ∧ (q.phase = .absorb ∨ q.phase = .final)
          ∧ true ∈ s.extFails.take (callsOfUnit sel q.phase)))
end

