-- ==== Sys2Proof/Laws/State.lean ====
section
/-! SUPPORT. The small lemmas of the state: one for each field and each update, so that no later
proof unfolds a record update. -/

namespace Sys2Proof.Machine

/-! ### Replacing a lane -/

@[simp] theorem State.setLane_build (s : State) (l : LaneId) (ln : Lane) :
    (s.setLane l ln).build = s.build := by cases l <;> rfl
@[simp] theorem State.setLane_msg (s : State) (l : LaneId) (ln : Lane) :
    (s.setLane l ln).msg = s.msg := by cases l <;> rfl
@[simp] theorem State.setLane_cfgIter (s : State) (l : LaneId) (ln : Lane) :
    (s.setLane l ln).cfgIter = s.cfgIter := by cases l <;> rfl
@[simp] theorem State.setLane_cfgMem (s : State) (l : LaneId) (ln : Lane) :
    (s.setLane l ln).cfgMem = s.cfgMem := by cases l <;> rfl
@[simp] theorem State.setLane_cfgMask (s : State) (l : LaneId) (ln : Lane) :
    (s.setLane l ln).cfgMask = s.cfgMask := by cases l <;> rfl
@[simp] theorem State.setLane_cfgCtl (s : State) (l : LaneId) (ln : Lane) :
    (s.setLane l ln).cfgCtl = s.cfgCtl := by cases l <;> rfl
@[simp] theorem State.setLane_msgLen (s : State) (l : LaneId) (ln : Lane) :
    (s.setLane l ln).msgLen = s.msgLen := by cases l <;> rfl
@[simp] theorem State.setLane_done (s : State) (l : LaneId) (ln : Lane) :
    (s.setLane l ln).done = s.done := by cases l <;> rfl
@[simp] theorem State.setLane_cfgok (s : State) (l : LaneId) (ln : Lane) :
    (s.setLane l ln).cfgok = s.cfgok := by cases l <;> rfl
@[simp] theorem State.setLane_cfgerr (s : State) (l : LaneId) (ln : Lane) :
    (s.setLane l ln).cfgerr = s.cfgerr := by cases l <;> rfl
@[simp] theorem State.setLane_cmderr (s : State) (l : LaneId) (ln : Lane) :
    (s.setLane l ln).cmderr = s.cmderr := by cases l <;> rfl
@[simp] theorem State.setLane_seqerr (s : State) (l : LaneId) (ln : Lane) :
    (s.setLane l ln).seqerr = s.seqerr := by cases l <;> rfl
@[simp] theorem State.setLane_exterr (s : State) (l : LaneId) (ln : Lane) :
    (s.setLane l ln).exterr = s.exterr := by cases l <;> rfl
@[simp] theorem State.setLane_accerr (s : State) (l : LaneId) (ln : Lane) :
    (s.setLane l ln).accerr = s.accerr := by cases l <;> rfl
@[simp] theorem State.setLane_seq (s : State) (l : LaneId) (ln : Lane) :
    (s.setLane l ln).seq = s.seq := by cases l <;> rfl
@[simp] theorem State.setLane_host (s : State) (l : LaneId) (ln : Lane) :
    (s.setLane l ln).host = s.host := by cases l <;> rfl
@[simp] theorem State.setLane_reply (s : State) (l : LaneId) (ln : Lane) :
    (s.setLane l ln).reply = s.reply := by cases l <;> rfl
@[simp] theorem State.setLane_extFails (s : State) (l : LaneId) (ln : Lane) :
    (s.setLane l ln).extFails = s.extFails := by cases l <;> rfl
@[simp] theorem State.setLane_freeCount (s : State) (l : LaneId) (ln : Lane) :
    (s.setLane l ln).freeCount = s.freeCount := by cases l <;> rfl

@[simp] theorem State.setLane_lane (s : State) (l l' : LaneId) (ln : Lane) :
    (s.setLane l ln).lane l' = if l' = l then ln else s.lane l' := by
  cases l <;> cases l' <;> rfl

/-! ### The same on every lane of an operand -/

@[simp] theorem State.onLanes_build (s : State) (sel : LaneSel) (f : Lane → Lane) :
    (s.onLanes sel f).build = s.build := rfl
@[simp] theorem State.onLanes_msg (s : State) (sel : LaneSel) (f : Lane → Lane) :
    (s.onLanes sel f).msg = s.msg := rfl
@[simp] theorem State.onLanes_cfgIter (s : State) (sel : LaneSel) (f : Lane → Lane) :
    (s.onLanes sel f).cfgIter = s.cfgIter := rfl
@[simp] theorem State.onLanes_cfgMem (s : State) (sel : LaneSel) (f : Lane → Lane) :
    (s.onLanes sel f).cfgMem = s.cfgMem := rfl
@[simp] theorem State.onLanes_cfgMask (s : State) (sel : LaneSel) (f : Lane → Lane) :
    (s.onLanes sel f).cfgMask = s.cfgMask := rfl
@[simp] theorem State.onLanes_cfgCtl (s : State) (sel : LaneSel) (f : Lane → Lane) :
    (s.onLanes sel f).cfgCtl = s.cfgCtl := rfl
@[simp] theorem State.onLanes_msgLen (s : State) (sel : LaneSel) (f : Lane → Lane) :
    (s.onLanes sel f).msgLen = s.msgLen := rfl
@[simp] theorem State.onLanes_done (s : State) (sel : LaneSel) (f : Lane → Lane) :
    (s.onLanes sel f).done = s.done := rfl
@[simp] theorem State.onLanes_cfgok (s : State) (sel : LaneSel) (f : Lane → Lane) :
    (s.onLanes sel f).cfgok = s.cfgok := rfl
@[simp] theorem State.onLanes_cfgerr (s : State) (sel : LaneSel) (f : Lane → Lane) :
    (s.onLanes sel f).cfgerr = s.cfgerr := rfl
@[simp] theorem State.onLanes_cmderr (s : State) (sel : LaneSel) (f : Lane → Lane) :
    (s.onLanes sel f).cmderr = s.cmderr := rfl
@[simp] theorem State.onLanes_seqerr (s : State) (sel : LaneSel) (f : Lane → Lane) :
    (s.onLanes sel f).seqerr = s.seqerr := rfl
@[simp] theorem State.onLanes_exterr (s : State) (sel : LaneSel) (f : Lane → Lane) :
    (s.onLanes sel f).exterr = s.exterr := rfl
@[simp] theorem State.onLanes_accerr (s : State) (sel : LaneSel) (f : Lane → Lane) :
    (s.onLanes sel f).accerr = s.accerr := rfl
@[simp] theorem State.onLanes_seq (s : State) (sel : LaneSel) (f : Lane → Lane) :
    (s.onLanes sel f).seq = s.seq := rfl
@[simp] theorem State.onLanes_host (s : State) (sel : LaneSel) (f : Lane → Lane) :
    (s.onLanes sel f).host = s.host := rfl
@[simp] theorem State.onLanes_reply (s : State) (sel : LaneSel) (f : Lane → Lane) :
    (s.onLanes sel f).reply = s.reply := rfl
@[simp] theorem State.onLanes_extFails (s : State) (sel : LaneSel) (f : Lane → Lane) :
    (s.onLanes sel f).extFails = s.extFails := rfl
@[simp] theorem State.onLanes_freeCount (s : State) (sel : LaneSel) (f : Lane → Lane) :
    (s.onLanes sel f).freeCount = s.freeCount := rfl

@[simp] theorem State.onLanes_lane (s : State) (sel : LaneSel) (f : Lane → Lane) (l : LaneId) :
    (s.onLanes sel f).lane l = if selHas sel l then f (s.lane l) else s.lane l := by
  cases l <;> rfl

/-- Two things done to the lanes of an operand are one done to each. -/
theorem State.onLanes_onLanes (s : State) (sel : LaneSel) (f g : Lane → Lane) :
    (s.onLanes sel f).onLanes sel g = s.onLanes sel fun ln => g (f ln) := by
  simp only [State.onLanes, State.mk.injEq, true_and, and_true]
  constructor <;> split <;> rfl

/-! ### A draw of free values -/

@[simp] theorem State.drawn_build (s : State) : (s.drawn).build = s.build := rfl
@[simp] theorem State.drawn_lane0 (s : State) : (s.drawn).lane0 = s.lane0 := rfl
@[simp] theorem State.drawn_lane1 (s : State) : (s.drawn).lane1 = s.lane1 := rfl
@[simp] theorem State.drawn_msg (s : State) : (s.drawn).msg = s.msg := rfl
@[simp] theorem State.drawn_cfgIter (s : State) : (s.drawn).cfgIter = s.cfgIter := rfl
@[simp] theorem State.drawn_cfgMem (s : State) : (s.drawn).cfgMem = s.cfgMem := rfl
@[simp] theorem State.drawn_cfgMask (s : State) : (s.drawn).cfgMask = s.cfgMask := rfl
@[simp] theorem State.drawn_cfgCtl (s : State) : (s.drawn).cfgCtl = s.cfgCtl := rfl
@[simp] theorem State.drawn_msgLen (s : State) : (s.drawn).msgLen = s.msgLen := rfl
@[simp] theorem State.drawn_done (s : State) : (s.drawn).done = s.done := rfl
@[simp] theorem State.drawn_cfgok (s : State) : (s.drawn).cfgok = s.cfgok := rfl
@[simp] theorem State.drawn_cfgerr (s : State) : (s.drawn).cfgerr = s.cfgerr := rfl
@[simp] theorem State.drawn_cmderr (s : State) : (s.drawn).cmderr = s.cmderr := rfl
@[simp] theorem State.drawn_seqerr (s : State) : (s.drawn).seqerr = s.seqerr := rfl
@[simp] theorem State.drawn_exterr (s : State) : (s.drawn).exterr = s.exterr := rfl
@[simp] theorem State.drawn_accerr (s : State) : (s.drawn).accerr = s.accerr := rfl
@[simp] theorem State.drawn_seq (s : State) : (s.drawn).seq = s.seq := rfl
@[simp] theorem State.drawn_host (s : State) : (s.drawn).host = s.host := rfl
@[simp] theorem State.drawn_reply (s : State) : (s.drawn).reply = s.reply := rfl
@[simp] theorem State.drawn_extFails (s : State) : (s.drawn).extFails = s.extFails := rfl

/-! ### Setting a fault bit -/

@[simp] theorem State.setFault_build (s : State) (f : FaultBit) :
    (s.setFault f).build = s.build := by cases f <;> rfl
@[simp] theorem State.setFault_lane0 (s : State) (f : FaultBit) :
    (s.setFault f).lane0 = s.lane0 := by cases f <;> rfl
@[simp] theorem State.setFault_lane1 (s : State) (f : FaultBit) :
    (s.setFault f).lane1 = s.lane1 := by cases f <;> rfl
@[simp] theorem State.setFault_msg (s : State) (f : FaultBit) :
    (s.setFault f).msg = s.msg := by cases f <;> rfl
@[simp] theorem State.setFault_cfgIter (s : State) (f : FaultBit) :
    (s.setFault f).cfgIter = s.cfgIter := by cases f <;> rfl
@[simp] theorem State.setFault_cfgMem (s : State) (f : FaultBit) :
    (s.setFault f).cfgMem = s.cfgMem := by cases f <;> rfl
@[simp] theorem State.setFault_cfgMask (s : State) (f : FaultBit) :
    (s.setFault f).cfgMask = s.cfgMask := by cases f <;> rfl
@[simp] theorem State.setFault_cfgCtl (s : State) (f : FaultBit) :
    (s.setFault f).cfgCtl = s.cfgCtl := by cases f <;> rfl
@[simp] theorem State.setFault_msgLen (s : State) (f : FaultBit) :
    (s.setFault f).msgLen = s.msgLen := by cases f <;> rfl
@[simp] theorem State.setFault_done (s : State) (f : FaultBit) :
    (s.setFault f).done = s.done := by cases f <;> rfl
@[simp] theorem State.setFault_cfgok (s : State) (f : FaultBit) :
    (s.setFault f).cfgok = s.cfgok := by cases f <;> rfl
@[simp] theorem State.setFault_seq (s : State) (f : FaultBit) :
    (s.setFault f).seq = s.seq := by cases f <;> rfl
@[simp] theorem State.setFault_host (s : State) (f : FaultBit) :
    (s.setFault f).host = s.host := by cases f <;> rfl
@[simp] theorem State.setFault_reply (s : State) (f : FaultBit) :
    (s.setFault f).reply = s.reply := by cases f <;> rfl
@[simp] theorem State.setFault_extFails (s : State) (f : FaultBit) :
    (s.setFault f).extFails = s.extFails := by cases f <;> rfl
@[simp] theorem State.setFault_freeCount (s : State) (f : FaultBit) :
    (s.setFault f).freeCount = s.freeCount := by cases f <;> rfl

/-! ### Raising a fault -/

@[simp] theorem State.raise_build (s : State) (f : FaultBit) :
    (s.raise f).build = s.build := by cases f <;> rfl
@[simp] theorem State.raise_lane0 (s : State) (f : FaultBit) :
    (s.raise f).lane0 = s.lane0 := by cases f <;> rfl
@[simp] theorem State.raise_lane1 (s : State) (f : FaultBit) :
    (s.raise f).lane1 = s.lane1 := by cases f <;> rfl
@[simp] theorem State.raise_msg (s : State) (f : FaultBit) :
    (s.raise f).msg = s.msg := by cases f <;> rfl
@[simp] theorem State.raise_cfgIter (s : State) (f : FaultBit) :
    (s.raise f).cfgIter = s.cfgIter := by cases f <;> rfl
@[simp] theorem State.raise_cfgMem (s : State) (f : FaultBit) :
    (s.raise f).cfgMem = s.cfgMem := by cases f <;> rfl
@[simp] theorem State.raise_cfgMask (s : State) (f : FaultBit) :
    (s.raise f).cfgMask = s.cfgMask := by cases f <;> rfl
@[simp] theorem State.raise_cfgCtl (s : State) (f : FaultBit) :
    (s.raise f).cfgCtl = s.cfgCtl := by cases f <;> rfl
@[simp] theorem State.raise_msgLen (s : State) (f : FaultBit) :
    (s.raise f).msgLen = s.msgLen := by cases f <;> rfl
@[simp] theorem State.raise_cfgok (s : State) (f : FaultBit) :
    (s.raise f).cfgok = s.cfgok := by cases f <;> rfl
@[simp] theorem State.raise_seq (s : State) (f : FaultBit) :
    (s.raise f).seq = s.seq := by cases f <;> rfl
@[simp] theorem State.raise_host (s : State) (f : FaultBit) :
    (s.raise f).host = s.host := by cases f <;> rfl
@[simp] theorem State.raise_reply (s : State) (f : FaultBit) :
    (s.raise f).reply = s.reply := by cases f <;> rfl
@[simp] theorem State.raise_extFails (s : State) (f : FaultBit) :
    (s.raise f).extFails = s.extFails := by cases f <;> rfl
@[simp] theorem State.raise_freeCount (s : State) (f : FaultBit) :
    (s.raise f).freeCount = s.freeCount := by cases f <;> rfl

@[simp] theorem State.raise_done (s : State) (f : FaultBit) : (s.raise f).done = false := rfl

@[simp] theorem State.setFault_lane (s : State) (f : FaultBit) (l : LaneId) :
    (s.setFault f).lane l = s.lane l := by cases l <;> cases f <;> rfl

@[simp] theorem State.raise_lane (s : State) (f : FaultBit) (l : LaneId) :
    (s.raise f).lane l = s.lane l := by cases l <;> cases f <;> rfl

/-! ### Clearing DV -/

@[simp] theorem State.clearDV_build (s : State) (sel : LaneSel) :
    (s.clearDV sel).build = s.build := rfl
@[simp] theorem State.clearDV_msg (s : State) (sel : LaneSel) : (s.clearDV sel).msg = s.msg := rfl
@[simp] theorem State.clearDV_cfgIter (s : State) (sel : LaneSel) :
    (s.clearDV sel).cfgIter = s.cfgIter := rfl
@[simp] theorem State.clearDV_cfgMem (s : State) (sel : LaneSel) :
    (s.clearDV sel).cfgMem = s.cfgMem := rfl
@[simp] theorem State.clearDV_cfgMask (s : State) (sel : LaneSel) :
    (s.clearDV sel).cfgMask = s.cfgMask := rfl
@[simp] theorem State.clearDV_cfgCtl (s : State) (sel : LaneSel) :
    (s.clearDV sel).cfgCtl = s.cfgCtl := rfl
@[simp] theorem State.clearDV_msgLen (s : State) (sel : LaneSel) :
    (s.clearDV sel).msgLen = s.msgLen := rfl
@[simp] theorem State.clearDV_done (s : State) (sel : LaneSel) :
    (s.clearDV sel).done = s.done := rfl
@[simp] theorem State.clearDV_cfgok (s : State) (sel : LaneSel) :
    (s.clearDV sel).cfgok = s.cfgok := rfl
@[simp] theorem State.clearDV_cfgerr (s : State) (sel : LaneSel) :
    (s.clearDV sel).cfgerr = s.cfgerr := rfl
@[simp] theorem State.clearDV_cmderr (s : State) (sel : LaneSel) :
    (s.clearDV sel).cmderr = s.cmderr := rfl
@[simp] theorem State.clearDV_seqerr (s : State) (sel : LaneSel) :
    (s.clearDV sel).seqerr = s.seqerr := rfl
@[simp] theorem State.clearDV_exterr (s : State) (sel : LaneSel) :
    (s.clearDV sel).exterr = s.exterr := rfl
@[simp] theorem State.clearDV_accerr (s : State) (sel : LaneSel) :
    (s.clearDV sel).accerr = s.accerr := rfl
@[simp] theorem State.clearDV_seq (s : State) (sel : LaneSel) : (s.clearDV sel).seq = s.seq := rfl
@[simp] theorem State.clearDV_host (s : State) (sel : LaneSel) :
    (s.clearDV sel).host = s.host := rfl
@[simp] theorem State.clearDV_reply (s : State) (sel : LaneSel) :
    (s.clearDV sel).reply = s.reply := rfl
@[simp] theorem State.clearDV_extFails (s : State) (sel : LaneSel) :
    (s.clearDV sel).extFails = s.extFails := rfl
@[simp] theorem State.clearDV_freeCount (s : State) (sel : LaneSel) :
    (s.clearDV sel).freeCount = s.freeCount := rfl

/-! ### A collaborator call -/

@[simp] theorem State.extCall_build (s : State) :
    (s.extCall.2).build = s.build := by unfold State.extCall; split <;> rfl
@[simp] theorem State.extCall_lane0 (s : State) :
    (s.extCall.2).lane0 = s.lane0 := by unfold State.extCall; split <;> rfl
@[simp] theorem State.extCall_lane1 (s : State) :
    (s.extCall.2).lane1 = s.lane1 := by unfold State.extCall; split <;> rfl
@[simp] theorem State.extCall_msg (s : State) :
    (s.extCall.2).msg = s.msg := by unfold State.extCall; split <;> rfl
@[simp] theorem State.extCall_cfgIter (s : State) :
    (s.extCall.2).cfgIter = s.cfgIter := by unfold State.extCall; split <;> rfl
@[simp] theorem State.extCall_cfgMem (s : State) :
    (s.extCall.2).cfgMem = s.cfgMem := by unfold State.extCall; split <;> rfl
@[simp] theorem State.extCall_cfgMask (s : State) :
    (s.extCall.2).cfgMask = s.cfgMask := by unfold State.extCall; split <;> rfl
@[simp] theorem State.extCall_cfgCtl (s : State) :
    (s.extCall.2).cfgCtl = s.cfgCtl := by unfold State.extCall; split <;> rfl
@[simp] theorem State.extCall_msgLen (s : State) :
    (s.extCall.2).msgLen = s.msgLen := by unfold State.extCall; split <;> rfl
@[simp] theorem State.extCall_done (s : State) :
    (s.extCall.2).done = s.done := by unfold State.extCall; split <;> rfl
@[simp] theorem State.extCall_cfgok (s : State) :
    (s.extCall.2).cfgok = s.cfgok := by unfold State.extCall; split <;> rfl
@[simp] theorem State.extCall_cfgerr (s : State) :
    (s.extCall.2).cfgerr = s.cfgerr := by unfold State.extCall; split <;> rfl
@[simp] theorem State.extCall_cmderr (s : State) :
    (s.extCall.2).cmderr = s.cmderr := by unfold State.extCall; split <;> rfl
@[simp] theorem State.extCall_seqerr (s : State) :
    (s.extCall.2).seqerr = s.seqerr := by unfold State.extCall; split <;> rfl
@[simp] theorem State.extCall_exterr (s : State) :
    (s.extCall.2).exterr = s.exterr := by unfold State.extCall; split <;> rfl
@[simp] theorem State.extCall_accerr (s : State) :
    (s.extCall.2).accerr = s.accerr := by unfold State.extCall; split <;> rfl
@[simp] theorem State.extCall_seq (s : State) :
    (s.extCall.2).seq = s.seq := by unfold State.extCall; split <;> rfl
@[simp] theorem State.extCall_host (s : State) :
    (s.extCall.2).host = s.host := by unfold State.extCall; split <;> rfl
@[simp] theorem State.extCall_reply (s : State) :
    (s.extCall.2).reply = s.reply := by unfold State.extCall; split <;> rfl
@[simp] theorem State.extCall_freeCount (s : State) :
    (s.extCall.2).freeCount = s.freeCount := by unfold State.extCall; split <;> rfl

@[simp] theorem State.extCall_lane (s : State) (l : LaneId) :
    s.extCall.2.lane l = s.lane l := by cases l <;> simp [State.lane]

@[simp] theorem State.extCall_extFails (s : State) : s.extCall.2.extFails = s.extFails.tail := by
  unfold State.extCall; split <;> simp_all

@[simp] theorem State.extCall_fails (s : State) : s.extCall.1 = s.extFails.headD false := by
  unfold State.extCall; split <;> simp_all

/-! ### A failed collaborator call -/

@[simp] theorem State.extFailure_build (s : State) (sel : LaneSel) :
    (s.extFailure sel).build = s.build := rfl
@[simp] theorem State.extFailure_msg (s : State) (sel : LaneSel) :
    (s.extFailure sel).msg = s.msg := rfl
@[simp] theorem State.extFailure_cfgIter (s : State) (sel : LaneSel) :
    (s.extFailure sel).cfgIter = s.cfgIter := rfl
@[simp] theorem State.extFailure_cfgMem (s : State) (sel : LaneSel) :
    (s.extFailure sel).cfgMem = s.cfgMem := rfl
@[simp] theorem State.extFailure_cfgMask (s : State) (sel : LaneSel) :
    (s.extFailure sel).cfgMask = s.cfgMask := rfl
@[simp] theorem State.extFailure_cfgCtl (s : State) (sel : LaneSel) :
    (s.extFailure sel).cfgCtl = s.cfgCtl := rfl
@[simp] theorem State.extFailure_msgLen (s : State) (sel : LaneSel) :
    (s.extFailure sel).msgLen = s.msgLen := rfl
@[simp] theorem State.extFailure_done (s : State) (sel : LaneSel) :
    (s.extFailure sel).done = s.done := rfl
@[simp] theorem State.extFailure_cfgok (s : State) (sel : LaneSel) :
    (s.extFailure sel).cfgok = s.cfgok := rfl
@[simp] theorem State.extFailure_cfgerr (s : State) (sel : LaneSel) :
    (s.extFailure sel).cfgerr = s.cfgerr := rfl
@[simp] theorem State.extFailure_cmderr (s : State) (sel : LaneSel) :
    (s.extFailure sel).cmderr = s.cmderr := rfl
@[simp] theorem State.extFailure_seqerr (s : State) (sel : LaneSel) :
    (s.extFailure sel).seqerr = s.seqerr := rfl
@[simp] theorem State.extFailure_accerr (s : State) (sel : LaneSel) :
    (s.extFailure sel).accerr = s.accerr := rfl
@[simp] theorem State.extFailure_seq (s : State) (sel : LaneSel) :
    (s.extFailure sel).seq = s.seq := rfl
@[simp] theorem State.extFailure_host (s : State) (sel : LaneSel) :
    (s.extFailure sel).host = s.host := rfl
@[simp] theorem State.extFailure_reply (s : State) (sel : LaneSel) :
    (s.extFailure sel).reply = s.reply := rfl
@[simp] theorem State.extFailure_extFails (s : State) (sel : LaneSel) :
    (s.extFailure sel).extFails = s.extFails := rfl

@[simp] theorem State.extFailure_exterr (s : State) (sel : LaneSel) :
    (s.extFailure sel).exterr = true := rfl
@[simp] theorem State.extFailure_freeCount (s : State) (sel : LaneSel) :
    (s.extFailure sel).freeCount = s.freeCount + 1 := rfl
theorem State.extFailure_lane (s : State) (sel : LaneSel) (l : LaneId) :
    (s.extFailure sel).lane l =
      if selHas sel l then (s.lane l).afterExtFailure l s.freeCount else s.lane l := by
  cases l <;> rfl

/-! ### RESET -/

@[simp] theorem State.resetRegisters_build (s : State) :
    (s.resetRegisters).build = s.build := by simp only [State.resetRegisters]
@[simp] theorem State.resetRegisters_msg (s : State) :
    (s.resetRegisters).msg = s.msg := by simp only [State.resetRegisters]
@[simp] theorem State.resetRegisters_host (s : State) :
    (s.resetRegisters).host = s.host := by simp only [State.resetRegisters]
@[simp] theorem State.resetRegisters_reply (s : State) :
    (s.resetRegisters).reply = s.reply := by simp only [State.resetRegisters]
@[simp] theorem State.resetRegisters_extFails (s : State) :
    (s.resetRegisters).extFails = s.extFails := by simp only [State.resetRegisters]
@[simp] theorem State.resetRegisters_cfgIter (s : State) : s.resetRegisters.cfgIter = 0#64 := rfl
@[simp] theorem State.resetRegisters_cfgMem (s : State) : s.resetRegisters.cfgMem = 0#64 := rfl
@[simp] theorem State.resetRegisters_cfgMask (s : State) : s.resetRegisters.cfgMask = 0#64 := rfl
@[simp] theorem State.resetRegisters_cfgCtl (s : State) : s.resetRegisters.cfgCtl = 0#32 := rfl
@[simp] theorem State.resetRegisters_msgLen (s : State) : s.resetRegisters.msgLen = 0#64 := rfl
@[simp] theorem State.resetRegisters_done (s : State) : s.resetRegisters.done = false := rfl
@[simp] theorem State.resetRegisters_cfgok (s : State) : s.resetRegisters.cfgok = false := rfl
@[simp] theorem State.resetRegisters_cfgerr (s : State) : s.resetRegisters.cfgerr = false := rfl
@[simp] theorem State.resetRegisters_cmderr (s : State) : s.resetRegisters.cmderr = false := rfl
@[simp] theorem State.resetRegisters_seqerr (s : State) : s.resetRegisters.seqerr = false := rfl
@[simp] theorem State.resetRegisters_exterr (s : State) : s.resetRegisters.exterr = false := rfl
@[simp] theorem State.resetRegisters_accerr (s : State) : s.resetRegisters.accerr = false := rfl
@[simp] theorem State.resetRegisters_seq (s : State) : s.resetRegisters.seq = none := rfl

end Sys2Proof.Machine
end

