-- ==== Sys2Proof/Laws/Issue.lean ====
section
/-! SUPPORT. The laws of issuing a command (30_encoding.md R75): when each verdict falls, what the
command answers then, and the one inversion lemma that every proof about a command goes through. -/

namespace Sys2Proof.Machine

/-! ### The verdict -/

/-- An idle state is not busy (R38). -/
theorem State.busy_eq_false {s : State} (h : s.seq = none) : s.busy = false := by
  rw [State.busy, h]; rfl

/-- A state with a running command is busy (R38). -/
theorem State.busy_eq_true {s : State} {q : Sequencer} (h : s.seq = some q) : s.busy = true := by
  rw [State.busy, h]; rfl

/-- A state that is not busy has no running command (R38). -/
theorem State.seq_eq_none {s : State} (h : s.busy = false) : s.seq = none := by
  rw [State.busy] at h
  simpa using h

theorem State.verdict_of_busy {s : State} (i : Instr) (h : s.busy = true) :
    s.verdict i = .refusedBusy := by
  rw [State.verdict, if_pos h]

/-- In the faulted state RESET alone is accepted (R194). -/
theorem State.verdict_of_faulted {s : State} (i : Instr) (hb : s.seq = none)
    (hf : s.faulted = true) : s.verdict i = if i = .reset then .accepted else .ignored := by
  rw [State.verdict, if_neg (by simp [State.busy_eq_false hb]), if_pos hf]

/-- The tests on an idle block that is not faulted, in their order (R75, R201). -/
theorem State.verdict_of_idle {s : State} (i : Instr) (hb : s.seq = none)
    (hf : s.faulted = false) :
    s.verdict i =
      if s.legal i = false then .raises .cmderr
      else if s.needsMet i = false then .raises .seqerr
      else if s.messageFits i = false then .raises .cmderr
      else if addressesScratchpad i = true ∧ s.cfgConsistent = false then .outside
      else .accepted := by
  rw [State.verdict, if_neg (by simp [State.busy_eq_false hb]), if_neg (by simp [hf])]
  simp

/-- A command that is ready is accepted (R75). -/
theorem State.verdict_of_ready {s : State} {i : Instr} (h : Ready s i) :
    s.verdict i = .accepted := by
  obtain ⟨hb, hf, hl, hn, hm, hc⟩ := h
  rw [State.verdict_of_idle i hb hf, if_neg (by simp [hl]), if_neg (by simp [hn]),
    if_neg (by simp [hm]), if_neg fun h => by simp [hc h.1] at h]

/-- RESET is legal on every block and needs nothing (R73, R74). -/
theorem State.ready_reset {s : State} (hb : s.seq = none) (hf : s.faulted = false) :
    Ready s .reset :=
  ⟨hb, hf, rfl, rfl, rfl, fun h => by simp [addressesScratchpad] at h⟩

/-- An accepted command is ready, or is RESET in the faulted state (R75, R194). -/
theorem State.of_verdict_accepted {s : State} {i : Instr} (h : s.verdict i = .accepted) :
    s.seq = none ∧ ((s.faulted = true ∧ i = .reset) ∨ Ready s i) := by
  cases hb : s.busy with
  | true => rw [State.verdict_of_busy i hb] at h; cases h
  | false =>
    have hs := State.seq_eq_none hb
    refine ⟨hs, ?_⟩
    cases hf : s.faulted with
    | true =>
      rw [State.verdict_of_faulted i hs hf] at h
      split at h
      · exact .inl ⟨rfl, ‹_›⟩
      · cases h
    | false =>
      rw [State.verdict_of_idle i hs hf] at h
      split at h
      · cases h
      · split at h
        · cases h
        · split at h
          · cases h
          · split at h
            · cases h
            · simp_all [Ready]

/-! ### What issuing answers -/

theorem State.issue_of_verdict {s : State} {i : Instr} (run : State → State)
    (h : s.verdict i = .accepted) : s.issue i run = .next (run { s with done := false }) := by
  rw [State.issue, h]

/-- A command that is ready runs on the state with DONE cleared (R75). -/
theorem State.issue_of_ready {s : State} {i : Instr} (run : State → State) (h : Ready s i) :
    s.issue i run = .next (run { s with done := false }) :=
  State.issue_of_verdict run (State.verdict_of_ready h)

/-- A command written while BUSY (R32, R75). -/
theorem State.issue_of_busy {s : State} (i : Instr) (run : State → State) (h : s.busy = true) :
    s.issue i run = .next (s.setFault .accerr) := by
  rw [State.issue, State.verdict_of_busy i h]

/-- A command written in the faulted state (R194). -/
theorem State.issue_of_faulted {s : State} {i : Instr} (run : State → State) (hb : s.seq = none)
    (hf : s.faulted = true) :
    s.issue i run = if i = .reset then .next (run { s with done := false }) else .next s := by
  rw [State.issue, State.verdict_of_faulted i hb hf]
  by_cases hi : i = .reset <;> simp only [hi, if_true, if_false]

/-- Everything issuing a command can do (R75): refused while BUSY, ignored while faulted, one of the
two faults of the acceptance checks, or run; or it stops, over an inconsistent tuple. -/
theorem State.issue_cases (s : State) (i : Instr) (run : State → State) :
    (s.busy = true ∧ s.issue i run = .next (s.setFault .accerr))
    ∨ (s.seq = none ∧ s.faulted = true ∧ i ≠ .reset ∧ s.issue i run = .next s)
    ∨ (s.seq = none ∧ s.faulted = false ∧
        ∃ f, (f = .cmderr ∨ f = .seqerr) ∧ s.issue i run = .next (s.raise f))
    ∨ (s.seq = none ∧ s.faulted = false ∧ s.needsMet i = true ∧ addressesScratchpad i = true
        ∧ s.cfgConsistent = false ∧ s.issue i run = .fault .outsideSpace)
    ∨ (s.seq = none ∧ ((s.faulted = true ∧ i = .reset) ∨ Ready s i)
        ∧ s.issue i run = .next (run { s with done := false })) := by
  cases hb : s.busy with
  | true => exact .inl ⟨rfl, State.issue_of_busy i run hb⟩
  | false =>
    right
    have hs := State.seq_eq_none hb
    cases hf : s.faulted with
    | true =>
      by_cases hi : i = .reset
      · exact .inr (.inr (.inr ⟨hs, .inl ⟨rfl, hi⟩, by rw [State.issue_of_faulted run hs hf, if_pos hi]⟩))
      · exact .inl ⟨hs, rfl, hi, by rw [State.issue_of_faulted run hs hf, if_neg hi]⟩
    | false =>
      right
      have hv := State.verdict_of_idle i hs hf
      rw [State.issue]
      split at hv
      · exact .inl ⟨hs, rfl, _, .inl rfl, by rw [hv]⟩
      · split at hv
        · exact .inl ⟨hs, rfl, _, .inr rfl, by rw [hv]⟩
        · split at hv
          · exact .inl ⟨hs, rfl, _, .inl rfl, by rw [hv]⟩
          · split at hv
            · next hn _ h =>
              exact .inr (.inl ⟨hs, rfl, by simpa using hn, h.1, h.2, by rw [hv]⟩)
            · exact .inr (.inr ⟨hs, by simpa [hf] using (State.of_verdict_accepted hv).2, by rw [hv]⟩)

/-- The inversion of issuing, where it answers a next state. -/
theorem State.issue_next_cases {s t : State} {i : Instr} {run : State → State}
    (h : s.issue i run = .next t) :
    (s.busy = true ∧ t = s.setFault .accerr)
    ∨ (s.seq = none ∧ s.faulted = true ∧ i ≠ .reset ∧ t = s)
    ∨ (s.seq = none ∧ s.faulted = false ∧ ∃ f, (f = .cmderr ∨ f = .seqerr) ∧ t = s.raise f)
    ∨ (s.seq = none ∧ ((s.faulted = true ∧ i = .reset) ∨ Ready s i)
        ∧ t = run { s with done := false }) := by
  rcases s.issue_cases i run with ⟨hb, e⟩ | ⟨hs, hf, hi, e⟩ | ⟨hs, hf, f, hff, e⟩ |
    ⟨_, _, _, _, _, e⟩ | ⟨hs, hr, e⟩ <;> rw [e] at h
  · exact .inl ⟨hb, by injection h with h; exact h.symm⟩
  · exact .inr (.inl ⟨hs, hf, hi, by injection h with h; exact h.symm⟩)
  · exact .inr (.inr (.inl ⟨hs, hf, f, hff, by injection h with h; exact h.symm⟩))
  · cases h
  · exact .inr (.inr (.inr ⟨hs, hr, by injection h with h; exact h.symm⟩))

/-- Everything a word that decodes to no command can do (R74, R75). -/
theorem State.issueIllegal_cases (s : State) :
    (s.busy = true ∧ s.issueIllegal = s.setFault .accerr)
    ∨ (s.seq = none ∧ s.faulted = true ∧ s.issueIllegal = s)
    ∨ (s.seq = none ∧ s.faulted = false ∧ s.issueIllegal = s.raise .cmderr) := by
  rw [State.issueIllegal]
  split
  · next h => exact .inl ⟨h, rfl⟩
  · next h =>
    have hs := State.seq_eq_none (by simpa using h)
    split
    · next hf => exact .inr (.inl ⟨hs, hf, rfl⟩)
    · next hf => exact .inr (.inr ⟨hs, by simpa using hf, rfl⟩)

/-! ### Every command goes through `State.issue` -/

/-- `exec` is the tests of R75 and then the command's body, closed. -/
theorem exec_eq_issue (i : Instr) (s : State) :
    exec i s = s.issue i fun t => (bodyOf i t).close := by
  cases i <;> rfl

/-- A command that is ready completes with the state its body ends in (R75). -/
theorem exec_of_ready {s : State} {i : Instr} (h : Ready s i) :
    exec i s = .next (bodyOf i { s with done := false }).close := by
  rw [exec_eq_issue, State.issue_of_ready _ h]

/-- RESET on an idle block, faulted or not (R180, R194). -/
theorem exec_reset {s : State} (h : s.seq = none) : exec .reset s = .next s.resetRegisters := by
  have e : exec .reset s = .next (bodyOf .reset { s with done := false }).close := by
    cases hf : s.faulted with
    | true => rw [exec_eq_issue, State.issue_of_faulted _ h hf, if_pos rfl]
    | false => exact exec_of_ready (State.ready_reset h hf)
  rw [e]
  simp only [bodyOf, resetBody, Ending.close, State.resetRegisters]

/-! ### A command whose end the host does not wait for -/

/-- A command that is ready starts the sequencer, or is CFGCOMMIT whose check fails (R75, R192). -/
theorem State.beginCommand_of_ready {s : State} {i : Instr} (h : Ready s i) :
    s.beginCommand i = .next
      (if s.commitFails i then s.raise .cfgerr else { s with done := false }.startSequencer i) := by
  rw [State.beginCommand, State.issue_of_ready _ h]
  rfl

/-- The body of CFGCOMMIT, when its check fails (R173). -/
theorem cfgcommitBody_of_fails {s : State} (h : s.cfgConsistent = false) :
    cfgcommitBody s = .stopped (s.raise .cfgerr) := by
  rw [cfgcommitBody, if_neg (Bool.eq_false_iff.mp h)]

/-- CFGCOMMIT whose check fails does the same whether the host waits for its end or not. -/
theorem State.beginCommand_of_commitFails {s : State} {i : Instr} (h : Ready s i)
    (hc : s.commitFails i = true) : s.beginCommand i = exec i s := by
  rw [State.beginCommand_of_ready h, if_pos hc, exec_of_ready h]
  simp only [State.commitFails, Bool.and_eq_true, beq_iff_eq, Bool.not_eq_true'] at hc
  obtain ⟨rfl, hc⟩ := hc
  rw [bodyOf, cfgcommitBody_of_fails (s := { s with done := false }) hc]
  simp only [Ending.close, State.raise, State.setFault, h.1]

/-- `execAll` runs its first command and goes on from the state it answers. -/
theorem execAll_cons_of_next {i : Instr} {is : List Instr} {s t : State}
    (h : exec i s = .next t) : execAll (i :: is) s = execAll is t := by
  rw [execAll, h]

@[simp] theorem execAll_nil (s : State) : execAll [] s = .next s := rfl

/-! ### The rules' own lists against the tests -/

/-- A condition on some lane of the operand, lane by lane. -/
theorem someLane_iff (s : State) (sel : LaneSel) (clear : Lane → Prop) :
    someLane s sel clear ↔
      (selHas sel .l0 = true ∧ clear s.lane0) ∨ (selHas sel .l1 = true ∧ clear s.lane1) := by
  constructor
  · rintro ⟨l, h1, h2⟩
    cases l
    · exact .inl ⟨h1, h2⟩
    · exact .inr ⟨h1, h2⟩
  · rintro (⟨h1, h2⟩ | ⟨h1, h2⟩)
    · exact ⟨.l0, h1, h2⟩
    · exact ⟨.l1, h1, h2⟩

/-- The list of R197 is the "needs" column of R73. -/
theorem seqNeedFails_iff (s : State) (i : Instr) : seqNeedFails s i ↔ s.needsMet i = false := by
  cases i <;> simp only [seqNeedFails, State.needsMet, needs, State.lanesReady, Instr.lanes,
    someLane_iff, laneReady]
  case round8 sel ksel =>
    by_cases h : ksel = 15#4
    · cases s.cfgok <;> cases selHas sel .l0 <;> cases selHas sel .l1 <;> cases s.lane0.xv <;>
        cases s.lane1.xv <;> simp [h]
    · cases s.cfgok <;> cases selHas sel .l0 <;> cases selHas sel .l1 <;> cases s.lane0.xv <;>
        cases s.lane1.xv <;> cases s.lane0.kv <;> cases s.lane1.kv <;> simp [h]
  case xork8 sel ksel =>
    cases selHas sel .l0 <;> cases selHas sel .l1 <;> cases s.lane0.xv <;> cases s.lane1.xv <;>
      cases s.lane0.kv <;> cases s.lane1.kv <;> simp
  case stx sel =>
    cases selHas sel .l0 <;> cases selHas sel .l1 <;> cases s.lane0.xv <;> cases s.lane1.xv <;> simp
  case mixstep sel =>
    cases s.cfgok <;> cases selHas sel .l0 <;> cases selHas sel .l1 <;> cases s.lane0.mv <;>
      cases s.lane1.mv <;> simp
  all_goals simp

/-- The message check of R75 in words. -/
theorem messageFits_iff (s : State) (i : Instr) :
    s.messageFits i = true ↔ (readsMessage i = true → s.msgLen.toNat ≤ s.build.msgmax) := by
  cases h : readsMessage i <;> simp [State.messageFits, h]

end Sys2Proof.Machine
end

