-- ==== Sys2Proof/Laws/Memory.lean ====
section
/-! SUPPORT. The laws of the memory operations: read after write, the canonical form and the bounds
are kept, and wide accesses byte by byte. -/

namespace Sys2Proof.Machine

/-! ### One byte -/

@[simp] theorem Memory.read_nil (a : Nat) : Memory.read [] a = Memory.unlisted := rfl

theorem Memory.read_erase (m : Memory) (a b : Nat) :
    (m.erase a).read b = if b = a then Memory.unlisted else m.read b := by
  induction m with
  | nil => simp [Memory.erase]
  | cons c rest ih =>
    obtain ⟨k, w⟩ := c
    rw [Memory.erase] at ih ⊢
    by_cases hk : k = a
    · subst hk
      by_cases hb : b = k <;> simp_all [Memory.read]
    · by_cases hb : b = k
      · subst hb; simp [Memory.read, hk]
      · simp [Memory.read, hk, hb, ih]

theorem Memory.read_insert (m : Memory) (a b : Nat) (v : Byte) (h : m.read a = Memory.unlisted)
    (hv : ∀ c ∈ m, c.1 ≠ a) :
    (m.insert a v).read b = if b = a then v else m.read b := by
  induction m with
  | nil => simp [Memory.insert, Memory.read]
  | cons c rest ih =>
    obtain ⟨k, w⟩ := c
    have hk : k ≠ a := hv (k, w) (by simp)
    have hr : ∀ c ∈ rest, c.1 ≠ a := fun c hc => hv c (by simp [hc])
    rw [Memory.insert]
    split
    · simp [Memory.read]
    · have ha : Memory.read rest a = Memory.unlisted := by simpa [Memory.read, Ne.symm hk] using h
      by_cases hb : b = k
      · subst hb; simp [Memory.read, hk]
      · simp [Memory.read, hb, ih ha hr]

theorem Memory.erase_keys (m : Memory) (a : Nat) : ∀ c ∈ m.erase a, c.1 ≠ a := by
  intro c hc
  simpa [Memory.erase] using (List.mem_filter.mp hc).2

/-- A read after a write, at the same offset and at any other: on every memory, canonical or not. -/
theorem Memory.read_write (m : Memory) (a b : Nat) (v : Byte) :
    (m.write a v).read b = if b = a then v else m.read b := by
  rw [Memory.write]
  split
  · next h => rw [Memory.read_erase, h]
  · rw [Memory.read_insert _ _ _ _ (by rw [Memory.read_erase]; simp) (m.erase_keys a),
      Memory.read_erase]
    split <;> simp_all

@[simp] theorem Memory.read_write_same (m : Memory) (a : Nat) (v : Byte) :
    (m.write a v).read a = v := by
  simp [Memory.read_write]

theorem Memory.read_write_ne (m : Memory) {a b : Nat} (v : Byte) (h : b ≠ a) :
    (m.write a v).read b = m.read b := by
  simp [Memory.read_write, h]

/-! ### The canonical form -/

theorem Memory.wf_erase {m : Memory} (a : Nat) (h : m.wf = true) : (m.erase a).wf = true := by
  induction m with
  | nil => exact h
  | cons c rest ih =>
    obtain ⟨k, w⟩ := c
    simp only [Memory.wf, Bool.and_eq_true, List.all_eq_true] at h
    have ih' := ih h.2
    rw [Memory.erase] at ih' ⊢
    by_cases hk : k = a
    · simpa [hk] using ih'
    · simp only [List.filter_cons, bne_iff_ne, ne_eq, hk, not_false_eq_true, if_true, Memory.wf,
        Bool.and_eq_true, List.all_eq_true]
      exact ⟨⟨by simpa using h.1.1, fun c hc => h.1.2 c (List.mem_of_mem_filter hc)⟩, ih'⟩

theorem Memory.mem_insert {m : Memory} {a : Nat} {v : Byte} {c : Host.Cell}
    (h : c ∈ m.insert a v) : c = (a, v) ∨ c ∈ m := by
  induction m with
  | nil => simpa [Memory.insert] using h
  | cons d rest ih =>
    obtain ⟨k, w⟩ := d
    rw [Memory.insert] at h
    split at h
    · simpa using h
    · rcases List.mem_cons.mp h with h | h
      · exact .inr (by simp [h])
      · exact (ih h).imp_right (by simp [·])

theorem Memory.wf_insert {m : Memory} {a : Nat} {v : Byte} (hv : v ≠ Memory.unlisted)
    (hk : ∀ c ∈ m, c.1 ≠ a) (h : m.wf = true) : (m.insert a v).wf = true := by
  induction m with
  | nil => simp [Memory.insert, Memory.wf, hv]
  | cons d rest ih =>
    obtain ⟨k, w⟩ := d
    have hne : k ≠ a := hk (k, w) (by simp)
    simp only [Memory.wf, Bool.and_eq_true, List.all_eq_true, decide_eq_true_eq] at h
    rw [Memory.insert]
    split
    · next hlt =>
      simp only [Memory.wf, Bool.and_eq_true, List.all_eq_true, decide_eq_true_eq, bne_iff_ne]
      refine ⟨⟨hv, fun c hc => ?_⟩, ⟨by simpa using h.1.1, h.1.2⟩, h.2⟩
      rcases List.mem_cons.mp hc with rfl | hc
      · exact hlt
      · exact hlt.trans (h.1.2 c hc)
    · next hlt =>
      simp only [Memory.wf, Bool.and_eq_true, List.all_eq_true, decide_eq_true_eq]
      refine ⟨⟨h.1.1, fun c hc => ?_⟩, ih (fun c hc => hk c (by simp [hc])) h.2⟩
      rcases Memory.mem_insert hc with rfl | hc
      · exact lt_of_le_of_ne (Nat.le_of_not_lt hlt) hne
      · exact h.1.2 c hc

/-- A write keeps the canonical form. -/
theorem Memory.wf_write {m : Memory} (a : Nat) (v : Byte) (h : m.wf = true) :
    (m.write a v).wf = true := by
  rw [Memory.write]
  split
  · exact Memory.wf_erase a h
  · next hv => exact Memory.wf_insert hv (m.erase_keys a) (Memory.wf_erase a h)

/-- A write inside a space keeps every entry inside it. -/
theorem Memory.within_write {m : Memory} {a size : Nat} (v : Byte) (ha : a < size)
    (h : m.within size = true) : (m.write a v).within size = true := by
  simp only [Memory.within, List.all_eq_true, decide_eq_true_eq] at h ⊢
  intro c hc
  have herase : ∀ c ∈ m.erase a, c.1 < size := fun c hc => h c (List.mem_of_mem_filter hc)
  rw [Memory.write] at hc
  split at hc
  · exact herase c hc
  · rcases Memory.mem_insert hc with rfl | hc
    · exact ha
    · exact herase c hc

theorem Memory.read_lt_of_wf {k : Nat} {w : Byte} {rest : Memory}
    (h : Memory.wf ((k, w) :: rest) = true) {a : Nat} (ha : a ≤ k) :
    Memory.read rest a = Memory.unlisted := by
  simp only [Memory.wf, Bool.and_eq_true, List.all_eq_true, decide_eq_true_eq] at h
  have hr : ∀ c ∈ rest, k < c.1 := h.1.2
  clear h
  induction rest with
  | nil => rfl
  | cons d rest ih =>
    obtain ⟨k', w'⟩ := d
    have hk' : k < k' := hr (k', w') (by simp)
    rw [Memory.read, if_neg (by omega)]
    exact ih fun c hc => hr c (by simp [hc])

/-- Canonical memories that read alike are equal: equal memories are equal data. -/
theorem Memory.ext_of_wf {m n : Memory} (hm : m.wf = true) (hn : n.wf = true)
    (h : ∀ a, m.read a = n.read a) : m = n := by
  induction m generalizing n with
  | nil =>
    cases n with
    | nil => rfl
    | cons d rest =>
      obtain ⟨k, w⟩ := d
      have := h k
      simp only [Memory.wf, Bool.and_eq_true, bne_iff_ne] at hn
      simp only [Memory.read, if_true] at this
      exact absurd this.symm hn.1.1
  | cons c rest ih =>
    obtain ⟨k, w⟩ := c
    have hm' := hm
    simp only [Memory.wf, Bool.and_eq_true, bne_iff_ne] at hm'
    cases n with
    | nil =>
      have := h k
      simp only [Memory.read, if_true] at this
      exact absurd this hm'.1.1
    | cons d rest' =>
      obtain ⟨k', w'⟩ := d
      have hn' := hn
      simp only [Memory.wf, Bool.and_eq_true, bne_iff_ne] at hn'
      rcases Nat.lt_trichotomy k k' with hlt | heq | hgt
      · have := h k
        rw [Memory.read, if_pos rfl, Memory.read, if_neg (by omega),
          Memory.read_lt_of_wf hn (by omega)] at this
        exact absurd this hm'.1.1
      · subst heq
        have hw := h k
        rw [Memory.read, if_pos rfl, Memory.read, if_pos rfl] at hw
        subst hw
        congr 1
        refine ih hm'.2 hn'.2 fun a => ?_
        by_cases ha : a ≤ k
        · rw [Memory.read_lt_of_wf hm ha, Memory.read_lt_of_wf hn ha]
        · have := h a
          rwa [Memory.read, if_neg (by omega), Memory.read, if_neg (by omega)] at this
      · have := h k'
        rw [Memory.read, if_neg (by omega), Memory.read_lt_of_wf hm (by omega), Memory.read,
          if_pos rfl] at this
        exact absurd this.symm hn'.1.1

/-! ### Several bytes -/

/-- A read after storing several bytes. -/
theorem Memory.read_writeBytes (m : Memory) (a : Nat) (bs : List Byte) (b : Nat) :
    (m.writeBytes a bs).read b =
      if a ≤ b ∧ b < a + bs.length then bs.getD (b - a) Memory.unlisted else m.read b := by
  induction bs generalizing m a with
  | nil => simp [Memory.writeBytes]
  | cons v vs ih =>
    rw [Memory.writeBytes, ih, Memory.read_write]
    by_cases h1 : b = a
    · subst h1
      rw [if_neg (by omega), if_pos rfl, if_pos (by simp)]
      simp
    · by_cases h2 : a + 1 ≤ b ∧ b < a + 1 + vs.length
      · rw [if_pos h2, if_pos (by simp only [List.length_cons]; omega)]
        obtain ⟨n, hn⟩ : ∃ n, b - a = n + 1 := ⟨b - a - 1, by omega⟩
        rw [hn, List.getD_cons_succ, show b - (a + 1) = n by omega]
      · rw [if_neg h2, if_neg h1, if_neg (by simp only [List.length_cons]; omega)]

theorem Memory.wf_writeBytes {m : Memory} (a : Nat) (bs : List Byte) (h : m.wf = true) :
    (m.writeBytes a bs).wf = true := by
  induction bs generalizing m a with
  | nil => exact h
  | cons v vs ih => exact ih _ (Memory.wf_write a v h)

theorem Memory.within_writeBytes {m : Memory} {a size : Nat} (bs : List Byte)
    (ha : a + bs.length ≤ size) (h : m.within size = true) :
    (m.writeBytes a bs).within size = true := by
  induction bs generalizing m a with
  | nil => exact h
  | cons v vs ih =>
    simp only [List.length_cons] at ha
    exact ih (by omega) (Memory.within_write v (by omega) h)

@[simp] theorem Memory.length_readBytes (m : Memory) (a n : Nat) :
    (m.readBytes a n).length = n := by
  induction n generalizing a with
  | zero => rfl
  | succ n ih => simp [Memory.readBytes, ih]

theorem Memory.getD_readBytes (m : Memory) (a n i : Nat) (d : Byte) (h : i < n) :
    (m.readBytes a n).getD i d = m.read (a + i) := by
  induction n generalizing a i with
  | zero => omega
  | succ n ih =>
    cases i with
    | zero => simp [Memory.readBytes]
    | succ i => rw [Memory.readBytes, List.getD_cons_succ, ih _ _ (by omega)]; congr 1; omega

/-- Bytes read depend on the bytes at their offsets alone. -/
theorem Memory.readBytes_congr {m m' : Memory} {a n : Nat}
    (h : ∀ b, a ≤ b → b < a + n → m.read b = m'.read b) : m.readBytes a n = m'.readBytes a n := by
  induction n generalizing a with
  | zero => rfl
  | succ n ih =>
    rw [Memory.readBytes, Memory.readBytes, h a (by omega) (by omega),
      ih fun b h1 h2 => h b (by omega) (by omega)]

/-- Bytes just stored are read back. -/
theorem Memory.readBytes_writeBytes (m : Memory) (a : Nat) (bs : List Byte) :
    (m.writeBytes a bs).readBytes a bs.length = bs := by
  apply List.ext_getElem (by simp)
  intro i h1 h2
  have := Memory.getD_readBytes (m.writeBytes a bs) a bs.length i Memory.unlisted h2
  rw [List.getD_eq_getElem _ _ h1] at this
  rw [this, Memory.read_writeBytes, if_pos (by omega), Nat.add_sub_cancel_left,
    List.getD_eq_getElem _ _ h2]

/-- Storing somewhere else leaves the bytes read as they were. -/
theorem Memory.readBytes_writeBytes_disjoint (m : Memory) {a n b : Nat} (bs : List Byte)
    (h : a + n ≤ b ∨ b + bs.length ≤ a) :
    (m.writeBytes b bs).readBytes a n = m.readBytes a n := by
  apply Memory.readBytes_congr
  intro c h1 h2
  rw [Memory.read_writeBytes, if_neg (by omega)]

theorem Memory.wf_ofBytes (bs : List Byte) : (Memory.ofBytes bs).wf = true :=
  Memory.wf_writeBytes 0 bs rfl

theorem Memory.within_ofBytes {bs : List Byte} {size : Nat} (h : bs.length ≤ size) :
    (Memory.ofBytes bs).within size = true :=
  Memory.within_writeBytes bs (by omega) rfl

theorem Memory.read_ofBytes (bs : List Byte) (a : Nat) :
    (Memory.ofBytes bs).read a = bs.getD a Memory.unlisted := by
  rw [Memory.ofBytes, Memory.read_writeBytes]
  by_cases h : a < bs.length
  · simp [h]
  · rw [if_neg (by omega), List.getD_eq_default _ _ (by omega), Memory.read_nil]

theorem Memory.wf_ofCells (size : Nat) (cs : List Host.Cell) :
    (Memory.ofCells size cs).wf = true := by
  induction cs with
  | nil => rfl
  | cons c rest ih =>
    rw [Memory.ofCells]
    split
    · exact Memory.wf_write _ _ ih
    · exact ih

theorem Memory.within_ofCells (size : Nat) (cs : List Host.Cell) :
    (Memory.ofCells size cs).within size = true := by
  induction cs with
  | nil => rfl
  | cons c rest ih =>
    rw [Memory.ofCells]
    split
    · next h => exact Memory.within_write _ h ih
    · exact ih

/-! ### Byte order -/

@[simp] theorem length_leBytes (n v : Nat) : (leBytes n v).length = n := by
  induction n generalizing v with
  | zero => rfl
  | succ n ih => simp [leBytes, ih]

theorem leValue_lt (bs : List Byte) : leValue bs < 256 ^ bs.length := by
  induction bs with
  | nil => simp [leValue]
  | cons b bs ih =>
    have := b.isLt
    rw [leValue, List.length_cons, Nat.pow_succ]
    omega

/-- The bytes of a number stand for that number, cut to their width. -/
theorem leValue_leBytes (n v : Nat) : leValue (leBytes n v) = v % 256 ^ n := by
  induction n generalizing v with
  | zero => simp [leBytes, leValue, Nat.mod_one]
  | succ n ih =>
    rw [leBytes, leValue, ih, BitVec.toNat_ofNat, show (256 : Nat) ^ (n + 1) = 256 * 256 ^ n from
      Nat.pow_succ', Nat.mod_mul]

theorem leBytes_leValue (bs : List Byte) : leBytes bs.length (leValue bs) = bs := by
  induction bs with
  | nil => rfl
  | cons b bs ih =>
    have hb := b.isLt
    rw [List.length_cons, leBytes, leValue]
    have h1 : (b.toNat + 256 * leValue bs) / 256 = leValue bs := by omega
    rw [h1, ih]
    congr 1
    apply BitVec.eq_of_toNat_eq
    rw [BitVec.toNat_ofNat]
    omega

theorem getD_leBytes (n v j : Nat) (h : j < n) :
    (leBytes n v).getD j Memory.unlisted = BitVec.ofNat 8 (v / 256 ^ j) := by
  induction n generalizing v j with
  | zero => omega
  | succ n ih =>
    cases j with
    | zero => simp [leBytes]
    | succ j =>
      rw [leBytes, List.getD_cons_succ, ih _ _ (by omega), Nat.pow_succ, Nat.mul_comm (256 ^ j),
        Nat.div_div_eq_div_mul]

/-- Byte j of a block is what `leBytes` puts at place j. -/
theorem byteOf_eq_ofNat (v : Block) (j : Nat) : byteOf v j = BitVec.ofNat 8 (v.toNat / 256 ^ j) := by
  apply BitVec.eq_of_toNat_eq
  rw [byteOf, BitVec.extractLsb'_toNat, BitVec.toNat_ofNat, Nat.shiftRight_eq_div_pow,
    Nat.pow_mul]

/-- A byte read after a 16-byte store (R50). -/
theorem Memory.read_write128 (m : Memory) (a b : Nat) (v : Block) :
    (m.write128 a v).read b = if a ≤ b ∧ b < a + 16 then byteOf v (b - a) else m.read b := by
  rw [Memory.write128, Memory.read_writeBytes, length_leBytes]
  split
  · next h => rw [getD_leBytes _ _ _ (by omega), byteOf_eq_ofNat]
  · rfl

/-- A byte read after an 8-byte store (R50). -/
theorem Memory.read_write64 (m : Memory) (a b : Nat) (v : Word) :
    (m.write64 a v).read b =
      if a ≤ b ∧ b < a + 8 then v.extractLsb' (8 * (b - a)) 8 else m.read b := by
  rw [Memory.write64, Memory.read_writeBytes, length_leBytes]
  split
  · next h =>
    rw [getD_leBytes _ _ _ (by omega)]
    apply BitVec.eq_of_toNat_eq
    rw [BitVec.extractLsb'_toNat, BitVec.toNat_ofNat, Nat.shiftRight_eq_div_pow, Nat.pow_mul]
  · rfl

/-- A block just stored is read back. -/
@[simp] theorem Memory.read128_write128 (m : Memory) (a : Nat) (v : Block) :
    (m.write128 a v).read128 a = v := by
  have h := m.readBytes_writeBytes a (leBytes 16 v.toNat)
  rw [length_leBytes] at h
  rw [Memory.read128, Memory.write128, h, leValue_leBytes, Nat.mod_eq_of_lt (by simpa using v.isLt)]
  simp

/-- A word just stored is read back. -/
@[simp] theorem Memory.read64_write64 (m : Memory) (a : Nat) (v : Word) :
    (m.write64 a v).read64 a = v := by
  have h := m.readBytes_writeBytes a (leBytes 8 v.toNat)
  rw [length_leBytes] at h
  rw [Memory.read64, Memory.write64, h, leValue_leBytes, Nat.mod_eq_of_lt (by simpa using v.isLt)]
  simp

theorem Memory.read128_write128_disjoint (m : Memory) {a b : Nat} (v : Block)
    (h : a + 16 ≤ b ∨ b + 16 ≤ a) : (m.write128 b v).read128 a = m.read128 a := by
  rw [Memory.read128, Memory.write128,
    Memory.readBytes_writeBytes_disjoint _ _ (by simpa using h), Memory.read128]

theorem Memory.read128_congr {m m' : Memory} {a : Nat}
    (h : ∀ b, a ≤ b → b < a + 16 → m.read b = m'.read b) : m.read128 a = m'.read128 a := by
  rw [Memory.read128, Memory.readBytes_congr h, Memory.read128]

theorem Memory.read64_congr {m m' : Memory} {a : Nat}
    (h : ∀ b, a ≤ b → b < a + 8 → m.read b = m'.read b) : m.read64 a = m'.read64 a := by
  rw [Memory.read64, Memory.readBytes_congr h, Memory.read64]

theorem Memory.wf_write128 {m : Memory} (a : Nat) (v : Block) (h : m.wf = true) :
    (m.write128 a v).wf = true := Memory.wf_writeBytes a _ h

theorem Memory.wf_write64 {m : Memory} (a : Nat) (v : Word) (h : m.wf = true) :
    (m.write64 a v).wf = true := Memory.wf_writeBytes a _ h

theorem Memory.within_write128 {m : Memory} {a size : Nat} (v : Block) (ha : a + 16 ≤ size)
    (h : m.within size = true) : (m.write128 a v).within size = true :=
  Memory.within_writeBytes _ (by simpa using ha) h

theorem Memory.within_write64 {m : Memory} {a size : Nat} (v : Word) (ha : a + 8 ≤ size)
    (h : m.within size = true) : (m.write64 a v).within size = true :=
  Memory.within_writeBytes _ (by simpa using ha) h

end Sys2Proof.Machine
end

