-- ==== Sys2Proof/Laws/Lanes.lean ====
section
/-! SUPPORT. The laws of the shared operations on lanes: loops, the stores of several blocks, doing
the same on the lanes a command names, and that every command's work on a lane keeps its memories
canonical and in their spaces. -/

namespace Sys2Proof.Machine

/-! ### Loops -/

@[simp] theorem loopUp_zero {α : Type} (f : Nat → α → α) (a : α) : loopUp 0 f a = a := rfl

theorem loopUp_succ {α : Type} (n : Nat) (f : Nat → α → α) (a : α) :
    loopUp (n + 1) f a = f n (loopUp n f a) := rfl

/-- What holds before a loop and is kept by each of its turns holds after it. -/
theorem loopUp_invariant {α : Type} (P : α → Prop) (n : Nat) (f : Nat → α → α) {a : α} (ha : P a)
    (hf : ∀ c b, c < n → P b → P (f c b)) : P (loopUp n f a) := by
  induction n with
  | zero => exact ha
  | succ n ih => exact hf n _ (by omega) (ih fun c b hc => hf c b (by omega))

/-- A loop that never looks at its counter applies one function again and again. -/
theorem loopUp_const {α : Type} (n : Nat) (f : α → α) (a : α) :
    loopUp n (fun _ => f) a = times f n a := by
  induction n with
  | zero => rfl
  | succ n ih => rw [loopUp_succ, ih]; rfl

/-- A loop whose turns a function commutes with. -/
theorem loopUp_map {α β : Type} (g : α → β) (n : Nat) (f : Nat → α → α) (f' : Nat → β → β) (a : α)
    (h : ∀ c b, c < n → g (f c b) = f' c (g b)) : g (loopUp n f a) = loopUp n f' (g a) := by
  induction n with
  | zero => rfl
  | succ n ih =>
    rw [loopUp_succ, loopUp_succ, h _ _ (by omega), ih fun c b hc => h c b (by omega)]

/-! ### The lanes of a state -/

/-- A state is its lanes and its other fields. -/
theorem State.ext_lanes {s t : State} (h : ∀ l, s.lane l = t.lane l)
    (hrest : s = { t with lane0 := s.lane0, lane1 := s.lane1 }) : s = t := by
  rw [hrest]
  have h0 : s.lane0 = t.lane0 := h .l0
  have h1 : s.lane1 = t.lane1 := h .l1
  rw [h0, h1]

/-- What doing something on the lanes of an operand leaves: the other fields as they were, and the
lanes as `State.onLanes_lane` says. -/
theorem State.onLanes_rest (s : State) (sel : LaneSel) (f : Lane → Lane) :
    s.onLanes sel f =
      { s with lane0 := (s.onLanes sel f).lane0, lane1 := (s.onLanes sel f).lane1 } := rfl

theorem State.onLanes_lane_of_has {s : State} {sel : LaneSel} (f : Lane → Lane) {l : LaneId}
    (h : selHas sel l = true) : (s.onLanes sel f).lane l = f (s.lane l) := by
  rw [State.onLanes_lane, if_pos h]

theorem State.onLanes_lane_of_not_has {s : State} {sel : LaneSel} (f : Lane → Lane) {l : LaneId}
    (h : selHas sel l = false) : (s.onLanes sel f).lane l = s.lane l := by
  rw [State.onLanes_lane, if_neg (by simp [h])]

/-- Both lanes are one lane and then the other, in either order (R61). -/
theorem State.onLanes_both (s : State) (f : Lane → Lane) :
    s.onLanes .both f = (s.onLanes (.one .l0) f).onLanes (.one .l1) f
      ∧ s.onLanes .both f = (s.onLanes (.one .l1) f).onLanes (.one .l0) f :=
  ⟨rfl, rfl⟩

/-- Doing nothing on the lanes does nothing. -/
theorem State.onLanes_id (s : State) (sel : LaneSel) : s.onLanes sel (fun ln => ln) = s := by
  simp [State.onLanes]

/-- A loop of turns on the lanes of an operand is the turns of each lane on its own (R61). -/
theorem State.loopUp_onLanes (s : State) (sel : LaneSel) (n : Nat) (f : Nat → Lane → Lane) :
    loopUp n (fun c t => State.onLanes t sel (f c)) s = s.onLanes sel (loopUp n f) := by
  induction n with
  | zero => exact (State.onLanes_id s sel).symm
  | succ n ih => rw [loopUp_succ, ih, State.onLanes_onLanes]; rfl

/-! ### The stores of several blocks (R52) -/

theorem Memory.wf_storeBlocks {m : Memory} (a : Nat) (bs : List Block) (h : m.wf = true) :
    (storeBlocks m a bs).wf = true := by
  induction bs generalizing m a with
  | nil => exact h
  | cons b bs ih => exact ih _ (Memory.wf_write128 a b h)

theorem Memory.within_storeBlocks {m : Memory} {a size : Nat} (bs : List Block)
    (ha : a + 16 * bs.length ≤ size) (h : m.within size = true) :
    (storeBlocks m a bs).within size = true := by
  induction bs generalizing m a with
  | nil => exact h
  | cons b bs ih =>
    simp only [List.length_cons] at ha
    exact ih (by omega) (Memory.within_write128 b (by omega) h)

/-- A byte read after storing blocks one after another. -/
theorem Memory.read_storeBlocks (m : Memory) (a : Nat) (bs : List Block) (b : Nat) :
    (storeBlocks m a bs).read b =
      if a ≤ b ∧ b < a + 16 * bs.length then byteOf (bs.getD ((b - a) / 16) 0#128) ((b - a) % 16)
      else m.read b := by
  induction bs generalizing m a with
  | nil => rw [storeBlocks, if_neg (by simp only [List.length_nil]; omega)]
  | cons v vs ih =>
    rw [storeBlocks, ih, Memory.read_write128]
    simp only [List.length_cons]
    by_cases h1 : a ≤ b ∧ b < a + 16
    · rw [if_neg (by omega), if_pos h1, if_pos (by omega),
        show (b - a) / 16 = 0 by omega, show (b - a) % 16 = b - a by omega, List.getD_cons_zero]
    · by_cases h2 : a + 16 ≤ b ∧ b < a + 16 + 16 * vs.length
      · rw [if_pos h2, if_pos (by omega)]
        obtain ⟨n, hn⟩ : ∃ n, (b - a) / 16 = n + 1 := ⟨(b - a) / 16 - 1, by omega⟩
        rw [hn, List.getD_cons_succ, show (b - (a + 16)) / 16 = n by omega,
          show (b - (a + 16)) % 16 = (b - a) % 16 by omega]
      · rw [if_neg h2, if_neg h1, if_neg (by omega)]

/-- Outside the blocks stored nothing changes. -/
theorem Memory.read128_storeBlocks_outside (m : Memory) {a b : Nat} (bs : List Block)
    (h : b + 16 ≤ a ∨ a + 16 * bs.length ≤ b) :
    (storeBlocks m a bs).read128 b = m.read128 b := by
  apply Memory.read128_congr
  intro c h1 h2
  rw [Memory.read_storeBlocks, if_neg (by omega)]

/-- Block i is read back where it was stored. -/
theorem Memory.read128_storeBlocks (m : Memory) (a : Nat) (bs : List Block) (i : Nat)
    (hi : i < bs.length) : (storeBlocks m a bs).read128 (a + 16 * i) = bs.getD i 0#128 := by
  induction bs generalizing m a i with
  | nil => simp at hi
  | cons v vs ih =>
    rw [storeBlocks]
    cases i with
    | zero =>
      rw [Memory.read128_storeBlocks_outside _ _ (by omega), Nat.mul_zero, Nat.add_zero,
        Memory.read128_write128, List.getD_cons_zero]
    | succ i =>
      have := ih (m.write128 a v) (a + 16) i (by simpa using hi)
      rw [List.getD_cons_succ, ← this]
      congr 1
      omega

/-! ### Every command's work on a lane keeps its memories canonical and in their spaces -/

/-- The memories of a lane are canonical and in their spaces, taken apart. -/
theorem Lane.memoriesWf_iff (b : Build) (ln : Lane) :
    ln.memoriesWf b = true ↔
      (ln.hs.wf = true ∧ ln.hs.within 200 = true) ∧ (ln.sp.wf = true ∧ ln.sp.within b.spmax = true)
        ∧ (ln.dig.wf = true ∧ ln.dig.within 32 = true) := by
  simp only [Lane.memoriesWf, Bool.and_eq_true]
  tauto

theorem Lane.memoriesWf_reset (b : Build) : Lane.reset.memoriesWf b = true := by
  simp [Lane.memoriesWf, Lane.reset, Memory.wf, Memory.within]

theorem Lane.memoriesWf_keygenLane {b : Build} {ln : Lane} (hw : Bool) (src : KeySrc)
    (h : ln.memoriesWf b = true) : (keygenLane hw src ln).memoriesWf b = true := h

theorem Lane.memoriesWf_ldxLane {b : Build} {ln : Lane} (h : ln.memoriesWf b = true) :
    (ldxLane ln).memoriesWf b = true := h

theorem Lane.memoriesWf_round8Lane {b : Build} {ln : Lane} (hw : Bool) (ksel : BitVec 4)
    (h : ln.memoriesWf b = true) : (round8Lane hw ksel ln).memoriesWf b = true := h

theorem Lane.memoriesWf_xork8Lane {b : Build} {ln : Lane} (ksel : BitVec 4)
    (h : ln.memoriesWf b = true) : (xork8Lane ksel ln).memoriesWf b = true := h

theorem Lane.memoriesWf_mixinitLane {b : Build} {ln : Lane} (h : ln.memoriesWf b = true) :
    (mixinitLane ln).memoriesWf b = true := h

theorem Lane.memoriesWf_stxLane {b : Build} {ln : Lane} (h : ln.memoriesWf b = true) :
    (stxLane ln).memoriesWf b = true := by
  rw [Lane.memoriesWf_iff] at h ⊢
  refine ⟨⟨Memory.wf_storeBlocks _ _ h.1.1, Memory.within_storeBlocks _ ?_ h.1.2⟩, h.2⟩
  simp [blockOffset]

theorem Lane.memoriesWf_explodeChunk {b : Build} {ln : Lane} (mode : RoundSeq) (hw : Bool) {c : Nat}
    (hc : 128 * (c + 1) ≤ b.spmax) (h : ln.memoriesWf b = true) :
    (explodeChunk mode hw c ln).memoriesWf b = true := by
  rw [Lane.memoriesWf_iff] at h ⊢
  refine ⟨h.1, ⟨Memory.wf_storeBlocks _ _ h.2.1.1, Memory.within_storeBlocks _ ?_ h.2.1.2⟩, h.2.2⟩
  simp only [cellOffset, Vector.length_toList]
  omega

theorem Lane.memoriesWf_explodeLane {b : Build} {ln : Lane} (mode : RoundSeq) (hw : Bool) {n : Nat}
    (hn : 128 * n ≤ b.spmax) (h : ln.memoriesWf b = true) :
    (explodeLane mode hw n ln).memoriesWf b = true :=
  loopUp_invariant (fun ln : Lane => ln.memoriesWf b = true) n _
    (Lane.memoriesWf_ldxLane (Lane.memoriesWf_keygenLane hw .explode h))
    fun _ _ hc h => Lane.memoriesWf_explodeChunk mode hw (by omega) h

theorem Lane.memoriesWf_implodeChunk {b : Build} {ln : Lane} (mode : RoundSeq) (hw : Bool) (c : Nat)
    (h : ln.memoriesWf b = true) : (implodeChunk mode hw c ln).memoriesWf b = true := h

theorem Lane.memoriesWf_implodeLane {b : Build} {ln : Lane} (mode : RoundSeq) (hw : Bool) (n : Nat)
    (h : ln.memoriesWf b = true) : (implodeLane mode hw n ln).memoriesWf b = true :=
  Lane.memoriesWf_stxLane <| loopUp_invariant (fun ln : Lane => ln.memoriesWf b = true) n _
    (Lane.memoriesWf_ldxLane (Lane.memoriesWf_keygenLane hw .implode h))
    fun c _ _ h => Lane.memoriesWf_implodeChunk mode hw c h

/-- One iteration of the mixing loop, its two addresses inside the space. -/
theorem Lane.memoriesWf_mixstepLane {b : Build} {ln : Lane} (hw : Bool) {mask : Word}
    (hm : ∀ idx, mixAddress idx mask + 16 ≤ b.spmax) (h : ln.memoriesWf b = true) :
    (mixstepLane hw mask ln).memoriesWf b = true := by
  rw [Lane.memoriesWf_iff] at h ⊢
  refine ⟨h.1, ⟨?_, ?_⟩, h.2.2⟩
  · exact Memory.wf_write64 _ _ (Memory.wf_write64 _ _ (Memory.wf_write128 _ _ h.2.1.1))
  · have h2 := hm (mixFirstHalf hw mask ln).idx
    exact Memory.within_write64 _ (by omega) (Memory.within_write64 _ (by omega)
      (Memory.within_write128 _ (hm ln.idx) h.2.1.2))

theorem Lane.memoriesWf_mixLane {b : Build} {ln : Lane} (hw : Bool) {mask : Word} (n : Nat)
    (hm : ∀ idx, mixAddress idx mask + 16 ≤ b.spmax) (h : ln.memoriesWf b = true) :
    (mixLane hw mask n ln).memoriesWf b = true :=
  loopUp_invariant (fun ln : Lane => ln.memoriesWf b = true) n _ (Lane.memoriesWf_mixinitLane h)
    fun _ _ _ h => Lane.memoriesWf_mixstepLane hw hm h

theorem Lane.memoriesWf_finalLane {b : Build} {ln : Lane} (p : Vector Byte 200)
    (h : ln.memoriesWf b = true) : (finalLane p ln).memoriesWf b = true := by
  rw [Lane.memoriesWf_iff] at h ⊢
  exact ⟨⟨Memory.wf_ofBytes _, Memory.within_ofBytes (by simp)⟩, h.2.1,
    ⟨Memory.wf_ofBytes _, Memory.within_ofBytes (by simp)⟩⟩

@[simp] theorem length_freeBytes (draw : Nat) (slot : Nat → Slot) (n : Nat) :
    (freeBytes draw slot n).length = n := by
  induction n with
  | zero => rfl
  | succ n ih => simp [freeBytes, ih]

theorem Lane.memoriesWf_afterExtFailure {b : Build} {ln : Lane} (l : LaneId) (draw : Nat)
    (h : ln.memoriesWf b = true) : (ln.afterExtFailure l draw).memoriesWf b = true := by
  rw [Lane.memoriesWf_iff] at h ⊢
  simp only [Lane.afterExtFailure, Memory.wf_ofBytes, h.2.1,
    Memory.within_ofBytes (Nat.le_of_eq (length_freeBytes _ _ _)), and_self]

/-- Byte by byte, free bytes are the free values of their draw. -/
theorem getD_freeBytes (draw : Nat) (slot : Nat → Slot) {n j : Nat} (h : j < n) (d : Byte) :
    (freeBytes draw slot n).getD j d = (Config.freeValue draw (slot j)).setWidth 8 := by
  induction n with
  | zero => omega
  | succ n ih =>
    rw [freeBytes, List.getD_eq_getElem?_getD]
    rcases Nat.lt_succ_iff_lt_or_eq.mp h with h | rfl
    · rw [List.getElem?_append_left (by simpa using h), ← List.getD_eq_getElem?_getD, ih h]
    · simp

/-- What a failed collaborator call leaves unspecified in a lane (R198). -/
theorem Lane.lost_afterExtFailure (ln : Lane) (l : LaneId) (draw : Nat) :
    (ln.afterExtFailure l draw).lost l draw :=
  ⟨fun _ h => by rw [Lane.afterExtFailure, Memory.read_ofBytes, getD_freeBytes _ _ h],
    fun _ h => by rw [Lane.afterExtFailure, Memory.read_ofBytes, getD_freeBytes _ _ h], rfl⟩

theorem Lane.memoriesWf_afterReset {b : Build} {ln : Lane} (l : LaneId) (draw : Nat)
    (h : ln.memoriesWf b = true) : (ln.afterReset l draw).memoriesWf b = true := by
  rw [Lane.memoriesWf_iff] at h ⊢
  simp only [Lane.afterReset, Memory.wf_ofBytes, h.1, h.2.1,
    Memory.within_ofBytes (Nat.le_of_eq (length_freeBytes _ _ _)), and_self]

/-! ### The memory of `State.reset` -/

/-- The memories right after reset are canonical and in their spaces. -/
theorem State.memoriesWf_reset : State.reset.memoriesWf = true := by decide

end Sys2Proof.Machine
end

