-- ==== Sys2Proof/Laws/Bodies.lean ====
section
/-! SUPPORT. The laws of the bodies of commands: everything a part of a command can do to the state,
said once for a part that completes and for one that a failed collaborator call stops, and that
parts one after another do no more. -/

namespace Sys2Proof.Machine

/-! ### What no part of a command touches -/

/-- The fields that no part of a command writes (RESET apart). -/
structure Kept (s t : State) : Prop where
  build : t.build = s.build
  msg : t.msg = s.msg
  cfgIter : t.cfgIter = s.cfgIter
  cfgMem : t.cfgMem = s.cfgMem
  cfgMask : t.cfgMask = s.cfgMask
  cfgCtl : t.cfgCtl = s.cfgCtl
  msgLen : t.msgLen = s.msgLen
  cmderr : t.cmderr = s.cmderr
  seqerr : t.seqerr = s.seqerr
  accerr : t.accerr = s.accerr
  seq : t.seq = s.seq
  host : t.host = s.host
  reply : t.reply = s.reply

theorem Kept.refl (s : State) : Kept s s := by constructor <;> rfl

theorem Kept.trans {s t u : State} (h : Kept s t) (h' : Kept t u) : Kept s u where
  build := h'.build.trans h.build
  msg := h'.msg.trans h.msg
  cfgIter := h'.cfgIter.trans h.cfgIter
  cfgMem := h'.cfgMem.trans h.cfgMem
  cfgMask := h'.cfgMask.trans h.cfgMask
  cfgCtl := h'.cfgCtl.trans h.cfgCtl
  msgLen := h'.msgLen.trans h.msgLen
  cmderr := h'.cmderr.trans h.cmderr
  seqerr := h'.seqerr.trans h.seqerr
  accerr := h'.accerr.trans h.accerr
  seq := h'.seq.trans h.seq
  host := h'.host.trans h.host
  reply := h'.reply.trans h.reply

theorem Kept.cfgConsistent {s t : State} (h : Kept s t) : t.cfgConsistent = s.cfgConsistent := by
  simp only [State.cfgConsistent, h.cfgMem, h.cfgMask, h.cfgCtl, h.build]

theorem Kept.hwPath {s t : State} (h : Kept s t) : t.hwPath = s.hwPath := by
  simp only [State.hwPath, h.cfgCtl]

theorem Kept.chunks {s t : State} (h : Kept s t) : t.chunks = s.chunks := by
  simp only [State.chunks, h.cfgMem]

theorem Kept.iterations {s t : State} (h : Kept s t) : t.iterations = s.iterations := by
  simp only [State.iterations, h.cfgIter]

theorem Kept.commitFails {s t : State} (h : Kept s t) (i : Instr) :
    t.commitFails i = s.commitFails i := by
  simp only [State.commitFails, h.cfgConsistent]

theorem Kept.legal {s t : State} (h : Kept s t) (i : Instr) : t.legal i = s.legal i := by
  simp only [State.legal, State.lanesPresent, h.build]

/-! ### A part that completes, and one that is stopped -/

/-- What a part of a command on these lanes does when it completes: it works on its lanes alone,
keeps their memories canonical and in their spaces, and sets no flag of STATUS but valid bits. -/
structure PartRuns (sel : LaneSel) (s t : State) : Prop where
  kept : Kept s t
  lanes : ∀ l, selHas sel l = false → t.lane l = s.lane l
  done : t.done = s.done
  cfgok : t.cfgok = s.cfgok
  cfgerr : t.cfgerr = s.cfgerr
  exterr : t.exterr = s.exterr
  memories : s.memoriesWf = true → t.memoriesWf = true

/-- What it does when a collaborator call fails (R198): the same, and EXTERR is set. -/
structure PartFails (sel : LaneSel) (s t : State) : Prop where
  kept : Kept s t
  lanes : ∀ l, selHas sel l = false → t.lane l = s.lane l
  done : t.done = s.done
  cfgok : t.cfgok = s.cfgok
  cfgerr : t.cfgerr = s.cfgerr
  exterr : t.exterr = true
  memories : s.memoriesWf = true → t.memoriesWf = true

/-- The two ways a part ends. -/
def PartEnds (sel : LaneSel) (s : State) : Ending → Prop
  | .completed t => PartRuns sel s t
  | .stopped t => PartFails sel s t

theorem PartRuns.refl (sel : LaneSel) (s : State) : PartRuns sel s s where
  kept := Kept.refl s
  lanes := fun _ _ => rfl
  done := rfl
  cfgok := rfl
  cfgerr := rfl
  exterr := rfl
  memories := id

theorem PartRuns.trans {sel : LaneSel} {s t u : State} (h : PartRuns sel s t)
    (h' : PartRuns sel t u) : PartRuns sel s u where
  kept := h.kept.trans h'.kept
  lanes := fun l hl => (h'.lanes l hl).trans (h.lanes l hl)
  done := h'.done.trans h.done
  cfgok := h'.cfgok.trans h.cfgok
  cfgerr := h'.cfgerr.trans h.cfgerr
  exterr := h'.exterr.trans h.exterr
  memories := fun hs => h'.memories (h.memories hs)

theorem PartRuns.fails {sel : LaneSel} {s t u : State} (h : PartRuns sel s t)
    (h' : PartFails sel t u) : PartFails sel s u where
  kept := h.kept.trans h'.kept
  lanes := fun l hl => (h'.lanes l hl).trans (h.lanes l hl)
  done := h'.done.trans h.done
  cfgok := h'.cfgok.trans h.cfgok
  cfgerr := h'.cfgerr.trans h.cfgerr
  exterr := h'.exterr
  memories := fun hs => h'.memories (h.memories hs)

theorem PartRuns.ends {sel : LaneSel} {s t : State} (h : PartRuns sel s t) {e : Ending}
    (h' : PartEnds sel t e) : PartEnds sel s e :=
  match e, h' with
  | .completed _, h' => h.trans h'
  | .stopped _, h' => h.fails h'

/-- One part after another does no more than a part. -/
theorem PartEnds.andThen {sel : LaneSel} {s : State} {e : Ending} {f : State → Ending}
    (h : PartEnds sel s e) (h' : ∀ t, PartRuns sel s t → PartEnds sel t (f t)) :
    PartEnds sel s (e.andThen f) :=
  match e, h with
  | .completed t, h => h.ends (h' t h)
  | .stopped _, h => h

/-! ### The parts -/

/-- The memories of a state are those of its lanes and MSG. -/
theorem State.memoriesWf_iff (s : State) :
    s.memoriesWf = true ↔ (∀ l, (s.lane l).memoriesWf s.build = true)
      ∧ s.msg.wf = true ∧ s.msg.within (2 * s.build.msgmax) = true := by
  have hall : (∀ l, (s.lane l).memoriesWf s.build = true) ↔
      s.lane0.memoriesWf s.build = true ∧ s.lane1.memoriesWf s.build = true :=
    ⟨fun h => ⟨h .l0, h .l1⟩, fun h l => by cases l; exacts [h.1, h.2]⟩
  rw [hall]
  simp only [State.memoriesWf, Bool.and_eq_true]
  tauto

/-- Work on lanes that keeps their memories canonical and in their spaces. -/
theorem PartRuns.onLanes (s : State) (sel : LaneSel) (f : Lane → Lane)
    (hf : ∀ ln : Lane, ln.memoriesWf s.build = true → (f ln).memoriesWf s.build = true) :
    PartRuns sel s (s.onLanes sel f) where
  kept := by constructor <;> rfl
  lanes := fun _ hl => State.onLanes_lane_of_not_has f hl
  done := rfl
  cfgok := rfl
  cfgerr := rfl
  exterr := rfl
  memories := by
    simp only [State.memoriesWf_iff]
    refine fun ⟨h, hm⟩ => ⟨fun l => ?_, hm⟩
    rw [State.onLanes_lane]
    split
    · exact hf _ (h l)
    · exact h l

/-- The same on one of the lanes of an operand. -/
theorem PartRuns.setLane {s : State} {sel : LaneSel} {l : LaneId} {ln : Lane}
    (hl : selHas sel l = true)
    (h : (s.lane l).memoriesWf s.build = true → ln.memoriesWf s.build = true) :
    PartRuns sel s (s.setLane l ln) where
  kept := by constructor <;> simp
  lanes := fun l' hl' => by
    rw [State.setLane_lane, if_neg fun e => by rw [e, hl] at hl'; cases hl']
  done := by simp
  cfgok := by simp
  cfgerr := by simp
  exterr := by simp
  memories := by
    simp only [State.memoriesWf_iff, State.setLane_build, State.setLane_msg, State.setLane_lane]
    refine fun ⟨hs, hm⟩ => ⟨fun l' => ?_, hm⟩
    split
    · exact h (hs l)
    · exact hs l'

/-- Counting a collaborator call. -/
theorem PartRuns.extCall (sel : LaneSel) (s : State) : PartRuns sel s s.extCall.2 where
  kept := by constructor <;> simp
  lanes := fun _ _ => by simp
  done := by simp
  cfgok := by simp
  cfgerr := by simp
  exterr := by simp
  memories := by simp [State.memoriesWf_iff]

/-- Clearing DV of the lanes (R28). -/
theorem PartRuns.clearDV (sel : LaneSel) (s : State) : PartRuns sel s (s.clearDV sel) :=
  PartRuns.onLanes s sel _ fun _ h => h

/-- A failed collaborator call (R198). -/
theorem PartFails.extFailure (sel : LaneSel) (s : State) : PartFails sel s (s.extFailure sel) where
  kept := by constructor <;> simp
  lanes := fun l hl => by rw [State.extFailure_lane, if_neg (by simp [hl])]
  done := by simp
  cfgok := by simp
  cfgerr := by simp
  exterr := by simp
  memories := by
    simp only [State.memoriesWf_iff, State.extFailure_build, State.extFailure_msg]
    refine fun ⟨h, hm⟩ => ⟨fun l => ?_, hm⟩
    rw [State.extFailure_lane]
    split
    · exact Lane.memoriesWf_afterExtFailure l _ (h l)
    · exact h l

/-- The parts on the lanes of an operand in turn. -/
theorem PartEnds.eachLane {sel : LaneSel} {f : LaneId → State → Ending} (ls : List LaneId)
    (s : State) (hf : ∀ l ∈ ls, ∀ t, PartEnds sel t (f l t)) :
    PartEnds sel s (eachLane f ls s) := by
  induction ls generalizing s with
  | nil => exact PartRuns.refl sel s
  | cons l ls ih =>
    exact PartEnds.andThen (hf l (by simp) s) fun t _ => ih t fun l' hl' => hf l' (by simp [hl'])

theorem selHas_of_mem {sel : LaneSel} {l : LaneId} (h : l ∈ selList sel) : selHas sel l = true := by
  cases sel with
  | one l' =>
    have e : l = l' := by simpa [selList] using h
    simp [selHas, e]
  | both => rfl

theorem State.extCall_message (s : State) (sel : LaneSel) (l : LaneId) :
    s.extCall.2.message sel l = s.message sel l := by
  simp only [State.message, State.extCall_msg, State.extCall_msgLen]

/-- ABSORB on one lane, when its call returns. -/
theorem absorbLane_of_returns {s : State} (sel : LaneSel) (l : LaneId)
    (h : s.extCall.1 = false) :
    absorbLane sel l s = .completed (s.extCall.2.setLane l { s.lane l with
      hs := Memory.ofBytes (Config.spongeAbsorb (s.message sel l)).toList }) := by
  rw [absorbLane, show s.extCall = (false, s.extCall.2) from Prod.ext h rfl]
  simp only []
  rw [State.extCall_lane, State.extCall_message]

/-- ABSORB on one lane, when its call fails. -/
theorem absorbLane_of_fails {s : State} (sel : LaneSel) (l : LaneId)
    (h : s.extCall.1 = true) :
    absorbLane sel l s = .stopped (s.extCall.2.extFailure sel) := by
  rw [absorbLane, show s.extCall = (true, s.extCall.2) from Prod.ext h rfl]

theorem PartEnds.absorbLane {sel : LaneSel} {l : LaneId} (s : State)
    (hl : selHas sel l = true) : PartEnds sel s (absorbLane sel l s) := by
  have hc := PartRuns.extCall sel s
  cases h : s.extCall.1 with
  | true =>
    rw [absorbLane_of_fails sel l h]
    exact hc.fails (PartFails.extFailure sel _)
  | false =>
    rw [absorbLane_of_returns sel l h]
    refine hc.trans (PartRuns.setLane hl fun hw => ?_)
    rw [State.extCall_lane] at hw
    rw [Lane.memoriesWf_iff] at hw ⊢
    exact ⟨⟨Memory.wf_ofBytes _, Memory.within_ofBytes (by simp)⟩, hw.2⟩

theorem PartEnds.finalOnLane {sel : LaneSel} {l : LaneId} (s : State)
    (hl : selHas sel l = true) : PartEnds sel s (finalOnLane sel l s) := by
  rw [Machine.finalOnLane]
  have hc := PartRuns.extCall sel s
  generalize s.extCall = p at hc ⊢
  obtain ⟨b, t⟩ := p
  cases b with
  | true => exact hc.fails (PartFails.extFailure sel t)
  | false =>
    have hc' := PartRuns.extCall sel t
    simp only at hc ⊢
    generalize t.extCall = q at hc' ⊢
    obtain ⟨b, u⟩ := q
    cases b with
    | true => exact (hc.trans hc').fails (PartFails.extFailure sel u)
    | false =>
      exact (hc.trans hc').trans
        (PartRuns.setLane hl fun hw => Lane.memoriesWf_finalLane _ hw)

theorem PartEnds.absorbBody (sel : LaneSel) (s : State) : PartEnds sel s (absorbBody sel s) :=
  PartEnds.eachLane _ s fun _ hl t => PartEnds.absorbLane t (selHas_of_mem hl)

theorem PartEnds.hashAbsorb (sel : LaneSel) (s : State) : PartEnds sel s (hashAbsorb sel s) :=
  (PartRuns.clearDV sel s).ends <|
    PartEnds.eachLane _ _ fun _ hl t => PartEnds.absorbLane t (selHas_of_mem hl)

theorem PartEnds.finalBody (sel : LaneSel) (s : State) : PartEnds sel s (finalBody sel s) :=
  (PartRuns.clearDV sel s).ends <|
    PartEnds.eachLane _ _ fun _ hl t => PartEnds.finalOnLane t (selHas_of_mem hl)

/-! ### Under a consistent tuple -/

/-- MEM is a power of two from 128 to SPMAX (R34, R173). -/
theorem State.mem_of_cfgConsistent {s : State} (h : s.cfgConsistent = true) :
    (∃ k, 7 ≤ k ∧ s.cfgMem.toNat = 2 ^ k) ∧ s.cfgMem.toNat ≤ s.build.spmax := by
  simp only [State.cfgConsistent, isPowerOfTwo, Bool.and_eq_true, bne_iff_ne, beq_iff_eq,
    decide_eq_true_eq] at h
  refine ⟨⟨s.cfgMem.toNat.log2, ?_, h.1.1.1.1.2.symm⟩, h.1.1.2⟩
  by_contra hk
  have h1 := h.1.1.1.1.2
  have h2 := h.1.1.1.2
  have h3 : 2 ^ s.cfgMem.toNat.log2 ≤ 2 ^ 6 := Nat.pow_le_pow_right (by omega) (by omega)
  omega

/-- The chunks fill MEM exactly (R56). -/
theorem State.chunks_of_cfgConsistent {s : State} (h : s.cfgConsistent = true) :
    128 * s.chunks = s.cfgMem.toNat ∧ 1 ≤ s.chunks := by
  obtain ⟨⟨k, hk, hm⟩, -⟩ := State.mem_of_cfgConsistent h
  rw [State.chunks, hm]
  obtain ⟨j, rfl⟩ := Nat.exists_eq_add_of_le hk
  rw [Nat.pow_add]
  have : 0 < 2 ^ j := Nat.two_pow_pos j
  omega

/-- A mixing address is below MEM with room for its cell (R54). -/
theorem State.mixAddress_of_cfgConsistent {s : State} (h : s.cfgConsistent = true) (idx : Word) :
    mixAddress idx s.cfgMask + 16 ≤ s.build.spmax := by
  obtain ⟨⟨k, hk, hm⟩, hs⟩ := State.mem_of_cfgConsistent h
  simp only [State.cfgConsistent, Bool.and_eq_true, beq_iff_eq] at h
  have hmask := h.1.2
  have hle : mixAddress idx s.cfgMask ≤ (s.cfgMem - 1#64).toNat - 15 := by
    rw [mixAddress, hmask]
    have h15 : ∀ x : Word, (idx &&& (x &&& ~~~0xF#64)).toNat ≤ x.toNat / 16 * 16 := by
      intro x
      have e : x &&& ~~~0xF#64 = (x >>> 4) <<< 4 := by
        apply BitVec.eq_of_getLsbD_eq
        intro i hi
        simp only [BitVec.getLsbD_and, BitVec.getLsbD_shiftLeft, BitVec.getLsbD_ushiftRight,
          BitVec.getLsbD_not, hi, decide_true, Bool.true_and]
        by_cases h4 : i < 4
        · have : i = 0 ∨ i = 1 ∨ i = 2 ∨ i = 3 := by omega
          rcases this with rfl | rfl | rfl | rfl <;> simp
        · have hF : (0xF#64).getLsbD i = false := by
            rw [BitVec.getLsbD_ofNat]
            have : Nat.testBit 15 i = false := by
              apply Nat.testBit_lt_two_pow
              calc 15 < 2 ^ 4 := by decide
                _ ≤ 2 ^ i := Nat.pow_le_pow_right (by omega) (by omega)
            simp [this]
          simp [hF, h4, show 4 + (i - 4) = i by omega]
      rw [e]
      calc (idx &&& ((x >>> 4) <<< 4)).toNat ≤ ((x >>> 4) <<< 4).toNat := by
            rw [BitVec.toNat_and]; exact Nat.and_le_right
        _ ≤ x.toNat / 16 * 16 := by
            rw [BitVec.toNat_shiftLeft, BitVec.toNat_ushiftRight, Nat.shiftLeft_eq,
              Nat.shiftRight_eq_div_pow]
            exact Nat.mod_le _ _
    have h1 : (s.cfgMem - 1#64).toNat = 2 ^ k - 1 := by
      have hp : 1 ≤ 2 ^ k := Nat.one_le_two_pow
      rw [BitVec.toNat_sub_of_le (by rw [BitVec.le_def, hm]; simpa using hp), hm]
      rfl
    have h2 := h15 (s.cfgMem - 1#64)
    have h3 : ∃ j, 2 ^ k = 16 * j := ⟨2 ^ (k - 4), by
      rw [show (16 : Nat) = 2 ^ 4 from rfl, ← Nat.pow_add]; congr 1; omega⟩
    obtain ⟨j, hj⟩ := h3
    have : 0 < 2 ^ k := Nat.two_pow_pos k
    omega
  have h1 : (s.cfgMem - 1#64).toNat = 2 ^ k - 1 := by
    have hp : 1 ≤ 2 ^ k := Nat.one_le_two_pow
    rw [BitVec.toNat_sub_of_le (by rw [BitVec.le_def, hm]; simpa using hp), hm]
    rfl
  have : 2 ^ 7 ≤ 2 ^ k := Nat.pow_le_pow_right (by omega) hk
  omega

theorem PartEnds.explodeBody {s : State} (sel : LaneSel) (h : s.cfgConsistent = true) :
    PartEnds sel s (explodeBody sel s) :=
  PartRuns.onLanes s sel _ fun _ hw => Lane.memoriesWf_explodeLane _ _
    (by have := State.chunks_of_cfgConsistent h
        have := (State.mem_of_cfgConsistent h).2
        omega) hw

theorem PartEnds.implodeBody (sel : LaneSel) (s : State) : PartEnds sel s (implodeBody sel s) :=
  PartRuns.onLanes s sel _ fun _ hw => Lane.memoriesWf_implodeLane _ _ _ hw

theorem PartEnds.mixBody {s : State} (sel : LaneSel) (h : s.cfgConsistent = true) :
    PartEnds sel s (mixBody sel s) :=
  PartRuns.onLanes s sel _ fun _ hw =>
    Lane.memoriesWf_mixLane _ _ (State.mixAddress_of_cfgConsistent h) hw

theorem PartEnds.hashBody {s : State} (sel : LaneSel) (h : s.cfgConsistent = true) :
    PartEnds sel s (hashBody sel s) := by
  refine PartEnds.andThen (PartEnds.andThen (PartEnds.andThen (PartEnds.andThen
    (PartEnds.hashAbsorb sel s) fun t ht => ?_) fun t ht => ?_) fun t _ => ?_) fun t _ => ?_
  · exact PartEnds.explodeBody sel (ht.kept.cfgConsistent.trans h)
  · exact PartEnds.mixBody sel (ht.kept.cfgConsistent.trans h)
  · exact PartEnds.implodeBody sel t
  · exact PartEnds.finalBody sel t

/-- The body of every command with lanes is such a part (CFGCOMMIT, NOP and RESET have none). -/
theorem PartEnds.bodyOf {s : State} {i : Instr} {sel : LaneSel} (hi : i.lanes = some sel)
    (h : addressesScratchpad i = true → s.cfgConsistent = true) :
    PartEnds sel s (bodyOf i s) := by
  cases i <;> simp only [Instr.lanes, Option.some.injEq, reduceCtorEq] at hi <;> subst hi
  case absorb => exact PartEnds.absorbBody _ s
  case keygen => exact PartRuns.onLanes s _ _ fun _ hw => hw
  case ldx => exact PartRuns.onLanes s _ _ fun _ hw => hw
  case round8 => exact PartRuns.onLanes s _ _ fun _ hw => hw
  case xork8 => exact PartRuns.onLanes s _ _ fun _ hw => hw
  case stx => exact PartRuns.onLanes s _ _ fun _ hw => Lane.memoriesWf_stxLane hw
  case explode => exact PartEnds.explodeBody _ (h rfl)
  case implode => exact PartEnds.implodeBody _ s
  case mixinit => exact PartRuns.onLanes s _ _ fun _ hw => hw
  case mixstep =>
    exact PartRuns.onLanes s _ _ fun _ hw =>
      Lane.memoriesWf_mixstepLane _ (State.mixAddress_of_cfgConsistent (h rfl)) hw
  case mix => exact PartEnds.mixBody _ (h rfl)
  case final => exact PartEnds.finalBody _ s
  case hash => exact PartEnds.hashBody _ (h rfl)

end Sys2Proof.Machine
end

