-- ==== Sys2Proof/Laws/PerInstr.lean ====
section
/-! SUPPORT. What holds of every command as syntax, one lemma for each constructor: its word lies in
its row of spec/opcode_table.json, whatever its operands are. -/

namespace Sys2Proof.Laws

/-- The rows of spec/opcode_table.json: the mask of the fixed bits of a command's word, and what
they are. -/
def rowOf : Instr → Dword × Dword
  | .nop => (0xFFFFFFFF#32, 0x00000000#32)
  | .cfgcommit => (0xFFFFFFFF#32, 0x00000001#32)
  | .absorb _ => (0xFFFFFF9F#32, 0x00000002#32)
  | .keygen _ _ => (0xFFFFFE9F#32, 0x00000003#32)
  | .ldx _ => (0xFFFFFF9F#32, 0x00000004#32)
  | .round8 _ _ => (0xFFFFF09F#32, 0x00000005#32)
  | .xork8 _ _ => (0xFFFFF09F#32, 0x00000006#32)
  | .stx _ => (0xFFFFFF9F#32, 0x00000007#32)
  | .explode _ => (0xFFFFFF9F#32, 0x00000008#32)
  | .implode _ => (0xFFFFFF9F#32, 0x00000009#32)
  | .mixinit _ => (0xFFFFFF9F#32, 0x0000000A#32)
  | .mixstep _ => (0xFFFFFF9F#32, 0x0000000B#32)
  | .mix _ => (0xFFFFFF9F#32, 0x0000000C#32)
  | .final _ => (0xFFFFFF9F#32, 0x0000000D#32)
  | .hash _ => (0xFFFFFF9F#32, 0x0000000E#32)
  | .reset => (0xFFFFFFFF#32, 0x0000001F#32)

/-- The word of the command lies in its row of the opcode table. -/
def TableRow.Statement (i : Instr) : Prop := encode i &&& (rowOf i).1 = (rowOf i).2

theorem TableRow.nop : TableRow.Statement .nop := by
  rw [TableRow.Statement]; decide

theorem TableRow.cfgcommit : TableRow.Statement .cfgcommit := by
  rw [TableRow.Statement]; decide

/-- Every lane operand, one by one. -/
theorem lanes_cases {p : LaneSel → Prop} (h0 : p (.one .l0)) (h1 : p (.one .l1))
    (h2 : p .both) (sel : LaneSel) : p sel := by
  rcases sel with (_ | _) | _
  exacts [h0, h1, h2]

theorem TableRow.absorb (sel : LaneSel) : TableRow.Statement (.absorb sel) := by
  revert sel
  unfold TableRow.Statement
  exact lanes_cases (by decide) (by decide) (by decide)

theorem TableRow.keygen (sel : LaneSel) (ksrc : KeySrc) :
    TableRow.Statement (.keygen sel ksrc) := by
  cases ksrc <;> revert sel <;> unfold TableRow.Statement <;>
    exact lanes_cases (by decide) (by decide) (by decide)

theorem TableRow.ldx (sel : LaneSel) : TableRow.Statement (.ldx sel) := by
  revert sel
  unfold TableRow.Statement
  exact lanes_cases (by decide) (by decide) (by decide)

theorem TableRow.round8 (sel : LaneSel) (ksel : BitVec 4) :
    TableRow.Statement (.round8 sel ksel) := by
  revert ksel sel
  unfold TableRow.Statement
  exact lanes_cases (by decide) (by decide) (by decide)

theorem TableRow.xork8 (sel : LaneSel) (ksel : BitVec 4) :
    TableRow.Statement (.xork8 sel ksel) := by
  revert ksel sel
  unfold TableRow.Statement
  exact lanes_cases (by decide) (by decide) (by decide)

theorem TableRow.stx (sel : LaneSel) : TableRow.Statement (.stx sel) := by
  revert sel
  unfold TableRow.Statement
  exact lanes_cases (by decide) (by decide) (by decide)

theorem TableRow.explode (sel : LaneSel) : TableRow.Statement (.explode sel) := by
  revert sel
  unfold TableRow.Statement
  exact lanes_cases (by decide) (by decide) (by decide)

theorem TableRow.implode (sel : LaneSel) : TableRow.Statement (.implode sel) := by
  revert sel
  unfold TableRow.Statement
  exact lanes_cases (by decide) (by decide) (by decide)

theorem TableRow.mixinit (sel : LaneSel) : TableRow.Statement (.mixinit sel) := by
  revert sel
  unfold TableRow.Statement
  exact lanes_cases (by decide) (by decide) (by decide)

theorem TableRow.mixstep (sel : LaneSel) : TableRow.Statement (.mixstep sel) := by
  revert sel
  unfold TableRow.Statement
  exact lanes_cases (by decide) (by decide) (by decide)

theorem TableRow.mix (sel : LaneSel) : TableRow.Statement (.mix sel) := by
  revert sel
  unfold TableRow.Statement
  exact lanes_cases (by decide) (by decide) (by decide)

theorem TableRow.final (sel : LaneSel) : TableRow.Statement (.final sel) := by
  revert sel
  unfold TableRow.Statement
  exact lanes_cases (by decide) (by decide) (by decide)

theorem TableRow.hash (sel : LaneSel) : TableRow.Statement (.hash sel) := by
  revert sel
  unfold TableRow.Statement
  exact lanes_cases (by decide) (by decide) (by decide)

theorem TableRow.reset : TableRow.Statement .reset := by
  rw [TableRow.Statement]; decide

end Sys2Proof.Laws
end

