-- ==== Sys2Proof/Laws/Step.lean ====
section
/-! SUPPORT. The laws of a step: everything a host action can do, everything one unit of the
sequencer can do, and which of them a step takes (10_state.md R30 to R32, 20_memory.md R63). -/

namespace Sys2Proof.Machine

/-! ### What a step takes -/

/-- A step of an idle block with nothing queued leaves it as it is (R210). -/
theorem step_idle_nil {s : State} (h : s.seq = none) (hh : s.host = []) : step s = .next s := by
  rw [step, State.stepOnce, State.busy_eq_false h, if_neg (by simp), State.stepIdle, hh]

/-- A step of an idle block takes the host's next action, whatever its moment. -/
theorem step_idle_cons {s : State} {item : HostItem} {rest : List HostItem} (h : s.seq = none)
    (hh : s.host = item :: rest) :
    step s = State.hostAct { s with host := rest } (hostWaits rest) item.action := by
  rw [step, State.stepOnce, State.busy_eq_false h, if_neg (by simp), State.stepIdle, hh]

/-- A step of a busy block takes a host action whose moment has come. -/
theorem step_busy_act {s : State} {q : Sequencer} {a : HostAction} {rest : List HostItem}
    (h : s.seq = some q) (hh : s.host = ⟨.afterUnits 0, a⟩ :: rest) :
    step s = State.hostAct { s with host := rest } (hostWaits rest) a := by
  rw [step, State.stepOnce, State.busy_eq_true h, if_pos rfl, State.stepBusy, hh]

/-- Any other step of a busy block is one unit of the running command, on the state in which the
host's next action comes one unit nearer. -/
theorem step_busy_unit {s : State} {q : Sequencer} (h : s.seq = some q)
    (hh : ∀ a rest, s.host ≠ ⟨.afterUnits 0, a⟩ :: rest) :
    ∃ later, step s = State.unit { s with host := later } := by
  rw [step, State.stepOnce, State.busy_eq_true h, if_pos rfl, State.stepBusy]
  split
  · exact ⟨s.host, rfl⟩
  · exact ⟨s.host, rfl⟩
  · rename_i a rest e; exact absurd e (hh a rest)
  · exact ⟨_, rfl⟩

/-- Everything a step can take. -/
theorem step_cases (s : State) :
    (s.seq = none ∧ s.host = [] ∧ step s = .next s)
    ∨ (∃ item rest, s.host = item :: rest
        ∧ step s = State.hostAct { s with host := rest } (hostWaits rest) item.action)
    ∨ (∃ q later, s.seq = some q ∧ step s = State.unit { s with host := later }) := by
  by_cases hs : s.seq = none
  · match hh : s.host with
    | [] => exact .inl ⟨hs, rfl, step_idle_nil hs hh⟩
    | item :: rest => exact .inr (.inl ⟨item, rest, rfl, step_idle_cons hs hh⟩)
  · obtain ⟨q, hq⟩ := Option.ne_none_iff_exists'.mp hs
    by_cases h : ∃ a rest, s.host = ⟨.afterUnits 0, a⟩ :: rest
    · obtain ⟨a, rest, hh⟩ := h
      exact .inr (.inl ⟨_, rest, hh, step_busy_act hq hh⟩)
    · obtain ⟨later, e⟩ := step_busy_unit hq fun a rest hh => h ⟨a, rest, hh⟩
      exact .inr (.inr ⟨q, later, hq, e⟩)

/-- A step in which the host writes CMD. -/
theorem step_writeCmd {s : State} {tm : Timing} {v : Word} {rest : List HostItem}
    (hh : s.host = ⟨tm, .writeReg 0x00 v⟩ :: rest) (h : s.seq = none ∨ tm = .afterUnits 0) :
    step s = State.writeCmd { s with host := rest } (hostWaits rest) (v.setWidth 32) := by
  by_cases hs : s.seq = none
  · rw [step_idle_cons hs hh]; rfl
  · obtain ⟨q, hq⟩ := Option.ne_none_iff_exists'.mp hs
    rcases h with h | h
    · exact absurd h hs
    · subst h; rw [step_busy_act hq hh]; rfl

/-! ### Host actions -/

/-- A host access that changes at most what it returns, and ACCERR where it is not allowed. -/
def AnswersOnly (s t : State) : Prop :=
  t = { s with accerr := t.accerr, reply := t.reply, freeCount := t.freeCount }
    ∧ (t.accerr = s.accerr ∨ t.accerr = true)

/-- A host write that an idle block takes (R31, R214): a configuration register, MSGLEN, or bytes
inside a window. -/
inductive HostWrites (s : State) : State → Prop
  | cfgIter (v : Word) : HostWrites s { s with cfgIter := v, cfgok := false }
  | cfgMem (v : Word) : HostWrites s { s with cfgMem := v, cfgok := false }
  | cfgMask (v : Word) : HostWrites s { s with cfgMask := v, cfgok := false }
  | cfgCtl (v : Dword) : HostWrites s { s with cfgCtl := v, cfgok := false }
  | msgLen (v : Word) : HostWrites s { s with msgLen := v }
  | msg (offset : Nat) (data : List Byte) (h : offset + data.length ≤ 2 * s.build.msgmax) :
    HostWrites s { s with msg := s.msg.writeBytes offset data }
  | hs (l : LaneId) (offset : Nat) (data : List Byte) (h : offset + data.length ≤ 200) :
    HostWrites s (s.setLane l { s.lane l with hs := (s.lane l).hs.writeBytes offset data })
  | sp (l : LaneId) (offset : Nat) (data : List Byte) (h : offset + data.length ≤ s.build.spmax) :
    HostWrites s (s.setLane l { s.lane l with sp := (s.lane l).sp.writeBytes offset data })

theorem AnswersOnly.refuseWrite (s : State) : AnswersOnly s s.refuseWrite := ⟨rfl, .inr rfl⟩

theorem AnswersOnly.refuseRegRead (s : State) : AnswersOnly s s.refuseRegRead := ⟨rfl, .inr rfl⟩

theorem AnswersOnly.refuseWindowRead (s : State) (n : Nat) : AnswersOnly s (s.refuseWindowRead n) :=
  ⟨rfl, .inr rfl⟩

theorem AnswersOnly.answer (s : State) (v : Block) : AnswersOnly s (s.answer v) := ⟨rfl, .inl rfl⟩

theorem AnswersOnly.answerIf (s : State) (valid : Bool) (width : Nat) (v : Block) :
    AnswersOnly s (s.answerIf valid width v) := by
  rw [State.answerIf]
  split
  · exact ⟨rfl, .inl rfl⟩
  · exact ⟨rfl, .inl rfl⟩

theorem AnswersOnly.readReg (s : State) (n : Nat) : AnswersOnly s (s.readReg n) := by
  rw [State.readReg]
  split
  · exact AnswersOnly.refuseRegRead s
  · exact AnswersOnly.answer s _
  · split
    · exact AnswersOnly.refuseRegRead s
    · rename_i r _ _ _
      cases r <;> simp only [State.readRegIdle]
      case cmd => exact AnswersOnly.refuseRegRead s
      case sel => exact AnswersOnly.answerIf s _ _ _
      case k => exact AnswersOnly.answerIf s _ _ _
      case x => exact AnswersOnly.answerIf s _ _ _
      case idx => exact AnswersOnly.answerIf s _ _ _
      case al => exact AnswersOnly.answerIf s _ _ _
      case ah => exact AnswersOnly.answerIf s _ _ _
      case bx => exact AnswersOnly.answerIf s _ _ _
      all_goals exact AnswersOnly.answer s _

theorem AnswersOnly.readWindow (s : State) (w : Window) (offset count : Nat) :
    AnswersOnly s (s.readWindow w offset count) := by
  rw [State.readWindow.eq_def]
  split
  · exact AnswersOnly.refuseWindowRead s count
  · cases w with
    | msg => exact ⟨rfl, .inl rfl⟩
    | hs l => exact ⟨rfl, .inl rfl⟩
    | sp l => exact ⟨rfl, .inl rfl⟩
    | dig l =>
      simp only
      split
      · exact ⟨rfl, .inl rfl⟩
      · exact ⟨rfl, .inl rfl⟩

/-- Everything a register write, but to CMD, can do (R31, R63, R214). -/
theorem State.writeReg_cases (s : State) (waits : Bool) (n : Nat) (v : Word) :
    (s.regAt n = some .cmd ∧ s.writeReg waits n v = s.writeCmd waits (v.setWidth 32))
    ∨ (∃ t, s.writeReg waits n v = .next t ∧ (AnswersOnly s t ∨ (s.seq = none ∧ HostWrites s t))) := by
  rw [State.writeReg]
  split
  · exact .inr ⟨_, rfl, .inl (AnswersOnly.refuseWrite s)⟩
  · exact .inl ⟨‹_›, rfl⟩
  · split
    · exact .inr ⟨_, rfl, .inl (AnswersOnly.refuseWrite s)⟩
    · next r _ _ hb =>
      have hs : s.seq = none := State.seq_eq_none (by simpa using hb)
      cases r
      case cmd => contradiction
      case cfgIter => exact .inr ⟨_, rfl, .inr ⟨hs, .cfgIter v⟩⟩
      case cfgMem => exact .inr ⟨_, rfl, .inr ⟨hs, .cfgMem v⟩⟩
      case cfgMask => exact .inr ⟨_, rfl, .inr ⟨hs, .cfgMask v⟩⟩
      case cfgCtl => exact .inr ⟨_, rfl, .inr ⟨hs, .cfgCtl _⟩⟩
      case msgLen => exact .inr ⟨_, rfl, .inr ⟨hs, .msgLen v⟩⟩
      all_goals exact .inr ⟨_, rfl, .inl (AnswersOnly.refuseWrite s)⟩

/-- Everything a window write can do (R31, R63). -/
theorem State.writeWindow_cases (s : State) (w : Window) (offset : Nat) (data : List Byte) :
    AnswersOnly s (s.writeWindow w offset data)
      ∨ (s.seq = none ∧ HostWrites s (s.writeWindow w offset data)) := by
  rw [State.writeWindow.eq_def]
  split
  · exact .inl (AnswersOnly.refuseWrite s)
  · next h =>
    simp only [Bool.or_eq_true, not_or, Bool.not_eq_true, Bool.not_eq_false', State.inWindow,
      Bool.and_eq_true, decide_eq_true_eq] at h
    have hs := State.seq_eq_none h.1
    cases w with
    | msg => exact .inr ⟨hs, .msg offset data h.2.2⟩
    | hs l => exact .inr ⟨hs, .hs l offset data h.2.2⟩
    | sp l => exact .inr ⟨hs, .sp l offset data h.2.2⟩
    | dig l => exact .inl (AnswersOnly.refuseWrite s)

/-- Everything a host action can do: a word written to CMD, the reset input, an access that changes
at most its answer and ACCERR, or a write that an idle block takes. -/
theorem State.hostAct_cases (s : State) (waits : Bool) (a : HostAction) :
    (∃ n v, a = .writeReg n v ∧ s.regAt n = some .cmd
        ∧ s.hostAct waits a = s.writeCmd waits (v.setWidth 32))
    ∨ (∃ image, a = .resetInput image ∧ s.hostAct waits a = .next (s.resetInput image))
    ∨ (∃ t, s.hostAct waits a = .next t ∧ (AnswersOnly s t ∨ (s.seq = none ∧ HostWrites s t))) := by
  cases a with
  | readReg n => exact .inr (.inr ⟨_, rfl, .inl (AnswersOnly.readReg s n)⟩)
  | writeReg n v =>
    rcases s.writeReg_cases waits n v with ⟨h, e⟩ | ⟨t, e, h⟩
    · exact .inl ⟨n, v, rfl, h, e⟩
    · exact .inr (.inr ⟨t, e, h⟩)
  | readWindow w offset count =>
    exact .inr (.inr ⟨_, rfl, .inl (AnswersOnly.readWindow s w offset count)⟩)
  | writeWindow w offset data => exact .inr (.inr ⟨_, rfl, s.writeWindow_cases w offset data⟩)
  | resetInput image => exact .inr (.inl ⟨image, rfl, rfl⟩)

/-- Everything a word written to CMD can do (R32, R75). -/
theorem State.writeCmd_cases (s : State) (waits : Bool) (w : Dword) :
    (∃ i, decodeWord w = .ok i ∧ s.writeCmd waits w = if waits then exec i s else s.beginCommand i)
    ∨ ((∃ e, decodeWord w = .error e) ∧ s.writeCmd waits w = .next s.issueIllegal) := by
  rw [State.writeCmd]
  cases h : decodeWord w with
  | ok i => exact .inl ⟨i, rfl, rfl⟩
  | error e => exact .inr ⟨⟨e, rfl⟩, rfl⟩

/-! ### One unit of a running command -/

/-- The end of a part: the next part from its start, or the end of the command. -/
theorem endPart_completed (q : Sequencer) (s : State) :
    endPart q (.completed s) =
      match phaseAfter q.phase (phasesOf q.instr) with
      | some p => { s with seq := some ⟨q.instr, p, 0#64, 0#64⟩ }
      | none => { s with seq := none, done := true } := rfl

theorem endPart_stopped (q : Sequencer) (s : State) :
    endPart q (.stopped s) = { s with seq := none } := rfl

/-- One unit of the sequencer of a command that reads the scratchpad only under a consistent
tuple. -/
theorem State.unit_of_seq {s : State} {q : Sequencer} (h : s.seq = some q)
    (hc : addressesScratchpad q.instr = true → s.cfgConsistent = true) :
    s.unit = .next (runUnit q s) := by
  rw [State.unit, h]
  simp only
  rw [if_neg]
  intro hb
  simp only [Bool.and_eq_true, Bool.not_eq_eq_eq_not, Bool.not_true] at hb
  rw [hc hb.1] at hb
  exact absurd hb.2 (by simp)

end Sys2Proof.Machine
end

