-- ==== Sys2Proof/Laws/Port.lean ====
section
/-! SUPPORT. The laws of a running command beside the host's refused accesses (60_exceptions.md R199):
no unit reads ACCERR, what the host sees or will do, or, but where it draws, the count of free
values. -/

namespace Sys2Proof.Machine

/-- The fields a refused access changes. -/
structure PortView where
  accerr : Bool
  host : List HostItem
  reply : Reply
  freeCount : Nat

/-- The same state with other values of those fields. -/
def State.atPort (s : State) (p : PortView) : State :=
  { s with accerr := p.accerr, host := p.host, reply := p.reply, freeCount := p.freeCount }

/-- A refused access changes those fields alone. -/
theorem RefusedAccess.eq_atPort {s t : State} (h : RefusedAccess s t) :
    t = s.atPort ⟨true, t.host, t.reply, t.freeCount⟩ := h

theorem State.atPort_atPort (s : State) (p p' : PortView) :
    (s.atPort p).atPort p' = s.atPort p' := rfl

@[simp] theorem State.atPort_lane (s : State) (p : PortView) (l : LaneId) :
    (s.atPort p).lane l = s.lane l := by cases l <;> rfl
@[simp] theorem State.atPort_seq (s : State) (p : PortView) : (s.atPort p).seq = s.seq := rfl
@[simp] theorem State.atPort_exterr (s : State) (p : PortView) : (s.atPort p).exterr = s.exterr := rfl
@[simp] theorem State.atPort_cfgConsistent (s : State) (p : PortView) :
    (s.atPort p).cfgConsistent = s.cfgConsistent := rfl

theorem State.atPort_onLanes (s : State) (p : PortView) (sel : LaneSel) (f : Lane → Lane) :
    (s.atPort p).onLanes sel f = (s.onLanes sel f).atPort p := rfl

theorem State.atPort_setLane (s : State) (p : PortView) (l : LaneId) (ln : Lane) :
    (s.atPort p).setLane l ln = (s.setLane l ln).atPort p := by cases l <;> rfl

theorem State.atPort_extCall (s : State) (p : PortView) :
    (s.atPort p).extCall = (s.extCall.1, s.extCall.2.atPort p) := by
  simp only [State.extCall, show (s.atPort p).extFails = s.extFails from rfl]
  split <;> rfl

/-- Two states that a command reaches with the port otherwise: alike but for that, and for the values
that a failed collaborator call draws (R198). -/
structure Alike (p : PortView) (t t' : State) : Prop where
  rest : t' = { t.atPort p with lane0 := t'.lane0, lane1 := t'.lane1, freeCount := t'.freeCount }
  lanes : ∀ l, t'.lane l = { t.lane l with
    hs := (t'.lane l).hs, dig := (t'.lane l).dig, sel := (t'.lane l).sel }

theorem Alike.atPort (p : PortView) (t : State) : Alike p t (t.atPort p) :=
  ⟨rfl, fun l => by rw [State.atPort_lane]⟩

/-- The endings of a part, run with the port as it is and otherwise. -/
inductive EndsAlike (p : PortView) : Ending → Ending → Prop where
  | completed (t : State) : EndsAlike p (.completed t) (.completed (t.atPort p))
  | stopped {t t' : State} (h : Alike p t t') : EndsAlike p (.stopped t) (.stopped t')

theorem Alike.extFailure (p : PortView) (s : State) (sel : LaneSel) :
    Alike p (s.extFailure sel) ((s.atPort p).extFailure sel) where
  rest := rfl
  lanes := fun l => by
    rw [State.extFailure_lane, State.extFailure_lane, State.atPort_lane]
    split <;> simp only [Lane.afterExtFailure]

theorem EndsAlike.eachLane {p : PortView} {f : LaneId → State → Ending} (ls : List LaneId)
    (s : State) (hf : ∀ l t, EndsAlike p (f l t) (f l (t.atPort p))) :
    EndsAlike p (eachLane f ls s) (eachLane f ls (s.atPort p)) := by
  induction ls generalizing s with
  | nil => exact .completed s
  | cons l ls ih =>
    rw [Machine.eachLane, Machine.eachLane]
    have h := hf l s
    revert h
    generalize f l s = e, f l (s.atPort p) = e'
    intro h
    cases h with
    | completed t => exact ih t
    | stopped h => exact .stopped h

theorem EndsAlike.absorbLane (p : PortView) (sel : LaneSel) (l : LaneId) (s : State) :
    EndsAlike p (absorbLane sel l s) (absorbLane sel l (s.atPort p)) := by
  rw [Machine.absorbLane, Machine.absorbLane, State.atPort_extCall]
  generalize s.extCall = c
  obtain ⟨b, t⟩ := c
  cases b with
  | true => exact .stopped (Alike.extFailure p t sel)
  | false =>
    simp only [State.atPort_lane, State.atPort_setLane]
    exact .completed _

theorem EndsAlike.finalOnLane (p : PortView) (sel : LaneSel) (l : LaneId) (s : State) :
    EndsAlike p (finalOnLane sel l s) (finalOnLane sel l (s.atPort p)) := by
  rw [Machine.finalOnLane, Machine.finalOnLane, State.atPort_extCall]
  generalize s.extCall = c
  obtain ⟨b, t⟩ := c
  cases b with
  | true => exact .stopped (Alike.extFailure p t sel)
  | false =>
    simp only [State.atPort_extCall]
    generalize t.extCall = c
    obtain ⟨b, u⟩ := c
    cases b with
    | true => exact .stopped (Alike.extFailure p u sel)
    | false =>
      simp only [State.atPort_lane, State.atPort_setLane]
      exact .completed _

theorem EndsAlike.absorbPart (p : PortView) (i : Instr) (sel : LaneSel) (s : State) :
    EndsAlike p (absorbPart i sel s) (absorbPart i sel (s.atPort p)) := by
  cases i <;> exact EndsAlike.eachLane _ _ (EndsAlike.absorbLane p sel)

theorem EndsAlike.finalBody (p : PortView) (sel : LaneSel) (s : State) :
    EndsAlike p (finalBody sel s) (finalBody sel (s.atPort p)) :=
  EndsAlike.eachLane _ _ (EndsAlike.finalOnLane p sel)

/-- The body of a command without parts, RESET apart. -/
theorem EndsAlike.singleBody {i : Instr} (p : PortView) (h : i ≠ .reset) (s : State) :
    EndsAlike p (singleBody i s) (singleBody i (s.atPort p)) := by
  cases i
  case reset => contradiction
  case cfgcommit =>
    rw [Machine.singleBody, Machine.singleBody, cfgcommitBody, cfgcommitBody,
      State.atPort_cfgConsistent]
    split
    · exact .completed _
    · exact .stopped (Alike.atPort p _)
  all_goals exact .completed _

/-- What a unit leaves, run with the port as it is and otherwise. -/
structure UnitsAlike (p : PortView) (t t' : State) : Prop where
  alike : Alike p t t'
  exact : t.exterr = false → t' = t.atPort p

theorem UnitsAlike.atPort (p : PortView) (t : State) : UnitsAlike p t (t.atPort p) :=
  ⟨Alike.atPort p t, fun _ => rfl⟩

/-- The end of a part, which only a failed call, setting EXTERR, may make unlike. -/
theorem UnitsAlike.endPart {p : PortView} (q : Sequencer) {e e' : Ending} (h : EndsAlike p e e')
    (hx : ∀ t, e = .stopped t → t.exterr = true ∨ e' = .stopped (t.atPort p)) :
    UnitsAlike p (endPart q e) (endPart q e') := by
  cases h with
  | completed t =>
    rw [endPart_completed, endPart_completed]
    split <;> exact UnitsAlike.atPort p _
  | @stopped t t' h =>
    refine ⟨⟨?_, h.lanes⟩, fun hf => ?_⟩
    · rw [endPart_stopped, endPart_stopped, h.rest]; rfl
    · rcases hx t rfl with h1 | h1
      · rw [endPart_stopped] at hf
        rw [show t.exterr = false from hf] at h1
        cases h1
      · injection h1 with h1
        rw [endPart_stopped, endPart_stopped, h1]; rfl

theorem UnitsAlike.explodeUnit (p : PortView) (q : Sequencer) (sel : LaneSel) (s : State) :
    UnitsAlike p (explodeUnit q sel s) (explodeUnit q sel (s.atPort p)) := by
  rw [Machine.explodeUnit, Machine.explodeUnit]
  simp only [show (s.atPort p).chunks = s.chunks from rfl, State.atPort_onLanes]
  split
  · exact UnitsAlike.atPort p _
  · exact UnitsAlike.endPart q (.completed _) fun _ h => by cases h

theorem UnitsAlike.implodeUnit (p : PortView) (q : Sequencer) (sel : LaneSel) (s : State) :
    UnitsAlike p (implodeUnit q sel s) (implodeUnit q sel (s.atPort p)) := by
  rw [Machine.implodeUnit, Machine.implodeUnit]
  simp only [show (s.atPort p).chunks = s.chunks from rfl, State.atPort_onLanes]
  split
  · exact UnitsAlike.atPort p _
  · exact UnitsAlike.endPart q (.completed _) fun _ h => by cases h

theorem UnitsAlike.mixUnit (p : PortView) (q : Sequencer) (sel : LaneSel) (s : State) :
    UnitsAlike p (mixUnit q sel s) (mixUnit q sel (s.atPort p)) := by
  have start : (if q.iter = 0#64 then (s.atPort p).onLanes sel mixinitLane else s.atPort p) =
      (if q.iter = 0#64 then s.onLanes sel mixinitLane else s).atPort p := by
    split <;> rfl
  rw [Machine.mixUnit, Machine.mixUnit, start]
  simp only [show (s.atPort p).iterations = s.iterations from rfl,
    show (s.atPort p).hwPath = s.hwPath from rfl, show (s.atPort p).cfgMask = s.cfgMask from rfl,
    State.atPort_onLanes]
  split
  · split
    · exact UnitsAlike.atPort p _
    · exact UnitsAlike.endPart q (.completed _) fun _ h => by cases h
  · exact UnitsAlike.endPart q (.completed _) fun _ h => by cases h

/-- A part that stops has EXTERR set (R198). -/
theorem PartEnds.exterr_of_stopped {sel : LaneSel} {s t : State} {e : Ending}
    (h : PartEnds sel s e) (he : e = .stopped t) : t.exterr = true := by
  subst he
  exact PartFails.exterr h

/-- A unit of any command but RESET does the same whatever the port shows, but for the values a
failed collaborator call draws: a refused access does not disturb a running command (R199). -/
theorem UnitsAlike.runUnit (p : PortView) {q : Sequencer} (h : q.instr ≠ .reset) (s : State) :
    UnitsAlike p (runUnit q s) (runUnit q (s.atPort p)) := by
  rw [Machine.runUnit, Machine.runUnit]
  split
  · refine UnitsAlike.endPart q (EndsAlike.singleBody p h s) fun t ht => .inr ?_
    revert ht h
    cases q.instr
    case reset => intro h; contradiction
    case cfgcommit =>
      intro _ ht
      rw [singleBody] at ht ⊢
      cases hc : s.cfgConsistent with
      | true => rw [cfgcommitBody, if_pos hc] at ht; cases ht
      | false =>
        rw [cfgcommitBody_of_fails hc] at ht
        cases ht
        exact cfgcommitBody_of_fails (s := s.atPort p) hc
    all_goals intro _ ht; cases ht
  · refine UnitsAlike.endPart q (EndsAlike.absorbPart p _ _ s) fun t ht => .inl ?_
    revert ht
    cases q.instr
    case hash => exact (PartEnds.hashAbsorb _ s).exterr_of_stopped
    all_goals exact (PartEnds.absorbBody _ s).exterr_of_stopped
  · exact UnitsAlike.explodeUnit p q _ s
  · exact UnitsAlike.mixUnit p q _ s
  · exact UnitsAlike.implodeUnit p q _ s
  · exact UnitsAlike.endPart q (EndsAlike.finalBody p _ s) fun t ht =>
      .inl ((PartEnds.finalBody _ s).exterr_of_stopped ht)

end Sys2Proof.Machine
end

