-- ==== Sys2Proof/Tests/Slice0.lean ====
section
/-! SUPPORT. The model's own tests: ill-formed terms, words decoded, the worked examples and fault
vectors of spec/ (each expected value is the spec's, the place named), and for every statement with
hypotheses a state that meets them. -/

namespace Sys2Proof.Tests

open Sys2Proof
open Sys2Proof.Machine

/-! ### Helpers -/

/-- Does the outcome answer a next state that passes the check? -/
def nextIs (o : Host.Outcome State Fault Refusal) (p : State → Bool) : Bool :=
  match o with
  | .next t => p t
  | .fault _ => false
  | .refused _ => false

/-- Sixteen bytes as the spec prints them in memory order. -/
def memoryOrder (n : Nat) : Block := BitVec.ofNat 128 (leValue (leBytes 16 n).reverse)

/-- The Hash State HSJ of 95_test_vectors.md: byte j is j. -/
def hsj : Memory := (List.range 199).map fun j => (j + 1, BitVec.ofNat 8 (j + 1))

/-- "ready" of 95_test_vectors.md 7.2, with MEM = 256 and two iterations: STATUS = 0x00000006. -/
def ready : State :=
  { State.reset with
    cfgIter := 2#64, cfgMem := 256#64, cfgMask := 0xF0#64, cfgok := true, done := true }

/-- A lane all of whose valid bits are set. -/
def fullLane : Lane := { Lane.reset with kv := true, xv := true, mv := true, dv := true }

/-- `ready` with every valid bit set and a message of three bytes: every command is ready in it. -/
def demo : State :=
  { ready with lane0 := fullLane, lane1 := fullLane, msgLen := 3#64, msg := [(0, 7#8), (5, 9#8)] }

/-- `demo` with one hash lane. -/
def single : State :=
  { demo with build := { Build.reset with nlanes := .single }, lane1 := Lane.reset }

/-- `ready` with Hash State HSJ in lane 0. -/
def readyJ : State := { ready with lane0 := { Lane.reset with hs := hsj } }

/-- A state whose host is about to make one access. -/
def withHost (s : State) (a : HostAction) : State := { s with host := [⟨.whenIdle, a⟩] }

/-- A state whose host is about to write CMD, and then reads STATUS without waiting. -/
def notWaiting (s : State) (w : Word) : State :=
  { s with host := [⟨.whenIdle, .writeReg 0x00 w⟩, ⟨.afterUnits 0, .readReg 0x01⟩] }

/-- `demo` while a HASH 0 runs (STATUS.BUSY), the host's access due. -/
def busy (a : HostAction) : State :=
  { demo with
    done := false, seq := some ⟨.hash (.one .l0), .mix, 0#64, 1#64⟩,
    host := [⟨.afterUnits 0, a⟩] }

/-- `demo` at the start of a HASH.D, the call of SpongeAbsorb for lane 1 about to fail. -/
def absorbing : State :=
  { demo with
    done := false, extFails := [false, true], seq := some ⟨.hash .both, .absorb, 0#64, 0#64⟩ }

/-- The state after row 3 of 95_test_vectors.md 7.2: STATUS = 0x00000020. -/
def faulted : State := { State.reset with seqerr := true }

/-! ### Ill-formed terms (30_encoding.md R72) -/

theorem test_round8_key_10_is_ill_formed : ¬ WellFormed (.round8 (.one .l0) 10#4) := by decide

theorem test_round8_key_14_is_ill_formed : ¬ WellFormed (.round8 .both 14#4) := by decide

theorem test_round8_key_15_is_well_formed : WellFormed (.round8 .both 15#4) := by decide

theorem test_xork8_key_10_is_ill_formed : ¬ WellFormed (.xork8 (.one .l1) 10#4) := by decide

theorem test_xork8_key_15_is_ill_formed : ¬ WellFormed (.xork8 .both 15#4) := by decide

/-- An ill-formed term is an illegal word: CMDERR (R74). -/
theorem test_ill_formed_term_raises_cmderr :
    nextIs (exec (.xork8 (.one .l0) 15#4) demo)
      (fun t => t.cmderr && !t.done && t.lane0 == demo.lane0) = true := by
  decide

/-! ### Decoding: {31:12 zero, ARG, zero, D, L, OP} (30_encoding.md R70), one word a command -/

theorem test_decode_nop :
    decodeWord (0#20 ++ 0b0000#4 ++ 0#1 ++ 0#1 ++ 0#1 ++ 0b00000#5) = .ok .nop := by decide

theorem test_decode_cfgcommit :
    decodeWord (0#20 ++ 0b0000#4 ++ 0#1 ++ 0#1 ++ 0#1 ++ 0b00001#5) = .ok .cfgcommit := by decide

theorem test_decode_absorb_dual :
    decodeWord (0#20 ++ 0b0000#4 ++ 0#1 ++ 1#1 ++ 0#1 ++ 0b00010#5) = .ok (.absorb .both) := by
  decide

theorem test_decode_keygen_1_I :
    decodeWord (0#20 ++ 0b0001#4 ++ 0#1 ++ 0#1 ++ 1#1 ++ 0b00011#5)
      = .ok (.keygen (.one .l1) .implode) := by
  decide

theorem test_decode_ldx :
    decodeWord (0#20 ++ 0b0000#4 ++ 0#1 ++ 0#1 ++ 1#1 ++ 0b00100#5) = .ok (.ldx (.one .l1)) := by
  decide

theorem test_decode_round8_1_K9 :
    decodeWord (0#20 ++ 0b1001#4 ++ 0#1 ++ 0#1 ++ 1#1 ++ 0b00101#5)
      = .ok (.round8 (.one .l1) 9#4) := by
  decide

theorem test_decode_xork8_0_K9 :
    decodeWord (0#20 ++ 0b1001#4 ++ 0#1 ++ 0#1 ++ 0#1 ++ 0b00110#5)
      = .ok (.xork8 (.one .l0) 9#4) := by
  decide

theorem test_decode_stx_dual :
    decodeWord (0#20 ++ 0b0000#4 ++ 0#1 ++ 1#1 ++ 0#1 ++ 0b00111#5) = .ok (.stx .both) := by decide

theorem test_decode_explode_1 :
    decodeWord (0#20 ++ 0b0000#4 ++ 0#1 ++ 0#1 ++ 1#1 ++ 0b01000#5) = .ok (.explode (.one .l1)) := by
  decide

theorem test_decode_implode_0 :
    decodeWord (0#20 ++ 0b0000#4 ++ 0#1 ++ 0#1 ++ 0#1 ++ 0b01001#5) = .ok (.implode (.one .l0)) := by
  decide

theorem test_decode_mixinit_0 :
    decodeWord (0#20 ++ 0b0000#4 ++ 0#1 ++ 0#1 ++ 0#1 ++ 0b01010#5) = .ok (.mixinit (.one .l0)) := by
  decide

theorem test_decode_mixstep_1 :
    decodeWord (0#20 ++ 0b0000#4 ++ 0#1 ++ 0#1 ++ 1#1 ++ 0b01011#5) = .ok (.mixstep (.one .l1)) := by
  decide

theorem test_decode_mix_dual :
    decodeWord (0#20 ++ 0b0000#4 ++ 0#1 ++ 1#1 ++ 0#1 ++ 0b01100#5) = .ok (.mix .both) := by decide

theorem test_decode_final_0 :
    decodeWord (0#20 ++ 0b0000#4 ++ 0#1 ++ 0#1 ++ 0#1 ++ 0b01101#5) = .ok (.final (.one .l0)) := by
  decide

theorem test_decode_hash_dual :
    decodeWord (0#20 ++ 0b0000#4 ++ 0#1 ++ 1#1 ++ 0#1 ++ 0b01110#5) = .ok (.hash .both) := by decide

theorem test_decode_reset :
    decodeWord (0#20 ++ 0b0000#4 ++ 0#1 ++ 0#1 ++ 0#1 ++ 0b11111#5) = .ok .reset := by decide

/-- 95_test_vectors.md 7.1: the illegal words, and why. -/
theorem test_illegal_words :
    decodeWord 0x00000021#32 = .error .laneOnLaneless
    ∧ decodeWord 0x00000062#32 = .error .bothLaneBits
    ∧ decodeWord 0x00000303#32 = .error .badArg
    ∧ decodeWord 0x00000203#32 = .error .badArg
    ∧ decodeWord 0x00000B05#32 = .error .badArg
    ∧ decodeWord 0x00000108#32 = .error .badArg
    ∧ decodeWord 0x0000000F#32 = .error .reservedOpcode
    ∧ decodeWord 0x0000001E#32 = .error .reservedOpcode
    ∧ decodeWord 0x0000003F#32 = .error .laneOnLaneless
    ∧ decodeWord 0x00000088#32 = .error .reservedBit
    ∧ decodeWord 0x00001008#32 = .error .reservedBit
    ∧ decodeWord 0x80000000#32 = .error .reservedBit := by
  decide

/-! ### Primitives -/

/-- R91, 95_test_vectors.md 2.1. -/
theorem test_subWord_rotWord :
    subWord 0x00010203#32 = 0x637c777b#32 ∧ rotWord 0x00010203#32 = 0x03000102#32 := by
  decide +kernel

/-- R92, 95_test_vectors.md 2.1. -/
theorem test_slxor :
    slxor (memoryOrder 0x0102030405060708090a0b0c0d0e0f10)
      = memoryOrder 0x010203040404040c0d0e0f0000000010 := by
  decide +kernel

/-- R93, R94, 95_test_vectors.md 2.1. -/
theorem test_assist :
    assistHW 0x3c4fcf098815f7aba6d2ae2816157e2b#128 0x01#8 = 0x01eb848beb848a013424b5e524b5e434#128
    ∧ assistSW 0x3c4fcf098815f7aba6d2ae2816157e2b#128 0x01#8
      = 0x01eb848beb848a013424b5e524b5e434#128 := by
  decide +kernel

/-- R98: the last key of the standard's example, on both paths. -/
theorem test_keyExpand :
    (keyExpand true (memoryOrder 0x603deb1015ca71be2b73aef0857d7781)
      (memoryOrder 0x1f352c073b6108d72d9810a30914dff4))[9]
      = memoryOrder 0xc814e20476a9fb8a5025c02d59c58239
    ∧ (keyExpand false (memoryOrder 0x603deb1015ca71be2b73aef0857d7781)
      (memoryOrder 0x1f352c073b6108d72d9810a30914dff4))[9]
      = memoryOrder 0xc814e20476a9fb8a5025c02d59c58239 := by
  decide +kernel

/-- R111, 95_test_vectors.md 3.1. -/
theorem test_sbox :
    sbox 0x00#8 = 0x63#8 ∧ sbox 0x01#8 = 0x7c#8 ∧ sbox 0x53#8 = 0xed#8 ∧ sbox 0xff#8 = 0x16#8
      ∧ sbox 0xf2#8 = 0x89#8 := by
  decide +kernel

/-- R118, 95_test_vectors.md 3.1. -/
theorem test_tables :
    table0 0x53#8 = 0x2cededc1#32 ∧ table1 0x00#8 = 0x6363c6a5#32 ∧ table2 0x00#8 = 0x63c6a563#32
      ∧ table3 0x00#8 = 0xc6a56363#32 := by
  decide +kernel

/-- R116: the vendor's example, on both paths. -/
theorem test_round :
    roundHW 0x7b5b54657374566563746f725d53475d#128 0x48692853686179295b477565726f6e5d#128
      = 0xa8311c2f9fdba3c58b104b58ded7e595#128
    ∧ roundSW 0x7b5b54657374566563746f725d53475d#128 0x48692853686179295b477565726f6e5d#128
      = 0xa8311c2f9fdba3c58b104b58ded7e595#128 := by
  decide +kernel

/-- R50, R51: byte order, and one cell read in two widths. -/
theorem test_byte_order :
    let m : Memory := Memory.write128 [] 32 0x0f0e0d0c0b0a09080706050403020100#128
    m.read 33 = 1#8 ∧ m.read 47 = 15#8 ∧ m.read64 40 = 0x0f0e0d0c0b0a0908#64 := by
  decide

/-- Storing what an unlisted byte reads as removes the entry. -/
theorem test_canonical_form :
    Memory.write [(3, 1#8), (5, 2#8)] 3 0#8 = [(5, 2#8)]
    ∧ Memory.write [(3, 1#8), (5, 2#8)] 4 9#8 = [(3, 1#8), (4, 9#8), (5, 2#8)]
    ∧ Memory.wf [(3, 1#8), (3, 2#8)] = false := by
  decide

/-! ### Commands, one step each -/

/-- 95_test_vectors.md 7.2 row 1. -/
theorem test_nop : nextIs (exec .nop State.reset) (fun t => t.statusWord == 0x00000002#32) = true := by
  decide

/-- Row 18: ignored in the faulted state. -/
theorem test_nop_faulted : exec .nop faulted = .next faulted := by rfl

/-- Row 2: MEM = 0 is illegal; and so, BUSY staying 0 (R193), where the host does not wait. -/
theorem test_cfgcommit_fresh :
    nextIs (exec .cfgcommit State.reset) (fun t => t.statusWord == 0x00000008#32) = true
    ∧ nextIs (step (notWaiting State.reset 0x01#64)) (fun t => t.statusWord == 0x00000008#32) = true := by
  decide +kernel

/-- Row 16: a reserved bit of CFG_CTL; and the tuple of "ready" commits. -/
theorem test_cfgcommit :
    nextIs (exec .cfgcommit { ready with cfgCtl := 2#32, cfgok := false })
      (fun t => t.statusWord == 0x00000008#32) = true
    ∧ nextIs (exec .cfgcommit { ready with cfgok := false, done := false })
      (fun t => t.statusWord == 0x00000006#32) = true := by
  decide +kernel

/-- Row 9: MSGLEN = MSGMAX + 1. -/
theorem test_absorb_message_too_long :
    nextIs (exec (.absorb (.one .l0)) { State.reset with msgLen := 0x10001#64 })
      (fun t => t.statusWord == 0x00000010#32 && t.lane0 == Lane.reset) = true := by
  decide +kernel

/-- R174, R198, U5: ABSORB completes, and its failed call leaves EXTERR, with DV of both lanes clear. -/
theorem test_absorb :
    nextIs (exec (.absorb .both) ready) (fun t => t.statusWord == 0x00000006#32) = true
    ∧ nextIs (exec (.absorb .both) { demo with extFails := [false, true] })
      (fun t => t.statusWord == 0x00007744#32) = true := by
  decide +kernel

/-- 95_test_vectors.md 2.3: the zero seed. -/
theorem test_keygen_zero_seed :
    nextIs (exec (.keygen (.one .l0) .explode) ready)
      (fun t => t.lane0.k[9] == memoryOrder 0x2b312bdf6acddc8f56bca6b5bdbbaa1e && t.lane0.kv
        && !t.lane1.kv) = true := by
  decide +kernel

/-- 95_test_vectors.md 2.5: the seed of Implode. -/
theorem test_keygen_implode :
    nextIs (exec (.keygen (.one .l0) .implode) readyJ)
      (fun t => t.lane0.k[2] == memoryOrder 0x069357c822b671ef0a9f5bc426b275eb) = true := by
  decide +kernel

/-- Rows 6, and 95_test_vectors.md 3.2. -/
theorem test_ldx :
    nextIs (exec (.ldx (.one .l0)) State.reset) (fun t => t.statusWord == 0x00000202#32) = true
    ∧ nextIs (exec (.ldx (.one .l0)) readyJ)
      (fun t => t.lane0.x[7] == memoryOrder 0xb0b1b2b3b4b5b6b7b8b9babbbcbdbebf) = true := by
  decide +kernel

/-- The lane of 95_test_vectors.md 3.2 after LDX, block 0, with the keys 0 and 9 of 2.4. -/
def roundLane : Lane :=
  { fullLane with
    x := Vector.ofFn fun i => if i.val = 0 then memoryOrder 0x404142434445464748494a4b4c4d4e4f else 0#128
    k := Vector.ofFn fun i =>
      if i.val = 0 then memoryOrder 0x000102030405060708090a0b0c0d0e0f
      else if i.val = 9 then memoryOrder 0x45f5a66017b2d387300d4d33640a820a else 0#128 }

/-- 95_test_vectors.md 3.2: K0 and ZERO. -/
theorem test_round8 :
    nextIs (exec (.round8 (.one .l1) 0#4) { demo with lane1 := roundLane })
      (fun t => t.lane1.x[0] == memoryOrder 0xf23145b34a03560a1e5218692964ded0) = true
    ∧ nextIs (exec (.round8 (.one .l1) 15#4) { demo with lane1 := { roundLane with kv := false } })
      (fun t => t.lane1.x[0] == memoryOrder 0xf23047b04e06500d165b12622569d0df) = true := by
  decide +kernel

/-- 95_test_vectors.md 3.2: `XORK8 0, K9`. -/
theorem test_xork8 :
    nextIs (exec (.xork8 (.one .l0) 9#4) { demo with lane0 := roundLane })
      (fun t => t.lane0.x[0] == memoryOrder 0x05b4e42353f795c0784407782847cc45) = true := by
  decide +kernel

/-- Row 29: SEQERR for one lane of a dual command. -/
theorem test_stx_dual_needs_both :
    nextIs (exec (.stx .both) { ready with lane0 := { Lane.reset with xv := true } })
      (fun t => t.statusWord == 0x00000224#32 && t.lane0.hs == []) = true := by
  decide +kernel

/-- R141: block 0 goes to bytes 64 to 79. -/
theorem test_stx :
    nextIs (exec (.stx (.one .l0)) { demo with lane0 := roundLane })
      (fun t => t.lane0.hs.read 63 == 0#8 && t.lane0.hs.read 64 == 0x40#8
        && t.lane0.hs.read 79 == 0x4f#8 && t.lane0.hs.read 80 == 0#8) = true := by
  decide +kernel

/-- 95_test_vectors.md 4.1 and 8.2: one chunk of EXPLODE. -/
theorem test_explode :
    nextIs (exec (.explode (.one .l0)) { readyJ with cfgMem := 128#64, cfgMask := 0x70#64 })
      (fun t => t.lane0.x[0] == memoryOrder 0x05cb1d51d4cdfb5ce067db594dd1ef10
        && t.statusWord == 0x00000306#32) = true := by
  decide +kernel

/-- 95_test_vectors.md 4.3, MEM = 128: IMPLODE of the chunk that EXPLODE left, block 0. -/
theorem test_implode :
    nextIs (exec (.implode (.one .l0)) { readyJ with
        cfgMem := 128#64, cfgMask := 0x70#64,
        lane0 := { readyJ.lane0 with
          sp := Memory.write128 [] 0 (memoryOrder 0x05cb1d51d4cdfb5ce067db594dd1ef10) } })
      (fun t => t.lane0.x[0] == memoryOrder 0xfa419629d3ce5292b3e60e2065f88ba5) = true := by
  decide +kernel

/-- Row 7, and the example of R151. -/
theorem test_mixinit :
    nextIs (exec (.mixinit (.one .l0)) State.reset) (fun t => t.statusWord == 0x00000402#32) = true
    ∧ nextIs (exec (.mixinit (.one .l0)) readyJ)
      (fun t => t.lane0.al == 0x2020202020202020#64 && t.lane0.ah == 0x2020202020202020#64
        && t.lane0.idx == 0x2020202020202020#64
        && t.lane0.bx == 0x20202020202020202020202020202020#128) = true := by
  decide +kernel

/-- The lane of R160 before its iteration: the two cells it reads, and the mixing registers. -/
def mixLane160 : Lane :=
  { Lane.reset with
    mv := true
    idx := 0x2020202020202020#64
    al := 0x2020202020202020#64
    ah := 0x2020202020202020#64
    bx := 0x20202020202020202020202020202020#128
    sp := Memory.write128
      (Memory.write128 [] 0x20 (memoryOrder 0x250e872d122738c009eff65535fcf643))
      0x40 (memoryOrder 0x9791f7736a6d33ac7ea18e2407a0d7bd) }

/-- R160: the registers after one iteration. -/
theorem test_mixstep_registers :
    nextIs (exec (.mixstep (.one .l0)) { ready with lane0 := mixLane160 })
      (fun t => t.lane0.al == 0xf6481c6bf45902c3#64 && t.lane0.ah == 0x046bcc1f37f3c551#64
        && t.lane0.idx == 0xf6481c6bf45902c3#64
        && t.lane0.bx == 0xce0c0e0aeb6ad94456c15249db794049#128) = true := by
  decide +kernel

/-- R160: the two cells stored. -/
theorem test_mixstep_cells :
    nextIs (exec (.mixstep (.one .l0)) { ready with lane0 := mixLane160 })
      (fun t => t.lane0.sp.read128 0x20 == memoryOrder 0x696059fb6972e17664f94acb2a2e2cee
        && t.lane0.sp.read128 0x40 == memoryOrder 0x5493ae8701717b5a2f647d13186cbcb9) = true := by
  decide +kernel

/-- R157: no iterations, and one, which is that of R160. -/
theorem test_mix :
    nextIs (exec (.mix (.one .l0)) { ready with cfgIter := 0#64 })
      (fun t => t.statusWord == 0x00000406#32) = true
    ∧ nextIs (exec (.mix (.one .l0)) { readyJ with
        cfgIter := 1#64, lane0 := { mixLane160 with hs := hsj, mv := false } })
      (fun t => t.lane0.al == 0xf6481c6bf45902c3#64) = true := by
  decide +kernel

/-- Row 27. -/
theorem test_final :
    nextIs (exec (.final (.one .l0)) ready) (fun t => t.statusWord == 0x00000806#32) = true := by
  decide +kernel

/-- Row 28: `Permute` fails. -/
theorem test_final_fails :
    nextIs (exec (.final (.one .l0)) { ready with extFails := [true] })
      (fun t => t.statusWord == 0x00000044#32) = true := by
  decide +kernel

/-- Rows 3, 10 and 11: SEQERR wins over the message length. -/
theorem test_hash_faults :
    nextIs (exec (.hash (.one .l0)) { State.reset with msgLen := 0x10001#64 })
      (fun t => t.statusWord == 0x00000020#32) = true
    ∧ nextIs (exec (.hash (.one .l0)) { ready with msgLen := 0x10001#64 })
      (fun t => t.statusWord == 0x00000014#32) = true := by
  decide +kernel

/-- 95_test_vectors.md 8.5: STATUS after HASH. -/
theorem test_hash_status :
    nextIs (exec (.hash (.one .l0)) ready) (fun t => t.statusWord == 0x00000F06#32) = true := by
  decide +kernel

/-- Row 20: RESET out of the faulted state, HS kept. -/
theorem test_reset :
    nextIs (exec .reset { demo with cmderr := true, lane0 := { fullLane with hs := [(3, 1#8)] } })
      (fun t => t.statusWord == 0#32 && t.cfgMem == 0#64 && t.msgLen == 0#64
        && t.lane0.hs == [(3, 1#8)]) = true := by
  decide +kernel

/-! ### Host accesses, one step each -/

/-- Row 12: an illegal word is tested before the needs. -/
theorem test_illegal_word_step :
    nextIs (step (State.reset.withFetchWord 32 0x00000F0B)) (fun t => t.statusWord == 0x10#32) = true := by
  decide +kernel

/-- Row 19: not the exact RESET word. -/
theorem test_faulted_word_step :
    nextIs (step (faulted.withFetchWord 32 0x0000003F)) (fun t => t.statusWord == 0x20#32) = true := by
  decide +kernel

/-- Rows 21 to 24: ACCERR or not. -/
theorem test_access_step :
    nextIs (step (withHost ready (.readReg 0x07))) (fun t => t.statusWord == 0x86#32) = true
    ∧ nextIs (step (withHost ready (.writeWindow (.dig .l0) 0 [1#8])))
      (fun t => t.statusWord == 0x86#32 && t.lane0.dig == []) = true
    ∧ nextIs (step (withHost { single with lane0 := Lane.reset } (.readReg 0x80)))
      (fun t => t.statusWord == 0x86#32) = true
    ∧ nextIs (step (withHost ready (.readReg 0x40))) (fun t => t.statusWord == 0x06#32) = true := by
  decide +kernel

/-- Rows 25 and 26: while a command runs. -/
theorem test_busy_step :
    nextIs (step (busy (.readReg 0x03))) (fun t => t.accerr && t.statusWord.getLsbD 0) = true
    ∧ nextIs (step (busy (.writeReg 0x00 0#64))) (fun t => t.accerr && t.seq == (busy (.readReg 0)).seq)
      = true := by
  decide +kernel

/-- Row 25: a HASH that ends with ACCERR set beside it. -/
theorem test_accerr_beside_step :
    nextIs (step { demo with
        lane1 := Lane.reset, done := false, accerr := true,
        seq := some ⟨.hash (.one .l0), .final, 0#64, 0#64⟩ })
      (fun t => t.statusWord == 0x00000F86#32) = true := by
  decide +kernel

/-- R214: a write to a CFG register clears CFGOK, and the word of a command is 32 bits. -/
theorem test_cfg_write_step :
    nextIs (step (withHost ready (.writeReg 0x05 0x100000001#64)))
      (fun t => t.cfgCtl == 1#32 && t.statusWord == 0x02#32) = true := by
  decide +kernel

/-- R31: STATUS is the one register read while BUSY. -/
theorem test_status_read_step :
    nextIs (step (withHost ready (.readReg 0x01))) (fun t => t.reply == .register 0x06#128) = true := by
  decide +kernel

/-! ### Witnesses: states and operands that meet the hypotheses of the statements -/

/-- `EncodeThenDecode`: the largest legal key selectors. -/
theorem witness_EncodeThenDecode :
    WellFormed (.round8 .both 9#4) ∧ WellFormed (.round8 .both 15#4)
      ∧ WellFormed (.xork8 (.one .l1) 9#4) := by
  decide

/-- `DecodeThenEncode`. -/
theorem witness_DecodeThenEncode :
    decodeWord 0x00000F45#32 = .ok (.round8 .both 15#4) := by decide

/-- `IllegalWordsAreThoseOfTheRule`: each condition of the rule, at the ends of its range. -/
theorem witness_IllegalWords :
    illegalWord .dual 0x0000000F#32 ∧ illegalWord .dual 0x0000001E#32
    ∧ illegalWord .dual 0x00000080#32
    ∧ illegalWord .dual 0x00001000#32 ∧ illegalWord .dual 0x80000000#32
    ∧ illegalWord .dual 0x00000020#32 ∧ illegalWord .dual 0x0000005F#32
    ∧ illegalWord .dual 0x00000062#32
    ∧ illegalWord .single 0x00000022#32 ∧ illegalWord .single 0x00000042#32
    ∧ illegalWord .dual 0x00000203#32 ∧ illegalWord .dual 0x00000A05#32
    ∧ illegalWord .dual 0x00000F06#32 ∧ illegalWord .dual 0x00000108#32 := by
  refine ⟨.inl (by decide), .inl (by decide), .inr (.inl (by decide)),
    .inr (.inr (.inl ⟨12, by decide⟩)), .inr (.inr (.inl ⟨31, by decide⟩)),
    .inr (.inr (.inr (.inl (by decide)))), .inr (.inr (.inr (.inl (by decide)))),
    .inr (.inr (.inr (.inr (.inl (by decide))))),
    .inr (.inr (.inr (.inr (.inr (.inl (by decide)))))),
    .inr (.inr (.inr (.inr (.inr (.inl (by decide)))))), ?_, ?_, ?_, ?_⟩ <;>
  · refine .inr (.inr (.inr (.inr (.inr (.inr ?_)))))
    unfold argLegal
    decide

/-- `IllegalWordsAreThoseOfTheRule`, its second clause: a host that writes such a word. -/
theorem witness_IllegalWords_step :
    (withHost demo (.writeReg 0x00 0x0000000F#64)).seq = none
    ∧ State.faulted (withHost demo (.writeReg 0x00 0x0000000F#64)) = false
    ∧ (withHost demo (.writeReg 0x00 0x0000000F#64)).host
      = ⟨.whenIdle, .writeReg 0x00 0x0000000F#64⟩ :: []
    ∧ (0x0000000F#64).setWidth 32 = 0x0000000F#32
    ∧ illegalWord .dual 0x0000000F#32 :=
  ⟨rfl, by decide, rfl, by decide, .inl (by decide)⟩

/-- `StepRunsTheDecodedCommand`: a host that waits, one that does not, and a placed word. -/
theorem witness_StepRunsTheDecodedCommand :
    (withHost demo (.writeReg 0x00 0x4E#64)).seq = none
    ∧ decodeWord ((0x4E#64).setWidth 32) = .ok (.hash .both)
    ∧ hostWaits [] = true ∧ hostWaits [⟨.afterUnits 3, .readReg 0x01⟩] = false
    ∧ decodeTableWord 32 0x0000000B = some (.mixstep (.one .l0)) := by
  decide

/-- `WritesToCmdAreDecidedInOrder`: the illegal lanes of a one-lane block, a need, the message
length, and a host that does not wait. -/
theorem witness_WritesToCmd :
    single.seq = none ∧ single.faulted = false ∧ decodeWord 0x00000044#32 = .ok (.ldx .both)
    ∧ single.legal (.ldx .both) = false
    ∧ ready.seq = none ∧ ready.faulted = false
    ∧ ready.legal (.stx (.one .l1)) = true ∧ ready.needsMet (.stx (.one .l1)) = false
    ∧ State.legal { demo with msgLen := 0x10001#64 } (.absorb .both) = true
    ∧ readsMessage (.absorb .both) = true ∧ demo.build.msgmax < (0x10001#64).toNat
    ∧ hostWaits [] = true ∧ hostWaits [⟨.afterUnits 0, .readReg 0x01⟩] = false := by
  decide

/-- `WritesToCmdAreDecidedInOrder`: its clauses for a busy block and for a faulted one. -/
theorem witness_WritesToCmd_busy_and_faulted :
    (busy (.writeReg 0x00 0x1F#64)).seq ≠ none
    ∧ (busy (.writeReg 0x00 0x1F#64)).host = ⟨.afterUnits 0, .writeReg 0x00 0x1F#64⟩ :: []
    ∧ (withHost faulted (.writeReg 0x00 0x1F#64)).seq = none
    ∧ State.faulted (withHost faulted (.writeReg 0x00 0x1F#64)) = true
    ∧ (0x1F#64).setWidth 32 = 0x0000001F#32 ∧ (0x3F#64).setWidth 32 ≠ 0x0000001F#32 := by
  decide

/-- `WritesToCmdAreDecidedInOrder`: the last clause, at the largest message. -/
theorem witness_WritesToCmd_runs :
    ¬ seqNeedFails { demo with msgLen := 0x10000#64 } (.hash .both)
    ∧ State.legal { demo with msgLen := 0x10000#64 } (.hash .both) = true
    ∧ (0x10000#64).toNat ≤ demo.build.msgmax
    ∧ State.cfgConsistent { demo with msgLen := 0x10000#64 } = true :=
  ⟨fun h => by (cases h), by decide, by decide, by decide +kernel⟩

/-- `WritesToCmdAreDecidedInOrder`, its last clause, `SequencerRunsTheWholeCommand` and
`CommandFaultsArePrecise`: a CFGCOMMIT whose check fails, the host not waiting. -/
theorem witness_Cfgcommit_not_waiting :
    Ready State.reset .cfgcommit ∧ State.reset.cfgConsistent = false
    ∧ hostWaits (notWaiting State.reset 0x01#64).host.tail = false
    ∧ decodeWord ((0x01#64).setWidth 32) = .ok .cfgcommit := by
  decide +kernel

/-- `SeqerrExactlyWhenANeedFails`: each kind of condition fails in some state. -/
theorem witness_Seqerr_fails :
    seqNeedFails State.reset (.keygen .both .implode)
    ∧ seqNeedFails ready (.round8 (.one .l0) 15#4)
    ∧ seqNeedFails { demo with lane1 := { fullLane with kv := false } } (.round8 .both 9#4)
    ∧ seqNeedFails { demo with lane1 := { fullLane with kv := false } } (.xork8 .both 0#4)
    ∧ seqNeedFails ready (.stx (.one .l1)) ∧ seqNeedFails State.reset (.explode .both)
    ∧ seqNeedFails State.reset (.implode .both) ∧ seqNeedFails ready (.mixstep .both)
    ∧ seqNeedFails State.reset (.mix .both) ∧ seqNeedFails State.reset (.hash .both)
    ∧ State.reset.faulted = false ∧ State.reset.legal (.keygen .both .implode) = true :=
  ⟨rfl, .inr (.inl ⟨.l0, rfl, rfl⟩), .inr (.inr ⟨by decide, .l1, rfl, rfl⟩),
    .inr ⟨.l1, rfl, rfl⟩, ⟨.l1, rfl, rfl⟩, rfl, rfl, .inr ⟨.l0, rfl, rfl⟩, rfl, rfl,
    by decide, by decide⟩

/-- `SeqerrExactlyWhenANeedFails`: and none fails in `demo`. -/
theorem witness_Seqerr_holds :
    ¬ seqNeedFails demo (.round8 (.one .l0) 9#4) ∧ ¬ seqNeedFails demo (.mixstep (.one .l1)) := by
  constructor
  · rintro (h | ⟨l, hl, h⟩ | ⟨_, l, hl, h⟩)
    · cases h
    · cases l <;> cases h
    · cases l <;> cases h
  · rintro (h | ⟨l, hl, h⟩)
    · cases h
    · cases l <;> cases h

/-- `BusyRefusesAllButStatus`: both clauses. -/
theorem witness_BusyRefuses :
    (busy (.readReg 0x01)).seq = some ⟨.hash (.one .l0), .mix, 0#64, 1#64⟩
    ∧ (busy (.readReg 0x01)).host = ⟨.afterUnits 0, .readReg 0x01⟩ :: []
    ∧ (HostAction.writeReg 0x00 0x1F#64 ≠ .readReg 0x01)
    ∧ ∀ image, HostAction.writeReg 0x00 0x1F#64 ≠ .resetInput image :=
  ⟨rfl, rfl, by decide, fun image h => by cases h⟩

/-- `ForbiddenAccessesSetAccerr`: each kind of forbidden access, at the ends of its range. -/
theorem witness_Forbidden :
    forbiddenAccess demo (.readReg 0x07) ∧ forbiddenAccess demo (.readReg 0x4A)
    ∧ forbiddenAccess demo (.readReg 0xA4) ∧ forbiddenAccess demo (.readReg 0x00)
    ∧ forbiddenAccess single (.readReg 0x09) ∧ forbiddenAccess single (.readReg 0x80)
    ∧ forbiddenAccess demo (.writeReg 0x01 0#64) ∧ forbiddenAccess demo (.writeReg 0x08 0#64)
    ∧ forbiddenAccess demo (.readWindow (.hs .l0) 199 2)
    ∧ forbiddenAccess single (.readWindow (.hs .l1) 0 1)
    ∧ forbiddenAccess demo (.writeWindow (.sp .l0) 0x200000 [1#8])
    ∧ forbiddenAccess demo (.writeWindow (.dig .l1) 0 [1#8]) := by
  refine ⟨.inl (.inl ?_), .inl (.inl ?_), .inl (.inl ?_), .inr rfl, .inl (.inr ⟨rfl, .inl rfl⟩),
    .inl (.inr ⟨rfl, .inr (by decide)⟩), .inr ?_, .inr ?_, .inl (by decide), .inr ⟨rfl, rfl⟩,
    .inl (.inl (by decide)), .inr ⟨.l1, rfl⟩⟩
  · unfold listedNumber; decide
  · unfold listedNumber; decide
  · unfold listedNumber; decide
  · unfold writableNumber; decide
  · unfold writableNumber; decide

/-- `ForbiddenAccessesSetAccerr`: allowed ones, at the ends of their range. -/
theorem witness_Forbidden_allowed :
    ¬ forbiddenAccess demo (.readReg 0xA3) ∧ ¬ forbiddenAccess demo (.writeReg 0x06 0#64)
    ∧ ¬ forbiddenAccess demo (.readWindow (.hs .l1) 199 1)
    ∧ ¬ forbiddenAccess demo (.writeWindow .msg 0x1FFFF [1#8])
    ∧ (∀ v, HostAction.readReg 0xA3 ≠ .writeReg 0x00 v)
    ∧ ∀ image, HostAction.readReg 0xA3 ≠ .resetInput image := by
  refine ⟨?_, ?_, ?_, ?_, fun v h => by (cases h), fun image h => by (cases h)⟩
  · rintro ((h | ⟨h, -⟩) | h)
    · exact h (by unfold listedNumber; decide)
    · cases h
    · cases h
  · rintro ((h | ⟨h, -⟩) | h)
    · exact h (by unfold listedNumber; decide)
    · cases h
    · exact h (by unfold writableNumber; decide)
  · rintro (h | ⟨h, -⟩)
    · exact absurd h (by decide)
    · cases h
  · rintro ((h | ⟨h, -⟩) | ⟨l, h⟩)
    · exact absurd h (by decide)
    · cases h
    · cases h

/-- `ConfigurationWritesUncommit`. -/
theorem witness_ConfigurationWrites :
    (withHost demo (.writeReg 0x02 5#64)).seq = none
    ∧ (withHost demo (.writeReg 0x02 5#64)).host = ⟨.whenIdle, .writeReg 0x02 5#64⟩ :: []
    ∧ (withHost demo (.writeReg 0x06 5#64)).host = ⟨.whenIdle, .writeReg 0x06 5#64⟩ :: [] :=
  ⟨rfl, rfl, rfl⟩

/-- `WindowWriteIsReadBack`: the last byte of each window the host may write, and a window it may
write whole. -/
theorem witness_WindowWrite :
    ¬ outsideWindow demo (.hs .l1) 199 1 ∧ ¬ outsideWindow demo (.sp .l0) 0x1FFFFF 1
    ∧ ¬ outsideWindow demo .msg 0x1FFFF 1 ∧ ¬ outsideWindow single .msg 0 0x20000
    ∧ (∀ l, Window.hs .l1 ≠ .dig l)
    ∧ (withHost demo (.writeWindow (.hs .l1) 199 [7#8])).seq = none
    ∧ (withHost demo (.writeWindow (.hs .l1) 199 [7#8])).host
      = ⟨.whenIdle, .writeWindow (.hs .l1) 199 [7#8]⟩ :: [] := by
  refine ⟨?_, ?_, ?_, ?_, fun l h => (by cases h), rfl, rfl⟩ <;> rintro (h | ⟨h, h'⟩)
  · exact absurd h (by decide)
  · cases h
  · exact absurd h (by decide)
  · cases h
  · exact absurd h (by decide)
  · cases h
  · exact absurd h (by decide)
  · cases h'

/-- `WindowReadsReturnTheMemory`: the last byte of each window, DV set, and clear in lane 0 of `ready`. -/
theorem witness_WindowReads :
    (withHost demo (.readWindow (.dig .l1) 31 1)).seq = none
    ∧ (withHost demo (.readWindow (.dig .l1) 31 1)).host
      = ⟨.whenIdle, .readWindow (.dig .l1) 31 1⟩ :: []
    ∧ ¬ outsideWindow demo (.dig .l1) 31 1 ∧ ¬ outsideWindow demo (.hs .l1) 199 1
    ∧ ¬ outsideWindow demo (.sp .l0) 0x1FFFFF 1 ∧ ¬ outsideWindow demo .msg 0x1FFFF 1
    ∧ ¬ outsideWindow ready (.dig .l0) 0 32
    ∧ (demo.lane .l1).dv = true ∧ (ready.lane .l0).dv = false := by
  unfold outsideWindow
  decide

/-- `CommandFaultsArePrecise`: words that raise CFGERR, CMDERR and SEQERR after reset. -/
theorem witness_CommandFaults :
    (withHost State.reset (.writeReg 0x00 0x01#64)).seq = none
    ∧ (withHost State.reset (.writeReg 0x00 0x01#64)).host = ⟨.whenIdle, .writeReg 0x00 0x01#64⟩ :: []
    ∧ nextIs (step (withHost State.reset (.writeReg 0x00 0x01#64))) (fun t => t.cfgerr) = true
    ∧ nextIs (step (withHost State.reset (.writeReg 0x00 0x0F#64))) (fun t => t.cmderr) = true
    ∧ nextIs (step (withHost State.reset (.writeReg 0x00 0x0E#64))) (fun t => t.seqerr) = true
    ∧ State.reset.cfgerr = false ∧ State.reset.cmderr = false ∧ State.reset.seqerr = false := by
  decide +kernel

/-- `RegisterReadsReturnTheRegister`: the valid bits set, the last register of each set. -/
theorem witness_RegisterReads :
    (withHost demo (.readReg 0x97)).seq = none
    ∧ (withHost demo (.readReg 0x97)).host = ⟨.whenIdle, .readReg 0x97⟩ :: []
    ∧ (LaneId.l1 = .l1 → demo.build.nlanes = .dual)
    ∧ 0x09 = 0x08 + laneNumber .l1 ∧ (demo.lane .l1).dv = true
    ∧ 0x89 = 0x40 + 0x40 * laneNumber .l1 + (9 : Fin 10).val ∧ (demo.lane .l1).kv = true
    ∧ 0x97 = 0x50 + 0x40 * laneNumber .l1 + (7 : Fin 8).val ∧ (demo.lane .l1).xv = true
    ∧ 0xA3 = 0x63 + 0x40 * laneNumber .l1 ∧ (demo.lane .l1).mv = true := by
  decide

/-- `RegisterReadsReturnTheRegister`: its clauses for a clear valid bit. -/
theorem witness_RegisterReads_clear :
    (withHost ready (.readReg 0x62)).seq = none
    ∧ (withHost ready (.readReg 0x62)).host = ⟨.whenIdle, .readReg 0x62⟩ :: []
    ∧ (LaneId.l0 = .l1 → ready.build.nlanes = .dual)
    ∧ 0x62 = 0x60 + 0x40 * laneNumber .l0 + 2 ∧ (ready.lane .l0).mv = false
    ∧ (ready.lane .l0).dv = false ∧ (ready.lane .l0).kv = false ∧ (ready.lane .l0).xv = false := by
  decide

/-- `StatusRegisterLayout`: its last clause. -/
theorem witness_StatusRegisterLayout : 16 ≤ 16 ∧ 16 ≤ 31 := by decide

/-- `ResetInputFromAnyState`: while a command runs. -/
theorem witness_ResetInput :
    (busy (.resetInput ⟨[(3, 1#8)], [], [], [], []⟩)).host
      = ⟨.afterUnits 0, .resetInput ⟨[(3, 1#8)], [], [], [], []⟩⟩ :: [] := rfl

/-- `SlxorInDwords`: the last dword. -/
theorem witness_SlxorInDwords : 3 < 4 := by decide

/-- `CanonicalMemoriesAreEqualWhenTheyReadAlike`. -/
theorem witness_CanonicalMemories :
    Memory.wf [(3, 1#8), (5, 2#8)] = true ∧ Memory.wf [] = true := by decide

/-- `MixAddressesAreAlignedAndInRange`: the smallest and the largest tuple. -/
theorem witness_MixAddresses :
    State.cfgConsistent { ready with cfgMem := 0x80#64, cfgMask := 0x70#64 } = true
    ∧ State.cfgConsistent { ready with cfgMem := 0x200000#64, cfgMask := 0x1FFFF0#64 } = true := by
  decide +kernel

/-- `SboxIsTheAffineInverse`: both clauses. -/
theorem witness_Sbox : (0x53#8 ≠ 0#8) ∧ (0#8 = 0#8) := by decide

/-- `KeyExpandRecurrence`: the last step. -/
theorem witness_KeyExpandRecurrence : 3 < 4 := by decide

/-- `RoundDependsOnOneDiagonal`: column 3, blocks and keys that differ elsewhere. -/
theorem witness_RoundDependsOnOneDiagonal :
    (∀ r, r < 4 →
      byteOf (0x01#128) (r + 4 * ((3 + r) % 4)) = byteOf (0x02#128) (r + 4 * ((3 + r) % 4)))
    ∧ dwOf (0x01#128) 3 = dwOf (0x02#128) 3 ∧ (0x01#128 : Block) ≠ 0x02#128 := by
  decide

/-- `NopSetsDoneOnly`: the bits its second clause is about. -/
theorem witness_NopSetsDoneOnly :
    (0x00000020#32 &&& 0x1F#32 = 0#32 ∧ 0x00000020#32 ≠ 0#32)
    ∧ (0x00000100#32 &&& 0x1F#32 = 0#32 ∧ 0x00000100#32 ≠ 0#32)
    ∧ (0x80000000#32 &&& 0x1F#32 = 0#32 ∧ 0x80000000#32 ≠ 0#32) := by
  decide

/-- `NopSetsDoneOnly` and `ResetClearsRegistersAndKeepsMemories`. -/
theorem witness_Nop : demo.seq = none ∧ demo.faulted = false := by decide

/-- `CfgcommitValidatesTheTuple`: the smallest legal MEM and the one below it. -/
theorem witness_Cfgcommit :
    demo.seq = none ∧ demo.faulted = false
    ∧ ((∃ k, (0x80#64).toNat = 2 ^ k) ∧ 128 ≤ (0x80#64).toNat
      ∧ (0x80#64).toNat ≤ demo.build.spmax ∧ (0x70#64).toNat = (0x80#64).toNat - 16
      ∧ ∀ b, 1 ≤ b → demo.cfgCtl.getLsbD b = false)
    ∧ ¬ 128 ≤ (0x40#64).toNat :=
  ⟨rfl, by decide, ⟨⟨7, by decide⟩, by decide, by decide, by decide,
    fun b _ => BitVec.getLsbD_zero⟩, by decide⟩

/-- The commands of one lane operand and of two, ready in `demo`: the hypotheses of what each command
does, of `MixIsMixinitAndIterations`, `LdxThenStxKeepsTheHashState`, `OnlyTheNamedCommandsWrite` and
`SequencerRunsTheWholeCommand`. -/
theorem witness_Ready :
    ∀ i ∈ ([.nop, .cfgcommit, .absorb (.one .l0), .keygen (.one .l1) .implode, .ldx (.one .l0),
      .round8 (.one .l1) 9#4, .round8 (.one .l1) 15#4, .xork8 (.one .l0) 9#4, .stx (.one .l1),
      .explode (.one .l0), .implode (.one .l1), .mixinit (.one .l0), .mixstep (.one .l1),
      .mix (.one .l0), .final (.one .l1), .hash (.one .l0), .reset] : List Instr),
      Ready demo i := by
  decide +kernel

/-- The same on both lanes: `DualIsBothLanesInAnyOrder` and `DualHashDecomposes` as well. -/
theorem witness_Ready_dual :
    ∀ i ∈ ([.absorb .both, .keygen .both .explode, .ldx .both, .round8 .both 0#4, .xork8 .both 0#4,
      .stx .both, .explode .both, .implode .both, .mixinit .both, .mixstep .both, .mix .both,
      .final .both, .hash .both] : List Instr), Ready demo i := by
  decide +kernel

/-- `DualIsBothLanesInAnyOrder`: the operand and the class of the command. -/
theorem witness_Dual :
    Instr.lanes (.mixstep .both) = some .both ∧ callsCollaborator (.mixstep .both) = false := by
  decide

/-- A lane an operand names, and one it does not (the clauses of what each command does). -/
theorem witness_lanes :
    selHas (.one .l1) .l1 = true ∧ selHas (.one .l1) .l0 = false ∧ selHas .both .l0 = true := by
  decide

/-- `AbsorbFillsTheHashState`, `FinalDispatchesOnTheSelector`, `HashIsTheFiveCommands`,
`DualHashDecomposes`: the calls return, with calls left that fail later. -/
theorem witness_callsReturn :
    State.callsReturn { demo with extFails := [false, false, true] } 2
    ∧ State.callsReturn { demo with extFails := [] } 6 := by
  unfold State.callsReturn
  decide

/-- `FirstCollaboratorFailureEndsTheCommand`: the first call and the last of each command. -/
theorem witness_FirstFailure :
    Ready { demo with extFails := [true, false] } (.absorb .both)
    ∧ Ready { demo with extFails := [false, true] } (.absorb .both)
    ∧ Ready { demo with extFails := [false, true] } (.final (.one .l1))
    ∧ Ready { demo with extFails := [false, false, false, true] } (.final .both)
    ∧ Ready { demo with extFails := [true] } (.hash (.one .l1))
    ∧ Ready { demo with extFails := [false, true] } (.hash .both)
    ∧ [true, false] = List.replicate 0 false ++ true :: [false]
    ∧ [false, false, false, true] = List.replicate 3 false ++ true :: []
    ∧ 1 < (selList .both).length ∧ 3 < 2 * (selList .both).length := by
  decide +kernel

/-- `EndedPartsKeepTheirEffects`: the first and the last call of the final part, on one lane and on
both. -/
theorem witness_EndedParts :
    Ready { demo with extFails := [false, true] } (.hash (.one .l0))
    ∧ Ready { demo with extFails := [false, false, true] } (.hash (.one .l1))
    ∧ Ready { demo with extFails := [false, false, true] } (.hash .both)
    ∧ Ready { demo with extFails := List.replicate 5 false ++ true :: [] } (.hash .both)
    ∧ (selList .both).length ≤ 2 ∧ 5 < 3 * (selList .both).length := by
  decide +kernel

/-- `Round8SplitsIntoUnkeyedAndXor`: the last key. -/
theorem witness_Round8Splits :
    (9#4).toNat < 10 ∧ Ready demo (.round8 .both 9#4) := by
  decide +kernel

/-- `LanesDoNotInterfere`. -/
theorem witness_LanesDoNotInterfere :
    Instr.lanes (.hash (.one .l0)) = some (.one .l0) ∧ LaneId.l1 ≠ .l0 := by
  decide

/-- `DualHashDecomposes`: the second message, moved to the start of MSG. -/
theorem witness_DualHashDecomposes :
    ∀ j, j < demo.msgLen.toNat →
      Memory.read [(2, 9#8)] j = demo.msg.read (demo.msgLen.toNat + j) := by
  decide

/-- `HashForgetsThePast`: two states whose lanes hold different values. -/
theorem witness_HashForgetsThePast :
    Ready demo (.hash (.one .l0)) ∧ Ready { demo with lane0 := mixLane160 } (.hash (.one .l0))
    ∧ State.build { demo with lane0 := mixLane160 } = demo.build
    ∧ (∀ j, j < demo.msgLen.toNat →
      Memory.read (State.msg { demo with lane0 := mixLane160 }) j = demo.msg.read j) := by
  decide +kernel

/-- `HwPathChangesNoResult`. -/
theorem witness_HwPath : demo.build.roundSeq = .uniform10 := by decide

/-- `OnlyTheNamedCommandsWrite` and `NoStepChangesTheBuild`: some command, and some step, answers a
next state. -/
theorem witness_exec_and_step :
    exec .nop demo = .next demo ∧ step demo = .next demo ∧ Instr.nop ≠ .reset := by
  exact ⟨rfl, rfl, by decide⟩

/-- `SequencerRunsTheWholeCommand`: RESET in the faulted state, and a running command amid which the
host is refused a write. -/
theorem witness_SequencerRuns :
    faulted.seq = none ∧ faulted.faulted = true
    ∧ RunsAmidAccesses absorbing { absorbing with accerr := true } :=
  ⟨rfl, rfl, .access .here (by decide) rfl⟩

/-- `OnlyExterrArisesWhileACommandRuns`: a unit of the absorb part of a HASH, whose call fails. -/
theorem witness_OnlyExterr :
    absorbing.exterr = false ∧ Instr.lanes (.hash .both) = some .both
    ∧ true ∈ absorbing.extFails.take (callsOfUnit .both .absorb)
    ∧ Inv absorbing ∧ absorbing.seq = some ⟨.hash .both, .absorb, 0#64, 0#64⟩
    ∧ nextIs absorbing.unit (fun t => t.exterr) = true := by
  decide +kernel

/-- `StepKeepsTheInvariant` and `NoStepStopsUnderTheInvariant`: idle, faulted, with one lane, and while
a command runs. -/
theorem witness_Inv :
    Inv demo ∧ Inv faulted ∧ Inv single ∧ Inv (busy (.readReg 0x01)) := by
  decide +kernel

end Sys2Proof.Tests
end

section
/-! PROOF. R41: the build is a parameter of the machine. Everything a step can do, a host action, a
command issued through the tests of R75 or one unit of the sequencer, leaves it as it was. -/

namespace Sys2Proof.Machine

/-! ### Commands -/

/-- A part of a command, ended, leaves the build. -/
theorem PartEnds.close_build {sel : LaneSel} {s : State} {e : Ending} (h : PartEnds sel s e) :
    e.close.build = s.build := by
  cases e with
  | completed t => exact PartRuns.kept h |>.build
  | stopped t => exact PartFails.kept h |>.build

theorem cfgcommitBody_close_build (s : State) : (cfgcommitBody s).close.build = s.build := by
  rw [cfgcommitBody]
  split
  · rfl
  · exact State.raise_build s .cfgerr

theorem resetBody_close_build (s : State) : (resetBody s).close.build = s.build := by
  simp only [resetBody, Ending.close, State.resetRegisters_build]

/-- The whole body of a command, over a consistent tuple where it addresses the scratchpad. -/
theorem bodyOf_close_build {i : Instr} {s : State}
    (h : addressesScratchpad i = true → s.cfgConsistent = true) :
    (bodyOf i s).close.build = s.build := by
  cases i
  case nop => rfl
  case cfgcommit => exact cfgcommitBody_close_build s
  case reset => exact resetBody_close_build s
  all_goals exact (PartEnds.bodyOf rfl h).close_build

/-- Issuing a command leaves the build where running it, once accepted, does. -/
theorem State.issue_build {s t : State} {i : Instr} {run : State → State}
    (h : s.issue i run = .next t)
    (hrun : (addressesScratchpad i = true → s.cfgConsistent = true) →
      (run { s with done := false }).build = s.build) :
    t.build = s.build := by
  rcases State.issue_next_cases h with ⟨-, rfl⟩ | ⟨-, -, -, rfl⟩ | ⟨-, -, f, -, rfl⟩ |
    ⟨-, hr, rfl⟩
  · exact s.setFault_build .accerr
  · rfl
  · exact s.raise_build f
  · refine hrun ?_
    rcases hr with ⟨-, rfl⟩ | ⟨-, -, -, -, -, hc⟩
    · intro ha; cases ha
    · exact hc

theorem exec_build {i : Instr} {s t : State} (h : exec i s = .next t) : t.build = s.build := by
  rw [exec_eq_issue] at h
  exact State.issue_build h fun hc => bodyOf_close_build (s := { s with done := false }) hc

theorem State.beginCommand_build {i : Instr} {s t : State} (h : s.beginCommand i = .next t) :
    t.build = s.build := by
  refine State.issue_build h fun _ => ?_
  split
  · exact State.raise_build _ .cfgerr
  · rfl

theorem State.issueIllegal_build (s : State) : s.issueIllegal.build = s.build := by
  rcases s.issueIllegal_cases with ⟨-, e⟩ | ⟨-, -, e⟩ | ⟨-, -, e⟩ <;> rw [e]
  · exact s.setFault_build .accerr
  · exact s.raise_build .cmderr

theorem State.writeCmd_build {s t : State} {waits : Bool} {w : Dword}
    (h : s.writeCmd waits w = .next t) : t.build = s.build := by
  rcases s.writeCmd_cases waits w with ⟨i, -, e⟩ | ⟨-, e⟩ <;> rw [e] at h
  · cases waits with
    | true => exact exec_build h
    | false => exact State.beginCommand_build h
  · cases h; exact s.issueIllegal_build

/-! ### Units of the sequencer -/

/-- After a part, the next part starts or the command ends: the build is the part's. -/
theorem endPart_build (q : Sequencer) (e : Ending) : (endPart q e).build = e.close.build := by
  cases e with
  | completed s => rw [endPart_completed]; split <;> rfl
  | stopped s => rfl

theorem singleBody_close_build (i : Instr) (s : State) :
    (singleBody i s).close.build = s.build := by
  cases i
  case cfgcommit => exact cfgcommitBody_close_build s
  case reset => exact resetBody_close_build s
  all_goals rfl

theorem PartEnds.absorbPart (i : Instr) (sel : LaneSel) (s : State) :
    PartEnds sel s (absorbPart i sel s) := by
  cases i
  case hash => exact PartEnds.hashAbsorb sel s
  all_goals exact PartEnds.absorbBody sel s

theorem explodeUnit_build (q : Sequencer) (sel : LaneSel) (s : State) :
    (explodeUnit q sel s).build = s.build := by
  rw [explodeUnit]
  split
  · rfl
  · exact endPart_build q _

theorem implodeUnit_build (q : Sequencer) (sel : LaneSel) (s : State) :
    (implodeUnit q sel s).build = s.build := by
  rw [implodeUnit]
  split
  · rfl
  · exact endPart_build q _

theorem mixUnit_build (q : Sequencer) (sel : LaneSel) (s : State) :
    (mixUnit q sel s).build = s.build := by
  have start : (if q.iter = 0#64 then s.onLanes sel mixinitLane else s).build = s.build := by
    split <;> rfl
  rw [mixUnit]
  dsimp only
  generalize (if q.iter = 0#64 then s.onLanes sel mixinitLane else s) = t at start ⊢
  split
  · split
    · exact start
    · exact (endPart_build q _).trans start
  · exact (endPart_build q _).trans start

theorem runUnit_build (q : Sequencer) (s : State) : (runUnit q s).build = s.build := by
  rw [runUnit]
  split
  · exact (endPart_build q _).trans (singleBody_close_build _ s)
  · exact (endPart_build q _).trans (PartEnds.absorbPart _ _ s).close_build
  · exact explodeUnit_build q _ s
  · exact mixUnit_build q _ s
  · exact implodeUnit_build q _ s
  · exact (endPart_build q _).trans (PartEnds.finalBody _ s).close_build

theorem State.unit_build {s t : State} (h : s.unit = .next t) : t.build = s.build := by
  rw [State.unit] at h
  split at h
  · cases h; rfl
  · split at h
    · cases h
    · cases h; exact runUnit_build _ s

/-! ### Host actions -/

theorem AnswersOnly.build {s t : State} (h : AnswersOnly s t) : t.build = s.build := by
  rw [h.1]

theorem HostWrites.build {s t : State} (h : HostWrites s t) : t.build = s.build := by
  cases h
  case hs => exact s.setLane_build _ _
  case sp => exact s.setLane_build _ _
  all_goals rfl

theorem State.resetInput_build (s : State) (image : MemoryImage) :
    (s.resetInput image).build = s.build := by
  simp only [State.resetInput, State.resetRegisters_build]

theorem State.hostAct_build {s t : State} {waits : Bool} {a : HostAction}
    (h : s.hostAct waits a = .next t) : t.build = s.build := by
  rcases s.hostAct_cases waits a with ⟨n, v, -, -, e⟩ | ⟨image, -, e⟩ | ⟨u, e, hu⟩ <;> rw [e] at h
  · exact State.writeCmd_build h
  · cases h; exact s.resetInput_build image
  · cases h
    rcases hu with ha | ⟨-, hw⟩
    · exact ha.build
    · exact hw.build

/-! ### The step -/

/-- Settles O53: by the three things a step can take, nothing, a host action or one unit of the
running command, the last two on the state with the host's queue moved on. -/
theorem noStepChangesTheBuild : Obligations.NoStepChangesTheBuild := by
  intro s t h
  rcases step_cases s with ⟨-, -, e⟩ | ⟨item, rest, -, e⟩ | ⟨q, later, -, e⟩ <;> rw [e] at h
  · cases h; rfl
  · exact State.hostAct_build (s := { s with host := rest }) h
  · exact State.unit_build (s := { s with host := later }) h

end Sys2Proof.Machine
end

section
/-! PROOF. R50, R51, R54: the byte order of a memory, the two widths of a cell and the addresses of
the mixing loop. A read of any length is a number in base 256, so a longer read is two shorter ones
side by side; an offset `idx & MASK` drops the low four bits of idx and those from log2(MEM) up. -/

namespace Sys2Proof.Machine

/-! ### Reads as numbers -/

/-- The number that bytes read stand for (R50). -/
theorem Memory.leValue_readBytes (m : Memory) (a n : Nat) :
    leValue (m.readBytes a n) = ∑ j ∈ Finset.range n, (m.read (a + j)).toNat * 2 ^ (8 * j) := by
  induction n generalizing a with
  | zero => rfl
  | succ n ih =>
    rw [Memory.readBytes, leValue, ih, Finset.sum_range_succ', Nat.add_comm, Finset.mul_sum]
    congr 1
    · refine Finset.sum_congr rfl fun j _ => ?_
      rw [Nat.add_right_comm a 1 j, Nat.add_assoc a j 1, Nat.mul_add, Nat.pow_add,
        Nat.mul_left_comm, Nat.mul_comm 256]
    · simp

theorem Memory.leValue_readBytes_lt (m : Memory) (a n : Nat) :
    leValue (m.readBytes a n) < 256 ^ n := by
  simpa using leValue_lt (m.readBytes a n)

theorem Memory.toNat_read64 (m : Memory) (a : Nat) :
    (m.read64 a).toNat = leValue (m.readBytes a 8) :=
  Nat.mod_eq_of_lt (m.leValue_readBytes_lt a 8)

theorem Memory.toNat_read128 (m : Memory) (a : Nat) :
    (m.read128 a).toNat = leValue (m.readBytes a 16) :=
  Nat.mod_eq_of_lt (m.leValue_readBytes_lt a 16)

/-- Settles O15: a read is the base-256 number of its bytes, and a store is known byte by byte. -/
theorem memoryIsLittleEndian : Obligations.MemoryIsLittleEndian := by
  intro m a
  refine ⟨m.leValue_readBytes a, ?_, ?_, fun v b => m.read_write128 a b v,
    fun v b => m.read_write64 a b v, fun v b => m.read_write a b v⟩
  · rw [m.toNat_read64, m.leValue_readBytes]
  · rw [m.toNat_read128, m.leValue_readBytes]

/-! ### A cell as a block and as two words -/

theorem leValue_append (bs cs : List Byte) :
    leValue (bs ++ cs) = leValue bs + 256 ^ bs.length * leValue cs := by
  induction bs with
  | nil => simp [leValue]
  | cons b bs ih =>
    rw [List.cons_append, leValue, ih, leValue, List.length_cons, Nat.pow_succ', Nat.mul_add,
      Nat.mul_assoc, Nat.add_assoc]

theorem Memory.readBytes_add (m : Memory) (a n k : Nat) :
    m.readBytes a (n + k) = m.readBytes a n ++ m.readBytes (a + n) k := by
  induction n generalizing a with
  | zero => simp [Memory.readBytes]
  | succ n ih =>
    rw [Nat.add_right_comm n 1 k, Memory.readBytes, ih, Memory.readBytes, List.cons_append,
      Nat.add_right_comm a 1 n, Nat.add_assoc a n 1]

/-- A block read is the two words read from its halves, the second word high (R51). -/
theorem Memory.read128_eq_append (m : Memory) (a : Nat) :
    m.read128 a = m.read64 (a + 8) ++ m.read64 a := by
  apply BitVec.eq_of_toNat_eq
  rw [BitVec.toNat_append, ← Nat.shiftLeft_add_eq_or_of_lt (m.read64 a).isLt, Nat.shiftLeft_eq,
    m.toNat_read64, m.toNat_read64, m.toNat_read128, m.readBytes_add a 8 8, leValue_append,
    m.length_readBytes, Nat.add_comm, Nat.mul_comm, show (256 : Nat) ^ 8 = 2 ^ 64 from rfl]

theorem Memory.read64_write64_disjoint (m : Memory) {a b : Nat} (v : Word)
    (h : a + 8 ≤ b ∨ b + 8 ≤ a) : (m.write64 b v).read64 a = m.read64 a := by
  refine Memory.read64_congr fun c _ _ => ?_
  rw [Memory.read_write64, if_neg (by omega)]

/-- Settles O16: the block of a cell is the two words of its halves, for every contents, and the
two stores do not overlap. -/
theorem cellWidthsAgree : Obligations.CellWidthsAgree := by
  intro m a
  refine ⟨?_, ?_, fun lo hi => ?_⟩
  · rw [m.read128_eq_append, BitVec.extractLsb'_append_eq_right]
  · rw [m.read128_eq_append, BitVec.extractLsb'_append_eq_left]
  · rw [Memory.read128_eq_append, Memory.read64_write64,
      Memory.read64_write64_disjoint _ _ (by omega), Memory.read64_write64]

/-! ### Mixing addresses -/

/-- Clearing the low four bits rounds down to a multiple of 16. -/
theorem toNat_and_not_15 (x : Word) : (x &&& ~~~0xF#64).toNat = 16 * (x.toNat / 16) := by
  have clear : ~~~0xF#64 = BitVec.allOnes 64 <<< 4 := by decide
  rw [clear, ← BitVec.shiftLeft_ushiftRight, BitVec.toNat_shiftLeft, BitVec.toNat_ushiftRight,
    Nat.shiftRight_eq_div_pow, Nat.shiftLeft_eq]
  have := x.isLt
  omega

theorem State.cfgMask_of_cfgConsistent {s : State} (h : s.cfgConsistent = true) :
    s.cfgMask = (s.cfgMem - 1#64) &&& ~~~0xF#64 := by
  simp only [State.cfgConsistent, Bool.and_eq_true, beq_iff_eq] at h
  obtain ⟨⟨-, hmask⟩, -⟩ := h
  exact hmask

theorem State.toNat_cfgMem_sub_one {s : State} (h : s.cfgConsistent = true) :
    (s.cfgMem - 1#64).toNat = s.cfgMem.toNat - 1 := by
  obtain ⟨hm, h1⟩ := State.chunks_of_cfgConsistent h
  exact BitVec.toNat_sub_of_le (by rw [BitVec.le_def, BitVec.toNat_ofNat]; omega)

/-- MASK is MEM - 16 (R54). -/
theorem State.toNat_cfgMask_of_cfgConsistent {s : State} (h : s.cfgConsistent = true) :
    s.cfgMask.toNat = s.cfgMem.toNat - 16 := by
  have hm := (State.chunks_of_cfgConsistent h).1
  rw [State.cfgMask_of_cfgConsistent h, toNat_and_not_15, State.toNat_cfgMem_sub_one h]
  omega

/-- Bits log2(MEM) - 1 : 4 of idx select one of the MEM / 16 cells (R54). -/
theorem State.mixAddress_eq_of_cfgConsistent {s : State} (h : s.cfgConsistent = true) (idx : Word) :
    mixAddress idx s.cfgMask = 16 * (idx.toNat / 16 % (s.cfgMem.toNat / 16)) := by
  obtain ⟨⟨k, -, hk⟩, -⟩ := State.mem_of_cfgConsistent h
  have hm := (State.chunks_of_cfgConsistent h).1
  have cells : s.cfgMem.toNat = 16 * (s.cfgMem.toNat / 16) := by omega
  have low : (idx &&& (s.cfgMem - 1#64)).toNat = idx.toNat % s.cfgMem.toNat := by
    rw [BitVec.toNat_and, State.toNat_cfgMem_sub_one h, hk, Nat.and_two_pow_sub_one_eq_mod]
  calc mixAddress idx s.cfgMask
      = 16 * ((idx &&& (s.cfgMem - 1#64)).toNat / 16) := by
        rw [mixAddress, State.cfgMask_of_cfgConsistent h, ← BitVec.and_assoc, toNat_and_not_15]
    _ = 16 * (idx.toNat % (16 * (s.cfgMem.toNat / 16)) / 16) := by rw [low, ← cells]
    _ = 16 * (idx.toNat / 16 % (s.cfgMem.toNat / 16)) := by rw [Nat.mod_mul_right_div_self]

/-- Settles O18: the offset is 16 times a cell number below MEM / 16, and MEM is a multiple of
16. -/
theorem mixAddressesAreAlignedAndInRange : Obligations.MixAddressesAreAlignedAndInRange := by
  intro s idx h
  obtain ⟨hm, hc⟩ := State.chunks_of_cfgConsistent h
  have eq := State.mixAddress_eq_of_cfgConsistent h idx
  have cell : idx.toNat / 16 % (s.cfgMem.toNat / 16) < s.cfgMem.toNat / 16 :=
    Nat.mod_lt _ (by omega)
  refine ⟨State.toNat_cfgMask_of_cfgConsistent h, rfl, eq, ⟨_, eq⟩, ?_,
    (State.mem_of_cfgConsistent h).2⟩
  omega

end Sys2Proof.Machine
end

section
/-! PROOF. R74: which words are illegal. A legal word has its reserved bits zero and its fields OP, L,
D and ARG in the sets of `legalFields`, and the decoder reads just those as a command of the block;
an illegal one fails the first test of R75 on an idle block, as a word that decodes to no command
does. -/

namespace Sys2Proof.Machine

/-! ### The fields of a word as the rule writes them -/

theorem toNat_fieldOp (w : Dword) : (fieldOp w).toNat = (w &&& 0x1F#32).toNat := by
  simp only [fieldOp, BitVec.extractLsb'_toNat, BitVec.toNat_and, BitVec.toNat_ofNat]
  exact (Nat.and_two_pow_sub_one_eq_mod _ 5).symm

theorem toNat_fieldArg (w : Dword) : (fieldArg w).toNat = ((w >>> 8) &&& 0xF#32).toNat := by
  simp only [fieldArg, BitVec.extractLsb'_toNat, BitVec.toNat_and, BitVec.toNat_ushiftRight,
    BitVec.toNat_ofNat]
  exact (Nat.and_two_pow_sub_one_eq_mod _ 4).symm

/-- A field of a word is zero when each of its bits is. -/
theorem extractLsb'_eq_zero_iff (w : Dword) (start len : Nat) :
    w.extractLsb' start len = 0#len ↔ ∀ i < len, w.getLsbD (start + i) = false := by
  simp only [BitVec.eq_of_getLsbD_eq_iff, BitVec.getLsbD_extractLsb', BitVec.getLsbD_zero]
  exact forall₂_congr fun i hi => by simp [hi]

theorem extractLsb'_one_eq_zero_iff (w : Dword) (k : Nat) :
    w.extractLsb' k 1 = 0#1 ↔ w.getLsbD k = false := by
  simp [extractLsb'_eq_zero_iff]

theorem fieldRsv_eq_zero_iff (w : Dword) :
    fieldRsv w = 0#20 ↔ ∀ k, 12 ≤ k → k ≤ 31 → w.getLsbD k = false := by
  rw [fieldRsv, extractLsb'_eq_zero_iff]
  constructor
  · intro h k hlo hhi
    simpa [Nat.add_sub_cancel' hlo] using h (k - 12) (by omega)
  · exact fun h i hi => h (12 + i) (by omega) (by omega)

/-- The conditions of R74 on OP, L, D and ARG, none of them holding. -/
def legalFields (n : NLanes) (op : BitVec 5) (l d : BitVec 1) (arg : BitVec 4) : Prop :=
  ¬ (0x0F ≤ op.toNat ∧ op.toNat ≤ 0x1E)
    ∧ (op.toNat = 0x00 ∨ op.toNat = 0x01 ∨ op.toNat = 0x1F → l = 0#1 ∧ d = 0#1)
    ∧ (d = 0#1 ∨ l = 0#1)
    ∧ (n = .single → l = 0#1 ∧ d = 0#1)
    ∧ argLegal op.toNat arg.toNat

/-- The list of R74, field by field. -/
theorem not_illegalWord_iff (n : NLanes) (w : Dword) :
    ¬ illegalWord n w ↔ (fieldRsv7 w = 0#1 ∧ fieldRsv w = 0#20)
      ∧ legalFields n (fieldOp w) (fieldL w) (fieldD w) (fieldArg w) := by
  rw [fieldRsv_eq_zero_iff, legalFields, toNat_fieldOp, toNat_fieldArg, fieldRsv7, fieldL, fieldD]
  simp only [extractLsb'_one_eq_zero_iff, illegalWord, not_or, not_and, not_exists, not_not,
    ← Bool.not_eq_true, ← imp_iff_not_or, and_assoc]
  exact and_left_comm.trans (and_congr_right fun _ => and_left_comm)

/-! ### The commands a word can decode to -/

/-- A command without lanes is legal on every block when its argument is (R74). -/
theorem State.legal_of_lanes_none {s : State} {i : Instr} (hi : i.lanes = none) :
    s.legal i = i.wellFormed := by
  rw [State.legal, State.lanesPresent, hi, Bool.and_true]

theorem State.legal_of_lanes_some {s : State} {i : Instr} {sel : LaneSel} (hi : i.lanes = some sel) :
    s.legal i = (i.wellFormed && selPresent sel s.build.nlanes) := by
  rw [State.legal, State.lanesPresent, hi]

/-- NOP, CFGCOMMIT and RESET are legal where L, D and ARG are zero (R71, R72). -/
theorem exists_legal_laneless_iff {i : Instr} (hi : i.lanes = none) (hw : WellFormed i) (s : State)
    (l d : BitVec 1) (arg : BitVec 4) :
    (∃ j, laneless i l d arg = .ok j ∧ s.legal j = true) ↔ (l = 0#1 ∧ d = 0#1) ∧ arg = 0#4 := by
  rw [laneless]
  by_cases hl : l = 0#1 ∧ d = 0#1
  · by_cases ha : arg = 0#4
    · simp [hl, ha, State.legal_of_lanes_none hi, hw]
    · simp [hl, ha]
  · simp [hl]

/-- A one-lane block has lane 0 alone (R71). -/
theorem selPresent_iff (sel : LaneSel) (n : NLanes) :
    selPresent sel n = true ↔ (n = .single → sel = .one .l0) := by
  cases n with
  | dual => simp [selPresent]
  | single => rcases sel with (_ | _) | _ <;> simp [selPresent]

/-- L and D name lanes of the block (R71). -/
theorem exists_present_decodeLanes_iff (n : NLanes) (l d : BitVec 1) :
    (∃ sel, decodeLanes l d = .ok sel ∧ selPresent sel n = true) ↔
      (d = 0#1 ∨ l = 0#1) ∧ (n = .single → l = 0#1 ∧ d = 0#1) := by
  by_cases hd : d = 0#1
  · by_cases hl : l = 0#1 <;> simp [decodeLanes, selPresent_iff, hd, hl]
  · by_cases hl : l = 0#1 <;> simp [decodeLanes, selPresent_iff, hd, hl]

/-- A command with lanes is legal where L and D name lanes of the block and ARG is in its set (R71,
R72). -/
theorem exists_legal_laned_iff {mk : LaneSel → Instr} {argOk : Bool}
    (hl : ∀ sel, (mk sel).lanes = some sel) (hw : argOk = true → ∀ sel, WellFormed (mk sel))
    (s : State) (l d : BitVec 1) :
    (∃ i, laned mk argOk l d = .ok i ∧ s.legal i = true) ↔
      ((d = 0#1 ∨ l = 0#1) ∧ (s.build.nlanes = .single → l = 0#1 ∧ d = 0#1)) ∧ argOk = true := by
  rw [← exists_present_decodeLanes_iff, laned]
  cases decodeLanes l d with
  | error e => simp
  | ok sel =>
    cases argOk with
    | false => simp
    | true => simp [State.legal_of_lanes_some (hl sel), hw rfl sel]

/-- A row of the opcode table (R73) and what the decoder makes of it: a command without lanes, one
with lanes and a legal set of ARG, or none. -/
inductive OpcodeRow (op : BitVec 5) (l d : BitVec 1) (arg : BitVec 4) : Except Reject Instr → Prop
  | laneless {i : Instr} (hop : op.toNat = 0x00 ∨ op.toNat = 0x01 ∨ op.toNat = 0x1F)
      (hl : i.lanes = none) (hw : WellFormed i) : OpcodeRow op l d arg (laneless i l d arg)
  | laned {mk : LaneSel → Instr} {argOk : Bool} (hop : 0x02 ≤ op.toNat ∧ op.toNat ≤ 0x0E)
      (hl : ∀ sel, (mk sel).lanes = some sel) (hw : argOk = true → ∀ sel, WellFormed (mk sel))
      (harg : argLegal op.toNat arg.toNat ↔ argOk = true) : OpcodeRow op l d arg (laned mk argOk l d)
  | reserved (hop : 0x0F ≤ op.toNat ∧ op.toNat ≤ 0x1E) :
      OpcodeRow op l d arg (.error .reservedOpcode)

/-- ARG is zero except on KEYGEN, ROUND8 and XORK8 (R72). -/
theorem argLegal_iff_eq_zero {op : Nat} (arg : BitVec 4) (h3 : op ≠ 0x03) (h5 : op ≠ 0x05)
    (h6 : op ≠ 0x06) : argLegal op arg.toNat ↔ arg = 0#4 := by
  rw [argLegal, if_neg h3, if_neg h5, if_neg h6]
  exact (BitVec.toNat_eq (y := 0#4)).symm

/-- A row of a command with lanes and no argument. -/
theorem OpcodeRow.laned_noArg {op : BitVec 5} {l d : BitVec 1} {arg : BitVec 4}
    {mk : LaneSel → Instr} (hop : 0x02 ≤ op.toNat ∧ op.toNat ≤ 0x0E)
    (harg : op.toNat ≠ 0x03 ∧ op.toNat ≠ 0x05 ∧ op.toNat ≠ 0x06)
    (hl : ∀ sel, (mk sel).lanes = some sel) (hw : ∀ sel, WellFormed (mk sel)) :
    OpcodeRow op l d arg (Sys2Proof.laned mk (arg == 0#4) l d) := by
  obtain ⟨h3, h5, h6⟩ := harg
  exact .laned hop hl (fun _ => hw) ((argLegal_iff_eq_zero arg h3 h5 h6).trans beq_iff_eq.symm)

theorem opcodeRow_decodeFields (op : BitVec 5) (l d : BitVec 1) (arg : BitVec 4) :
    OpcodeRow op l d arg (decodeFields op l d arg) := by
  rw [decodeFields]
  split
  -- NOP, CFGCOMMIT, RESET
  case h_1 | h_2 | h_16 => exact .laneless (by omega) rfl rfl
  -- KEYGEN
  case h_4 h =>
    exact .laned (by omega) (fun _ => rfl) (fun _ _ => rfl) (by simp [argLegal, h])
  -- ROUND8
  case h_6 h =>
    refine .laned (by omega) (fun _ => rfl) (fun hk _ => hk) ?_
    simp [argLegal, h, round8KeyLegal, ← BitVec.toNat_inj, Nat.lt_succ_iff]
  -- XORK8
  case h_7 h =>
    refine .laned (by omega) (fun _ => rfl) (fun hk _ => hk) ?_
    simp [argLegal, h, xork8KeyLegal, Nat.lt_succ_iff]
  -- no command
  case h_17 =>
    refine .reserved ?_
    simp only [imp_false] at *
    omega
  -- the commands with lanes and no argument
  all_goals exact .laned_noArg (by omega) (by omega) (fun _ => rfl) fun _ => rfl

/-- The decoder reads a legal command of the block just from the fields R74 allows. -/
theorem exists_legal_decodeFields_iff (s : State) (op : BitVec 5) (l d : BitVec 1)
    (arg : BitVec 4) :
    (∃ i, decodeFields op l d arg = .ok i ∧ s.legal i = true) ↔
      legalFields s.build.nlanes op l d arg := by
  have row := opcodeRow_decodeFields op l d arg
  generalize decodeFields op l d arg = r at row
  rw [legalFields]
  cases row with
  | laneless hop hl hw =>
    have notReserved : ¬ (0x0F ≤ op.toNat ∧ op.toNat ≤ 0x1E) := by omega
    have harg := argLegal_iff_eq_zero (op := op.toNat) arg (by omega) (by omega) (by omega)
    rw [exists_legal_laneless_iff hl hw, harg]
    tauto
  | laned hop hl hw harg =>
    have notReserved : ¬ (0x0F ≤ op.toNat ∧ op.toNat ≤ 0x1E) := by omega
    have notLaneless : ¬ (op.toNat = 0x00 ∨ op.toNat = 0x01 ∨ op.toNat = 0x1F) := by omega
    rw [exists_legal_laned_iff hl hw, harg]
    tauto
  | reserved hop => simp [hop]

/-- A word names a command that is legal on the block just when no condition of R74 holds. -/
theorem exists_legal_decodeWord_iff (s : State) (w : Dword) :
    (∃ i, decodeWord w = .ok i ∧ s.legal i = true) ↔ ¬ illegalWord s.build.nlanes w := by
  rw [not_illegalWord_iff, ← exists_legal_decodeFields_iff, decodeWord]
  split
  · next h => simp [h]
  · next h => simp [h]

/-! ### An illegal word written to CMD -/

/-- An illegal command on an idle block that is not faulted (R75). -/
theorem State.issue_of_illegal {s : State} {i : Instr} (run : State → State) (hb : s.seq = none)
    (hf : s.faulted = false) (hl : s.legal i = false) : s.issue i run = .next (s.raise .cmderr) := by
  rw [State.issue, State.verdict_of_idle i hb hf, if_pos hl]

/-- A word that names no legal command raises CMDERR, whether it decodes or not, and whether the host
waits for its end or not (R75, R193). -/
theorem State.writeCmd_of_illegal {s : State} {w : Dword} (waits : Bool) (hb : s.seq = none)
    (hf : s.faulted = false) (hw : illegalWord s.build.nlanes w) :
    s.writeCmd waits w = .next (s.raise .cmderr) := by
  rcases s.writeCmd_cases waits w with ⟨i, hi, e⟩ | ⟨-, e⟩
  · have hl : s.legal i = false := Bool.eq_false_iff.mpr fun hl =>
      (exists_legal_decodeWord_iff s w).mp ⟨i, hi, hl⟩ hw
    rw [e, exec_eq_issue, State.beginCommand, State.issue_of_illegal _ hb hf hl,
      State.issue_of_illegal _ hb hf hl, ite_self]
  · rw [e, State.issueIllegal, State.busy_eq_false hb, hf]
    rfl

/-- Settles O3: the conditions of R74 are those of the word's fields, which the decoder reads row by
row, and an illegal word fails the first test of an idle block. -/
theorem illegalWordsAreThoseOfTheRule : Obligations.IllegalWordsAreThoseOfTheRule := by
  refine ⟨fun s w => not_iff_comm.mp (exists_legal_decodeWord_iff s w).symm, ?_⟩
  intro s w v tm rest hb hf hh hv hw
  rw [step_writeCmd hh (.inl hb), hv]
  exact State.writeCmd_of_illegal (s := { s with host := rest }) _ hb hf hw

end Sys2Proof.Machine
end

section
/-! PROOF. R90 to R96: the key schedule. Dwords of a block under the operations of R92, the
table-driven assist as the direct one (R94, R95), and the recurrence of the keys (R96). -/

namespace Sys2Proof.Machine

/-! ### The dwords of a block -/

/-- A block made of four dwords has them as its dwords. -/
@[simp]
theorem dwOf_blockOfDws (d0 d1 d2 d3 : Dword) (j : Nat) (hj : j < 4) :
    dwOf (blockOfDws d0 d1 d2 d3) j = #v[d0, d1, d2, d3][j] := by
  have drop {n k : Nat} (x : BitVec n) (y : Dword) :
      (x ++ y).extractLsb' (32 + k) 32 = x.extractLsb' k 32 := by
    rw [BitVec.extractLsb'_append_eq_of_le (Nat.le_add_right 32 k), Nat.add_sub_cancel_left]
  match j, hj with
  | 0, _ => exact BitVec.extractLsb'_append_eq_right
  | 1, _ => exact (drop (k := 0) _ _).trans BitVec.extractLsb'_append_eq_right
  | 2, _ =>
    exact (drop (k := 32) _ _).trans ((drop (k := 0) _ _).trans BitVec.extractLsb'_append_eq_right)
  | 3, _ =>
    exact (drop (k := 64) _ _).trans ((drop (k := 32) _ _).trans BitVec.extractLsb'_append_eq_left)

@[simp]
theorem dwOf_bcast (w : Dword) (j : Nat) (hj : j < 4) : dwOf (bcast w) j = w := by
  rw [bcast, dwOf_blockOfDws w w w w j hj]
  match j, hj with
  | 0, _ | 1, _ | 2, _ | 3, _ => rfl

theorem dwOf_xor (u v : Block) (j : Nat) : dwOf (u ^^^ v) j = dwOf u j ^^^ dwOf v j :=
  BitVec.extractLsb'_xor

/-- A shift by 32 times `n` moves whole dwords (R92). -/
theorem dwOf_shiftLeft (v : Block) (n j : Nat) (hj : j < 4) :
    dwOf (v <<< (32 * n)) j = if j < n then 0#32 else dwOf v (j - n) := by
  refine BitVec.eq_of_getLsbD_eq fun i hi => ?_
  rw [dwOf, BitVec.getLsbD_extractLsb', BitVec.getLsbD_shiftLeft]
  split
  · have : 32 * j + i < 32 * n := by omega
    simp [this]
  · have : ¬ 32 * j + i < 32 * n ∧ 32 * j + i < 128 := by omega
    have : 32 * j + i - 32 * n = 32 * (j - n) + i := by omega
    simp [*, dwOf]

/-- Dword `j` of slxor is the exclusive-or of the dwords `j - 3` to `j`, as far as there are such
(R92). -/
theorem dwOf_slxor (v : Block) (j : Nat) (hj : j < 4) :
    dwOf (slxor v) j = (if j < 3 then 0#32 else dwOf v (j - 3))
      ^^^ (if j < 2 then 0#32 else dwOf v (j - 2)) ^^^ (if j < 1 then 0#32 else dwOf v (j - 1))
      ^^^ dwOf v j := by
  rw [slxor, dwOf_xor, dwOf_xor, dwOf_xor, ← dwOf_shiftLeft v 1 j hj, ← dwOf_shiftLeft v 2 j hj,
    ← dwOf_shiftLeft v 3 j hj]
  ac_rfl

/-- Settles O23: the shifts of slxor are by one, two and three dwords. -/
theorem slxorInDwords : Obligations.SlxorInDwords := by
  refine ⟨fun v => ⟨rfl, ?_, ?_, ?_, ?_⟩, by decide, dwOf_bcast⟩
  all_goals simp [dwOf_slxor]

/-! ### The two definitions of the assist -/

/-- Concatenating four bytes puts each in its place. -/
theorem dwOfBytes_eq_or (b0 b1 b2 b3 : Byte) :
    dwOfBytes b0 b1 b2 b3 = b0.setWidth 32 ||| b1.setWidth 32 <<< 8 ||| b2.setWidth 32 <<< 16
      ||| b3.setWidth 32 <<< 24 := by
  calc dwOfBytes b0 b1 b2 b3
      = (b3 ++ b2 ++ b1 ++ b0).setWidth 32 := (BitVec.setWidth_eq _).symm
    _ = b3.setWidth 32 <<< 24 ||| b2.setWidth 32 <<< 16 ||| b1.setWidth 32 <<< 8
        ||| b0.setWidth 32 := BitVec.setWidth_append_append_append_eq_shiftLeft_setWidth_or
    _ = b0.setWidth 32 ||| (b1.setWidth 32 <<< 8 ||| (b2.setWidth 32 <<< 16
        ||| b3.setWidth 32 <<< 24)) := by
      rw [BitVec.or_comm, BitVec.or_comm (_ ||| _), BitVec.or_comm (b3.setWidth 32 <<< 24)]
    _ = _ := by rw [BitVec.or_assoc, BitVec.or_assoc]

/-- The four look-ups of a dword are its SubWord (R95). -/
theorem assistLookup_eq_subWord (x : Dword) : assistLookup x = subWord x :=
  (dwOfBytes_eq_or ..).symm

theorem assistSW_eq_assistHW (v : Block) (rcon : Byte) : assistSW v rcon = assistHW v rcon := by
  simp only [assistSW, assistHW, assistLookup_eq_subWord]

/-- HWPATH changes no value of the assist (R95). -/
theorem assist_eq_assistHW (hw : Bool) (v : Block) (rcon : Byte) :
    assist hw v rcon = assistHW v rcon := by
  cases hw with
  | true => rfl
  | false => exact assistSW_eq_assistHW v rcon

/-! ### The steps of the key schedule -/

theorem keygenFirst_eq (hw : Bool) (a b : Block) (rcon : Byte) :
    keygenFirst hw a b rcon =
      slxor a ^^^ bcast (rotWord (subWord (dwOf b 3)) ^^^ rcon.setWidth 32) := by
  simp [keygenFirst, assist_eq_assistHW, assistHW]

theorem keygenSecond_eq (hw : Bool) (a' b : Block) :
    keygenSecond hw a' b = slxor b ^^^ bcast (subWord (dwOf a' 3)) := by
  simp [keygenSecond, assist_eq_assistHW, assistHW]

/-- Neither half of a step depends on HWPATH, so neither do the steps (R95). -/
theorem keygenSteps_hwPath (hw hw' : Bool) (a b : Block) (rcons : List Byte) :
    keygenSteps hw a b rcons = keygenSteps hw' a b rcons := by
  induction rcons generalizing a b with
  | nil => rfl
  | cons rcon rest ih => simp only [keygenSteps, keygenFirst_eq, keygenSecond_eq, ih]

theorem keyExpand_hwPath (hw hw' : Bool) (s0 s1 : Block) :
    keyExpand hw s0 s1 = keyExpand hw' s0 s1 := by
  simp only [keyExpand, keyExpandList, keygenSteps_hwPath hw hw']

/-- Settles O21: the look-ups of the table-driven assist are SubWord, and the schedule reads HWPATH
in the assist only. -/
theorem keySchedulePathsAgree : Obligations.KeySchedulePathsAgree :=
  ⟨assistSW_eq_assistHW, keyExpand_hwPath true false⟩

/-! ### The recurrence of the keys -/

/-- A running key followed by the keys of the steps from it. -/
def keysFrom (hw : Bool) (a b : Block) (rcons : List Byte) : List Block :=
  a :: b :: keygenSteps hw a b rcons

@[simp]
theorem length_keysFrom (hw : Bool) (a b : Block) (rcons : List Byte) :
    (keysFrom hw a b rcons).length = 2 * rcons.length + 2 := by
  induction rcons generalizing a b with
  | nil => rfl
  | cons rcon rest ih => exact congrArg (· + 2) (ih _ _)

/-- The ten keys are those from the seed by the round constants 1, 2, 4 and 8 (R90, R96). -/
theorem getElem_keyExpand (hw : Bool) (s0 s1 : Block) (i : Nat) (hi : i < 10) :
    (keyExpand hw s0 s1)[i] =
      (keysFrom hw s0 s1 [0x01#8, 0x02#8, 0x04#8, 0x08#8])[i]'(by simpa using hi) := rfl

/-- Step `j` makes two keys from the two before them, with the round constant `j` (R96). -/
theorem keysFrom_recurrence (hw : Bool) (a b : Block) (rcons : List Byte) (j : Nat)
    (hj : j < rcons.length) :
    (keysFrom hw a b rcons)[2 * j + 2]'(by simp; omega) =
        keygenFirst hw ((keysFrom hw a b rcons)[2 * j]'(by simp; omega))
          ((keysFrom hw a b rcons)[2 * j + 1]'(by simp; omega)) rcons[j]
      ∧ (keysFrom hw a b rcons)[2 * j + 3]'(by simp; omega) =
        keygenSecond hw ((keysFrom hw a b rcons)[2 * j + 2]'(by simp; omega))
          ((keysFrom hw a b rcons)[2 * j + 1]'(by simp; omega)) := by
  induction rcons generalizing a b j with
  | nil => exact absurd hj (Nat.not_lt_zero j)
  | cons rcon rest ih =>
    cases j with
    | zero => exact ⟨rfl, rfl⟩
    | succ j =>
      exact ih _ _ j (Nat.lt_of_succ_lt_succ hj)

/-- The round constant of step `j` is `2 ^ j` (R96). -/
theorem roundConstant_eq_two_pow (j : Nat) (hj : j < 4) :
    [0x01#8, 0x02#8, 0x04#8, 0x08#8][j].setWidth 32 = BitVec.ofNat 32 (2 ^ j) := by
  match j, hj with
  | 0, _ | 1, _ | 2, _ | 3, _ => rfl

/-- Settles O22: each of the four steps of the round constants makes two keys from the two before
them, and its halves read the assist in dwords 3 and 2. -/
theorem keyExpandRecurrence : Obligations.KeyExpandRecurrence := by
  refine fun hw s0 s1 => ⟨rfl, rfl, fun j hj => ?_⟩
  simp only [getElem_keyExpand]
  rw [← roundConstant_eq_two_pow j hj, ← keygenFirst_eq hw, ← keygenSecond_eq hw]
  exact keysFrom_recurrence hw s0 s1 [0x01#8, 0x02#8, 0x04#8, 0x08#8] j hj

end Sys2Proof.Machine
end

section
/-! PROOF. R110 to R120: the round. Bytes and dwords of a block, the tables as the columns of the
mixing matrix (R115, R118), and the table-driven round as the direct one (R120). -/

namespace Sys2Proof.Machine

/-- A bit of a word is a bit of one of its slices of a given width. -/
theorem getLsbD_eq_getLsbD_slice {w n : Nat} (x : BitVec w) (hn : 0 < n) (i : Nat) :
    x.getLsbD i = (x.extractLsb' (n * (i / n)) n).getLsbD (i % n) := by
  rw [BitVec.getLsbD_extractLsb', Nat.div_add_mod, decide_eq_true (Nat.mod_lt i hn), Bool.true_and]

/-! ### The bytes of a dword -/

theorem getLsbD_dwByte (w : Dword) (j i : Nat) :
    (dwByte w j).getLsbD i = (decide (i < 8) && w.getLsbD (8 * j + i)) :=
  BitVec.getLsbD_extractLsb' ..

/-- A dword made of four bytes has them as its bytes. -/
@[simp]
theorem dwByte_dwOfBytes (b0 b1 b2 b3 : Byte) (j : Nat) (hj : j < 4) :
    dwByte (dwOfBytes b0 b1 b2 b3) j = #v[b0, b1, b2, b3][j] := by
  have drop {n k : Nat} (x : BitVec n) (y : Byte) :
      (x ++ y).extractLsb' (8 + k) 8 = x.extractLsb' k 8 := by
    rw [BitVec.extractLsb'_append_eq_of_le (Nat.le_add_right 8 k), Nat.add_sub_cancel_left]
  match j, hj with
  | 0, _ => exact BitVec.extractLsb'_append_eq_right
  | 1, _ => exact (drop (k := 0) _ _).trans BitVec.extractLsb'_append_eq_right
  | 2, _ =>
    exact (drop (k := 8) _ _).trans ((drop (k := 0) _ _).trans BitVec.extractLsb'_append_eq_right)
  | 3, _ =>
    exact (drop (k := 16) _ _).trans ((drop (k := 8) _ _).trans BitVec.extractLsb'_append_eq_left)

theorem dword_ext {v w : Dword} (h : ∀ j, j < 4 → dwByte v j = dwByte w j) : v = w := by
  refine BitVec.eq_of_getLsbD_eq fun i hi => ?_
  have slice : v.extractLsb' (8 * (i / 8)) 8 = w.extractLsb' (8 * (i / 8)) 8 := h _ (by omega)
  rw [getLsbD_eq_getLsbD_slice v (by decide : 0 < 8), slice,
    ← getLsbD_eq_getLsbD_slice w (by decide)]

@[simp]
theorem dwByte_xor (v w : Dword) (j : Nat) : dwByte (v ^^^ w) j = dwByte v j ^^^ dwByte w j :=
  BitVec.extractLsb'_xor

/-- A rotation by 8 times `n` moves whole bytes. -/
theorem dwByte_rotateLeft (w : Dword) (n j : Nat) (hn : n < 4) (hj : j < 4) :
    dwByte (w.rotateLeft (8 * n)) j = dwByte w ((j + (4 - n)) % 4) := by
  refine BitVec.eq_of_getLsbD_eq fun i hi => ?_
  rw [getLsbD_dwByte, getLsbD_dwByte, BitVec.getLsbD_rotateLeft_of_le (by omega)]
  by_cases h : j < n
  · have below : 8 * j + i < 8 * n := by omega
    have place : 32 - 8 * n + (8 * j + i) = 8 * ((j + (4 - n)) % 4) + i := by omega
    simp [below, place]
  · have above : ¬ 8 * j + i < 8 * n ∧ 8 * j + i < 32 := by omega
    have place : 8 * j + i - 8 * n = 8 * ((j + (4 - n)) % 4) + i := by omega
    simp [above, place]

/-! ### The bytes and dwords of a block -/

theorem byteOf_eq_dwByte (x : Block) (j : Nat) : byteOf x j = dwByte (dwOf x (j / 4)) (j % 4) := by
  refine BitVec.eq_of_getLsbD_eq fun i hi => ?_
  have inside : 8 * (j % 4) + i < 32 := by omega
  have place : 32 * (j / 4) + (8 * (j % 4) + i) = 8 * j + i := by omega
  simp [getLsbD_dwByte, byteOf, dwOf, inside, place]

/-- A block made of sixteen bytes has them as its bytes. -/
@[simp]
theorem byteOf_blockOfBytes (f : Nat → Byte) (j : Nat) (hj : j < 16) :
    byteOf (blockOfBytes f) j = f j := by
  rw [byteOf_eq_dwByte, blockOfBytes, dwOf_blockOfDws _ _ _ _ _ (by omega)]
  interval_cases j <;> exact dwByte_dwOfBytes _ _ _ _ _ (by decide)

theorem block_ext {x y : Block} (h : ∀ c, c < 4 → dwOf x c = dwOf y c) : x = y := by
  refine BitVec.eq_of_getLsbD_eq fun i hi => ?_
  have slice : x.extractLsb' (32 * (i / 32)) 32 = y.extractLsb' (32 * (i / 32)) 32 := h _ (by omega)
  rw [getLsbD_eq_getLsbD_slice x (by decide : 0 < 32), slice,
    ← getLsbD_eq_getLsbD_slice y (by decide)]

/-! ### The steps of the direct round -/

@[simp]
theorem byteOf_subBytes (x : Block) (j : Nat) (hj : j < 16) :
    byteOf (subBytes x) j = sbox (byteOf x j) := byteOf_blockOfBytes _ j hj

/-- ShiftRows puts into column `c` the byte of row `r` that stands `r` columns on (R114). -/
theorem byteOf_shiftRows (x : Block) (c r : Nat) (hc : c < 4) (hr : r < 4) :
    byteOf (shiftRows x) (4 * c + r) = byteOf x (r + 4 * ((c + r) % 4)) := by
  have row : (4 * c + r) % 4 = r := by omega
  have column : (4 * c + r) / 4 = c := by omega
  rw [shiftRows, byteOf_blockOfBytes _ _ (by omega), row, column]

@[simp]
theorem dwOf_mixColumns (x : Block) (c : Nat) (hc : c < 4) :
    dwOf (mixColumns x) c = mixColumnOf x c := by
  rw [mixColumns, dwOf_blockOfDws _ _ _ _ c hc]
  match c, hc with
  | 0, _ | 1, _ | 2, _ | 3, _ => rfl

/-! ### The tables -/

theorem dwByte_table1 (a : Byte) (j : Nat) (hj : j < 4) :
    dwByte (table1 a) j = dwByte (table0 a) ((j + 3) % 4) := dwByte_rotateLeft _ 1 j (by decide) hj

theorem dwByte_table2 (a : Byte) (j : Nat) (hj : j < 4) :
    dwByte (table2 a) j = dwByte (table0 a) ((j + 2) % 4) := dwByte_rotateLeft _ 2 j (by decide) hj

theorem dwByte_table3 (a : Byte) (j : Nat) (hj : j < 4) :
    dwByte (table3 a) j = dwByte (table0 a) ((j + 1) % 4) := dwByte_rotateLeft _ 3 j (by decide) hj

/-- Table `r` holds column `r` of the mixing matrix times the S-box, so the look-ups of four bytes
add up to their mixed column (R120). -/
theorem mixColumn_sbox (a0 a1 a2 a3 : Byte) :
    mixColumn (sbox a0) (sbox a1) (sbox a2) (sbox a3) =
      table0 a0 ^^^ table1 a1 ^^^ table2 a2 ^^^ table3 a3 := by
  refine dword_ext fun j hj => ?_
  simp only [dwByte_xor, dwByte_table1 _ j hj, dwByte_table2 _ j hj, dwByte_table3 _ j hj]
  match j, hj with
  | 0, _ | 1, _ | 2, _ | 3, _ => simp [mixColumn, table0]

/-! ### The two definitions of the round -/

theorem dwOf_roundSW (x k : Block) (c : Nat) (hc : c < 4) :
    dwOf (roundSW x k) c = roundSWDw x k c := by
  rw [roundSW, dwOf_blockOfDws _ _ _ _ c hc]
  match c, hc with
  | 0, _ | 1, _ | 2, _ | 3, _ => rfl

/-- The look-ups of column `c` read the bytes that ShiftRows puts there (R120). -/
theorem mixColumnOf_shiftRows_subBytes (x : Block) (c : Nat) (hc : c < 4) :
    mixColumnOf (shiftRows (subBytes x)) c =
      table0 (byteOf x (4 * c)) ^^^ table1 (byteOf x (1 + 4 * ((c + 1) % 4)))
        ^^^ table2 (byteOf x (2 + 4 * ((c + 2) % 4)))
        ^^^ table3 (byteOf x (3 + 4 * ((c + 3) % 4))) := by
  have row (r : Nat) (hr : r < 4) : byteOf (shiftRows (subBytes x)) (4 * c + r) =
      sbox (byteOf x (r + 4 * ((c + r) % 4))) := by
    rw [byteOf_shiftRows _ c r hc hr, byteOf_subBytes _ _ (by omega)]
  have row0 : byteOf (shiftRows (subBytes x)) (4 * c) = sbox (byteOf x (4 * c)) :=
    (row 0 (by decide)).trans (congrArg (sbox <| byteOf x ·) (by omega))
  rw [mixColumnOf, row0, row 1 (by decide), row 2 (by decide), row 3 (by decide), mixColumn_sbox]

/-- Each dword of the direct round is what R119 looks up for it. -/
theorem dwOf_roundHW (x k : Block) (c : Nat) (hc : c < 4) :
    dwOf (roundHW x k) c = roundSWDw x k c := by
  rw [roundHW, dwOf_xor, dwOf_mixColumns _ c hc, mixColumnOf_shiftRows_subBytes x c hc, roundSWDw]

theorem roundSW_eq_roundHW (x k : Block) : roundSW x k = roundHW x k :=
  block_ext fun c hc => (dwOf_roundSW x k c hc).trans (dwOf_roundHW x k c hc).symm

/-- HWPATH changes no value of the round (R120). -/
theorem cipherRound_eq_roundHW (hw : Bool) (x k : Block) : cipherRound hw x k = roundHW x k := by
  cases hw with
  | true => rfl
  | false => exact roundSW_eq_roundHW x k

/-- Settles O20: the two rounds agree dword by dword, each a sum of look-ups along a diagonal. -/
theorem roundPathsAgree : Obligations.RoundPathsAgree :=
  ⟨roundSW_eq_roundHW, fun hw hw' x k => by rw [cipherRound_eq_roundHW, cipherRound_eq_roundHW]⟩

end Sys2Proof.Machine
end

section
/-! PROOF. R131, R132: the round sequence. A run of keyed rounds is a fold over the keys in order,
and since one round does not depend on HWPATH (R120), neither does the run; what LITERAL_ASYM makes
of it on the hardware path is another function, as the example of R132 shows. -/

namespace Sys2Proof.Machine

/-! ### Keyed rounds in order -/

theorem roundsWith_eq_foldl (hw : Bool) (x : Block) (ks : List Block) :
    roundsWith hw x ks = ks.foldl (cipherRound hw) x := by
  induction ks generalizing x with
  | nil => rfl
  | cons k ks ih => exact ih _

/-- Keyed rounds with the first `m` keys of a register set are a fold over their numbers. -/
theorem roundsWith_take (hw : Bool) (x : Block) {n m : Nat} (k : Vector Block n) (h : m ≤ n) :
    roundsWith hw x (k.toList.take m) =
      (List.finRange m).foldl (fun y j => cipherRound hw y k[j.castLE h]) x := by
  have keys : k.toList.take m = (List.finRange m).map fun j => k[j.castLE h] := by
    apply List.ext_getElem <;> simp [h]
  rw [roundsWith_eq_foldl, keys, List.foldl_map]

/-! ### The two round sequences -/

/-- Ten keyed rounds, keys in order (R131). -/
theorem roundSeq_uniform10 (hw : Bool) (x : Block) (k : Vector Block 10) :
    roundSeq .uniform10 hw x k =
      (List.finRange 10).foldl (fun y j => cipherRound hw y k[j]) x := by
  calc roundsWith hw x k.toList
      = roundsWith hw x (k.toList.take 10) := by rw [List.take_of_length_le (by simp)]
    _ = _ := roundsWith_take hw x k (Nat.le_refl 10)

/-- UNIFORM10 is the same function on both paths (R131). -/
theorem roundSeq_uniform10_hwPath (hw hw' : Bool) (x : Block) (k : Vector Block 10) :
    roundSeq .uniform10 hw x k = roundSeq .uniform10 hw' x k := by
  simp only [roundSeq_uniform10, cipherRound_eq_roundHW]

/-- LITERAL_ASYM on the hardware path: an unkeyed round, keys 0 to 8, an exclusive-or with key 9
(R132). -/
theorem roundSeq_literalAsym_true (x : Block) (k : Vector Block 10) :
    roundSeq .literalAsym true x k =
      (List.finRange 9).foldl (fun y j => cipherRound true y k[j.castSucc])
        (cipherRound true x 0#128) ^^^ k[9] :=
  congrArg (· ^^^ k[9]) (roundsWith_take true _ k (Nat.le_succ 9))

/-- Settles O26: each sequence is a fold of keyed rounds, which do not depend on the path; the
example is evaluated. -/
theorem roundSequencesAndTheirDifference : Obligations.RoundSequencesAndTheirDifference :=
  ⟨fun hw x k => ⟨roundSeq_uniform10 hw x k, roundSeq_uniform10_hwPath hw (!hw) x k, rfl,
    roundSeq_literalAsym_true x k⟩, by decide +kernel⟩

end Sys2Proof.Machine
end

section
/-! PROOF. R135, R136: EXPLODE in closed form. A turn of the loop applies the round sequence to the
eight blocks and stores them as its chunk, so after `n` turns the blocks have gone through it `n`
times, chunk `c` holds what they were after turn `c`, and no byte from `128 * n` up has changed. -/

namespace Sys2Proof.Machine

/-! ### A command that is one work on each of its lanes -/

/-- A ready command whose body works on its lanes alone sets DONE and leaves that work (R71, R75). -/
theorem exec_of_ready_onLanes {s : State} {i : Instr} {sel : LaneSel} {f : Lane → Lane}
    (h : Ready s i)
    (hbody : bodyOf i { s with done := false } =
      .completed (State.onLanes { s with done := false } sel f)) :
    exec i s = .next { s.onLanes sel f with done := true } := by
  have ⟨idle, _⟩ := h
  rw [exec_of_ready h, hbody]
  simp only [Ending.close, State.onLanes, idle]

/-- What such a command leaves: every lane it does not name, and every other field but DONE, as it
was, and its work on every lane it names. -/
theorem exists_exec_of_ready_onLanes {s : State} {i : Instr} {sel : LaneSel} {f : Lane → Lane}
    (h : Ready s i)
    (hbody : bodyOf i { s with done := false } =
      .completed (State.onLanes { s with done := false } sel f)) :
    ∃ t, exec i s = .next t
      ∧ t = { s with lane0 := t.lane0, lane1 := t.lane1, done := true }
      ∧ (∀ l, selHas sel l = false → t.lane l = s.lane l)
      ∧ ∀ l, selHas sel l = true → t.lane l = f (s.lane l) :=
  ⟨_, exec_of_ready_onLanes h hbody, rfl,
    fun l hl => by cases l <;> exact State.onLanes_lane_of_not_has f hl,
    fun l hl => by cases l <;> exact State.onLanes_lane_of_has f hl⟩

/-! ### One chunk (R135) -/

theorem explodeChunk_rest (mode : RoundSeq) (hw : Bool) (c : Nat) (ln : Lane) :
    explodeChunk mode hw c ln =
      { ln with x := (explodeChunk mode hw c ln).x, sp := (explodeChunk mode hw c ln).sp } := rfl

@[simp] theorem getElem_explodeChunk_x (mode : RoundSeq) (hw : Bool) (c : Nat) (ln : Lane) (i : Nat)
    (hi : i < 8) : (explodeChunk mode hw c ln).x[i] = roundSeq mode hw ln.x[i] ln.k :=
  Vector.getElem_map ..

/-- The cells of the chunk hold the new blocks (R56). -/
theorem read128_explodeChunk_sp_same (mode : RoundSeq) (hw : Bool) (c : Nat) (ln : Lane) (i : Nat)
    (hi : i < 8) :
    (explodeChunk mode hw c ln).sp.read128 (cellOffset c i) = (explodeChunk mode hw c ln).x[i] := by
  calc (explodeChunk mode hw c ln).sp.read128 (cellOffset c i)
      = (explodeChunk mode hw c ln).x.toList.getD i 0#128 :=
        Memory.read128_storeBlocks _ (cellOffset c 0) _ i (by simpa using hi)
    _ = _ := by simp [hi]

/-- No byte outside the chunk changes. -/
theorem read_explodeChunk_sp_outside (mode : RoundSeq) (hw : Bool) (c : Nat) (ln : Lane) (a : Nat)
    (ha : a < 128 * c ∨ 128 * (c + 1) ≤ a) :
    (explodeChunk mode hw c ln).sp.read a = ln.sp.read a := by
  refine (Memory.read_storeBlocks ..).trans (if_neg ?_)
  rw [Vector.length_toList, cellOffset]
  omega

/-! ### The loop over the chunks, from any lane (R136) -/

/-- The loop writes X and SP alone. -/
theorem loopUp_explodeChunk_rest (mode : RoundSeq) (hw : Bool) (n : Nat) (ln : Lane) :
    loopUp n (explodeChunk mode hw) ln =
      { ln with
        x := (loopUp n (explodeChunk mode hw) ln).x
        sp := (loopUp n (explodeChunk mode hw) ln).sp } := by
  refine loopUp_invariant (fun t : Lane => t = { ln with x := t.x, sp := t.sp }) n _ rfl ?_
  intro c t _ ht
  rw [explodeChunk_rest, ht]

/-- After `n` turns the blocks have gone through the round sequence `n` times. -/
theorem getElem_loopUp_explodeChunk_x (mode : RoundSeq) (hw : Bool) (n : Nat) (ln : Lane) (i : Nat)
    (hi : i < 8) :
    (loopUp n (explodeChunk mode hw) ln).x[i] =
      times (fun b => roundSeq mode hw b ln.k) n ln.x[i] := by
  induction n with
  | zero => rfl
  | succ n ih =>
    have keys : (loopUp n (explodeChunk mode hw) ln).k = ln.k := by
      rw [loopUp_explodeChunk_rest]
    rw [loopUp_succ, getElem_explodeChunk_x, ih, keys, times]

/-- Chunk `c` holds the blocks as turn `c` leaves them: later turns store elsewhere. -/
theorem read128_loopUp_explodeChunk_sp (mode : RoundSeq) (hw : Bool) (n : Nat) (ln : Lane)
    (c i : Nat) (hc : c < n) (hi : i < 8) :
    (loopUp n (explodeChunk mode hw) ln).sp.read128 (cellOffset c i) =
      times (fun b => roundSeq mode hw b ln.k) (c + 1) ln.x[i] := by
  induction n with
  | zero => omega
  | succ n ih =>
    rw [loopUp_succ]
    rcases Nat.lt_succ_iff_lt_or_eq.mp hc with earlier | rfl
    · rw [← ih earlier]
      refine Memory.read128_congr fun a _ ha => read_explodeChunk_sp_outside mode hw n _ a (.inl ?_)
      rw [cellOffset] at ha
      omega
    · exact (read128_explodeChunk_sp_same mode hw c _ i hi).trans
        (getElem_loopUp_explodeChunk_x mode hw (c + 1) ln i hi)

/-- `n` turns store below `128 * n`. -/
theorem read_loopUp_explodeChunk_sp_above (mode : RoundSeq) (hw : Bool) (n : Nat) (ln : Lane)
    (a : Nat) (ha : 128 * n ≤ a) :
    (loopUp n (explodeChunk mode hw) ln).sp.read a = ln.sp.read a := by
  refine loopUp_invariant (fun t : Lane => t.sp.read a = ln.sp.read a) n _ rfl ?_
  intro c t hc ht
  rw [read_explodeChunk_sp_outside mode hw c t a (.inr (by omega)), ht]

/-! ### The whole command on a lane -/

/-- The keys EXPLODE works with: those of the seed at HS bytes 0..31 (R133). -/
theorem explodeStart_k (hw : Bool) (ln : Lane) :
    (explodeStart hw ln).k = keyExpand hw (ln.hs.read128 0) (ln.hs.read128 16) := rfl

theorem getElem_explodeStart_x (hw : Bool) (ln : Lane) (i : Nat) (hi : i < 8) :
    (explodeStart hw ln).x[i] = ln.hs.read128 (64 + 16 * i) := Vector.getElem_ofFn ..

theorem getElem_explodeLane_x (mode : RoundSeq) (hw : Bool) (n : Nat) (ln : Lane) (i : Nat)
    (hi : i < 8) :
    (explodeLane mode hw n ln).x[i] =
      times (fun b => roundSeq mode hw b (keyExpand hw (ln.hs.read128 0) (ln.hs.read128 16))) n
        (ln.hs.read128 (64 + 16 * i)) := by
  rw [explodeLane, getElem_loopUp_explodeChunk_x, explodeStart_k, getElem_explodeStart_x]

theorem read128_explodeLane_sp (mode : RoundSeq) (hw : Bool) (n : Nat) (ln : Lane) (c i : Nat)
    (hc : c < n) (hi : i < 8) :
    (explodeLane mode hw n ln).sp.read128 (cellOffset c i) =
      times (fun b => roundSeq mode hw b (keyExpand hw (ln.hs.read128 0) (ln.hs.read128 16)))
        (c + 1) (ln.hs.read128 (64 + 16 * i)) := by
  rw [explodeLane, read128_loopUp_explodeChunk_sp mode hw n _ c i hc hi, explodeStart_k,
    getElem_explodeStart_x]

/-- Settles O36: on each lane the loop starts from the keys and the blocks of HS, and its chunks
fill MEM exactly. -/
theorem explodeClosedForm : Obligations.ExplodeClosedForm := by
  intro s sel h
  have ⟨_, _, _, _, _, consistent⟩ := h
  have filled : 128 * s.chunks = s.cfgMem.toNat :=
    (State.chunks_of_cfgConsistent (consistent rfl)).1
  obtain ⟨t, ht, rest, others, lanes⟩ := exists_exec_of_ready_onLanes
    (f := explodeLane s.build.roundSeq s.hwPath s.chunks) h rfl
  refine ⟨t, ht, rest, others, fun l hl => ?_⟩
  rw [lanes l hl]
  exact ⟨loopUp_explodeChunk_rest _ _ _ (explodeStart _ _),
    fun c i hc hi => read128_explodeLane_sp _ _ _ _ c i hc hi,
    fun a ha => read_loopUp_explodeChunk_sp_above _ _ _ (explodeStart _ _) a (filled.trans_le ha),
    fun i => getElem_explodeLane_x _ _ _ _ i i.isLt⟩

end Sys2Proof.Machine
end

section
/-! PROOF. R141, R143, R144: IMPLODE in closed form. A turn of the loop exclusive-ors its chunk into
the eight blocks and applies the round sequence, and SP never changes, so after `n` turns block `i`
is the fold of cell `i` of the first `n` chunks; the stores of STX put the blocks back into HS. -/

namespace Sys2Proof.Machine

/-! ### The stores of STX (R141) -/

theorem stxLane_rest (ln : Lane) : stxLane ln = { ln with hs := (stxLane ln).hs } := rfl

theorem read128_stxLane_hs (ln : Lane) (i : Nat) (hi : i < 8) :
    (stxLane ln).hs.read128 (64 + 16 * i) = ln.x[i] := by
  calc (stxLane ln).hs.read128 (64 + 16 * i)
      = ln.x.toList.getD i 0#128 :=
        Memory.read128_storeBlocks _ (blockOffset 0) _ i (by simpa using hi)
    _ = _ := by simp [hi]

/-- No byte of HS outside 64..191 changes. -/
theorem read_stxLane_hs_outside (ln : Lane) (a : Nat) (ha : a < 64 ∨ 192 ≤ a) :
    (stxLane ln).hs.read a = ln.hs.read a := by
  refine (Memory.read_storeBlocks ..).trans (if_neg ?_)
  rw [Vector.length_toList, blockOffset]
  omega

/-! ### The loop over the chunks, from any lane (R143, R144) -/

@[simp] theorem getElem_implodeChunk_x (mode : RoundSeq) (hw : Bool) (c : Nat) (ln : Lane) (i : Nat)
    (hi : i < 8) :
    (implodeChunk mode hw c ln).x[i] =
      roundSeq mode hw (ln.x[i] ^^^ ln.sp.read128 (cellOffset c i)) ln.k := Vector.getElem_ofFn ..

/-- The loop writes X alone. -/
theorem loopUp_implodeChunk_rest (mode : RoundSeq) (hw : Bool) (n : Nat) (ln : Lane) :
    loopUp n (implodeChunk mode hw) ln =
      { ln with x := (loopUp n (implodeChunk mode hw) ln).x } := by
  refine loopUp_invariant (fun t : Lane => t = { ln with x := t.x }) n _ rfl ?_
  intro c t _ ht
  rw [implodeChunk, ht]

/-- After `n` turns a block is the fold of its cells of the first `n` chunks. -/
theorem getElem_loopUp_implodeChunk_x (mode : RoundSeq) (hw : Bool) (n : Nat) (ln : Lane) (i : Nat)
    (hi : i < 8) :
    (loopUp n (implodeChunk mode hw) ln).x[i] =
      foldCells (fun b => roundSeq mode hw b ln.k) (fun c => ln.sp.read128 (cellOffset c i))
        ln.x[i] n := by
  induction n with
  | zero => rfl
  | succ n ih =>
    have keys : (loopUp n (implodeChunk mode hw) ln).k = ln.k := by
      rw [loopUp_implodeChunk_rest]
    have scratchpad : (loopUp n (implodeChunk mode hw) ln).sp = ln.sp := by
      rw [loopUp_implodeChunk_rest]
    rw [loopUp_succ, getElem_implodeChunk_x, ih, keys, scratchpad, foldCells]

/-! ### The whole command on a lane -/

/-- The keys IMPLODE works with: those of the seed at HS bytes 32..63 (R142). -/
theorem implodeStart_k (hw : Bool) (ln : Lane) :
    (implodeStart hw ln).k = keyExpand hw (ln.hs.read128 32) (ln.hs.read128 48) := rfl

theorem implodeStart_sp (hw : Bool) (ln : Lane) : (implodeStart hw ln).sp = ln.sp := rfl

theorem getElem_implodeStart_x (hw : Bool) (ln : Lane) (i : Nat) (hi : i < 8) :
    (implodeStart hw ln).x[i] = ln.hs.read128 (64 + 16 * i) := Vector.getElem_ofFn ..

/-- IMPLODE writes K, X and HS, and sets KV and XV. -/
theorem implodeLane_rest (mode : RoundSeq) (hw : Bool) (n : Nat) (ln : Lane) :
    implodeLane mode hw n ln =
      { ln with
        k := keyExpand hw (ln.hs.read128 32) (ln.hs.read128 48)
        x := (implodeLane mode hw n ln).x
        hs := (implodeLane mode hw n ln).hs
        kv := true
        xv := true } := by
  rw [implodeLane, stxLane_rest, loopUp_implodeChunk_rest]
  rfl

theorem getElem_implodeLane_x (mode : RoundSeq) (hw : Bool) (n : Nat) (ln : Lane) (i : Nat)
    (hi : i < 8) :
    (implodeLane mode hw n ln).x[i] =
      foldCells (fun b => roundSeq mode hw b (keyExpand hw (ln.hs.read128 32) (ln.hs.read128 48)))
        (fun c => ln.sp.read128 (cellOffset c i)) (ln.hs.read128 (64 + 16 * i)) n := by
  calc (implodeLane mode hw n ln).x[i]
      = (loopUp n (implodeChunk mode hw) (implodeStart hw ln)).x[i] := rfl
    _ = _ := by
      rw [getElem_loopUp_implodeChunk_x, implodeStart_k, implodeStart_sp, getElem_implodeStart_x]

/-- HS ends with the blocks of X (R143). -/
theorem read128_implodeLane_hs (mode : RoundSeq) (hw : Bool) (n : Nat) (ln : Lane) (i : Nat)
    (hi : i < 8) :
    (implodeLane mode hw n ln).hs.read128 (64 + 16 * i) = (implodeLane mode hw n ln).x[i] :=
  read128_stxLane_hs _ i hi

theorem read_implodeLane_hs_outside (mode : RoundSeq) (hw : Bool) (n : Nat) (ln : Lane) (a : Nat)
    (ha : a < 64 ∨ 192 ≤ a) : (implodeLane mode hw n ln).hs.read a = ln.hs.read a := by
  rw [implodeLane, read_stxLane_hs_outside _ a ha, loopUp_implodeChunk_rest]
  rfl

/-- Settles O37: on each lane the loop folds the chunks of SP into the blocks of HS, which the
stores put back. -/
theorem implodeClosedForm : Obligations.ImplodeClosedForm := by
  intro s sel h
  obtain ⟨t, ht, rest, others, lanes⟩ := exists_exec_of_ready_onLanes
    (f := implodeLane s.build.roundSeq s.hwPath s.chunks) h rfl
  refine ⟨t, ht, rest, others, fun l hl => ?_⟩
  rw [lanes l hl]
  exact ⟨implodeLane_rest _ _ _ _,
    fun i hi => (read128_implodeLane_hs _ _ _ _ i hi).trans (getElem_implodeLane_x _ _ _ _ i hi),
    fun i => getElem_implodeLane_x _ _ _ _ i i.isLt,
    fun a ha => read_implodeLane_hs_outside _ _ _ _ a ha⟩

end Sys2Proof.Machine
end

section
/-! PROOF. R150 to R155: MIXINIT and one iteration of the mixing loop. Each half of an iteration is
an equation of lanes; the two cells it touches are the same one or do not overlap, so what the
second half reads is the first one's store or what SP held before. -/

namespace Sys2Proof.Machine

/-! ### MIXINIT (R150, R151) -/

/-- Settles O38: the registers are those words of HS, by the definition of MIXINIT on a lane. -/
theorem mixinitDerivesTheRegisters : Obligations.MixinitDerivesTheRegisters := by
  intro s sel h
  obtain ⟨t, ht, rest, others, lanes⟩ := exists_exec_of_ready_onLanes (f := mixinitLane) h rfl
  exact ⟨t, ht, rest, others, fun l hl => lanes l hl⟩

/-! ### The product (R154) -/

/-- No product of two words overflows a block. -/
theorem toNat_mulFull (a b : Word) : (mulFull a b).toNat = a.toNat * b.toNat := by
  have lt : a.toNat * b.toNat < 2 ^ (64 + 64) := by
    rw [Nat.pow_add]
    exact Nat.mul_lt_mul'' a.isLt b.isLt
  rw [mulFull, BitVec.toNat_mul, BitVec.toNat_setWidth_of_le (by decide),
    BitVec.toNat_setWidth_of_le (by decide), Nat.mod_eq_of_lt lt]

/-- `hi` of the product. -/
theorem qOf_mulFull_one (a b : Word) :
    qOf (mulFull a b) 1 = BitVec.ofNat 64 (a.toNat * b.toNat / 2 ^ 64) := by
  rw [qOf, BitVec.extractLsb', toNat_mulFull, Nat.shiftRight_eq_div_pow]

/-- `lo` of the product. -/
theorem qOf_mulFull_zero (a b : Word) :
    qOf (mulFull a b) 0 = BitVec.ofNat 64 (a.toNat * b.toNat % 2 ^ 64) := by
  apply BitVec.eq_of_toNat_eq
  rw [qOf, BitVec.extractLsb'_toNat, toNat_mulFull, BitVec.toNat_ofNat, Nat.mod_mod]
  rfl

/-! ### Cells -/

/-- Two mixing addresses are one cell or two that do not overlap (R54). -/
theorem State.mixAddress_eq_or_disjoint {s : State} (h : s.cfgConsistent = true) (i j : Word) :
    mixAddress i s.cfgMask = mixAddress j s.cfgMask
      ∨ mixAddress i s.cfgMask + 16 ≤ mixAddress j s.cfgMask
      ∨ mixAddress j s.cfgMask + 16 ≤ mixAddress i s.cfgMask := by
  rw [State.mixAddress_eq_of_cfgConsistent h, State.mixAddress_eq_of_cfgConsistent h]
  omega

/-- A cell read after a cell was stored (R155). -/
theorem Memory.read128_write128_cell (m : Memory) {a b : Nat} (v : Block)
    (h : a = b ∨ a + 16 ≤ b ∨ b + 16 ≤ a) :
    (m.write128 b v).read128 a = if a = b then v else m.read128 a := by
  obtain rfl | apart := h
  · rw [Memory.read128_write128, if_pos rfl]
  · rw [Memory.read128_write128_disjoint m v apart, if_neg (by omega)]

/-- Storing a cell as two words touches no byte outside it. -/
theorem Memory.read_write64_write64_outside (m : Memory) {a b : Nat} (lo hi : Word)
    (h : ¬ (a ≤ b ∧ b < a + 16)) : ((m.write64 a lo).write64 (a + 8) hi).read b = m.read b := by
  rw [Memory.read_write64, if_neg (by omega), Memory.read_write64, if_neg (by omega)]

/-! ### The two halves of an iteration, on any lane (R152, R153) -/

/-- Steps 1 to 4. The round reads HWPATH, but its value does not depend on it (R120). -/
theorem mixFirstHalf_eq (hw : Bool) (mask : Word) (ln : Lane) {a : Nat} {cx : Block}
    (ha : mixAddress ln.idx mask = a)
    (hcx : roundHW (ln.sp.read128 a) (ln.ah ++ ln.al) = cx) :
    mixFirstHalf hw mask ln =
      { ln with sp := ln.sp.write128 a (ln.bx ^^^ cx), idx := qOf cx 0, bx := cx } := by
  subst ha hcx
  simp only [mixFirstHalf, cipherRound_eq_roundHW]
  rfl

/-- Steps 5 to 10, by what the cell at IDX holds. -/
theorem mixSecondHalf_eq (mask : Word) (ln : Lane) {a : Nat} {cell : Block}
    (ha : mixAddress ln.idx mask = a) (hcell : ln.sp.read128 a = cell) :
    let p := ln.idx.toNat * (qOf cell 0).toNat
    let al := ln.al + BitVec.ofNat 64 (p / 2 ^ 64)
    let ah := ln.ah + BitVec.ofNat 64 (p % 2 ^ 64)
    mixSecondHalf mask ln =
      { ln with
        sp := (ln.sp.write64 a al).write64 (a + 8) ah
        ah := ah ^^^ qOf cell 1
        al := al ^^^ qOf cell 0
        idx := al ^^^ qOf cell 0 } := by
  subst ha hcell
  obtain ⟨low, high, -⟩ := cellWidthsAgree ln.sp (mixAddress ln.idx mask)
  simp only [mixSecondHalf, low, high, qOf_mulFull_one, qOf_mulFull_zero]
  rfl

/-- The whole iteration: step 5 reads the cell after the store of step 3. -/
theorem mixstepLane_eq (hw : Bool) (mask : Word) (ln : Lane) {a1 a2 : Nat} {cx cell : Block}
    (ha1 : mixAddress ln.idx mask = a1)
    (hcx : roundHW (ln.sp.read128 a1) (ln.ah ++ ln.al) = cx)
    (ha2 : mixAddress (qOf cx 0) mask = a2)
    (hcell : (ln.sp.write128 a1 (ln.bx ^^^ cx)).read128 a2 = cell) :
    let p := cx.toNat % 2 ^ 64 * (qOf cell 0).toNat
    let al := ln.al + BitVec.ofNat 64 (p / 2 ^ 64)
    let ah := ln.ah + BitVec.ofNat 64 (p % 2 ^ 64)
    mixstepLane hw mask ln =
      { ln with
        sp := ((ln.sp.write128 a1 (ln.bx ^^^ cx)).write64 a2 al).write64 (a2 + 8) ah
        idx := al ^^^ qOf cell 0
        al := al ^^^ qOf cell 0
        ah := ah ^^^ qOf cell 1
        bx := cx } := by
  have idx : (qOf cx 0).toNat = cx.toNat % 2 ^ 64 := BitVec.extractLsb'_toNat 0 64 cx
  have first := mixFirstHalf_eq hw mask ln ha1 hcx
  have second := mixSecondHalf_eq mask (mixFirstHalf hw mask ln) (a := a2) (cell := cell)
    (by rw [first, ha2]) (by rw [first, hcell])
  simp only [first, idx] at second
  rw [mixstepLane, first, second]

/-! ### The command -/

/-- Settles O39: the cells of an iteration are the same one, and then the second store covers the
first, or do not overlap. -/
theorem mixstepIsOneIteration : Obligations.MixstepIsOneIteration := by
  intro s sel h
  have ⟨_, _, _, _, _, consistent⟩ := h
  obtain ⟨t, ht, rest, others, lanes⟩ := exists_exec_of_ready_onLanes
    (f := mixstepLane s.hwPath s.cfgMask) h rfl
  refine ⟨t, ht, rest, others, fun l hl => ?_⟩
  intro ln a1 cx w1 a2 cell2 cl ch p al1 ah1
  have cells : a2 = a1 ∨ a2 + 16 ≤ a1 ∨ a1 + 16 ≤ a2 :=
    State.mixAddress_eq_or_disjoint (consistent rfl) (qOf cx 0) ln.idx
  have lane := (lanes l hl).trans <| mixstepLane_eq s.hwPath s.cfgMask ln (a1 := a1) (cx := cx)
    (a2 := a2) (cell := cell2) rfl rfl rfl (Memory.read128_write128_cell ln.sp w1 cells)
  have sp : (t.lane l).sp = ((ln.sp.write128 a1 w1).write64 a2 al1).write64 (a2 + 8) ah1 :=
    congrArg Lane.sp lane
  have outside {b : Nat} (out : ¬ (a2 ≤ b ∧ b < a2 + 16)) :
      (t.lane l).sp.read b = (ln.sp.write128 a1 w1).read b := by
    rw [sp, Memory.read_write64_write64_outside _ _ _ out]
  refine ⟨?_, ?_, fun ne => ?_, fun b out1 out2 => ?_⟩
  · rw [sp]
    exact lane
  · obtain ⟨-, -, stored⟩ := cellWidthsAgree (ln.sp.write128 a1 w1) a2
    rw [sp, stored]
  · rw [Memory.read128_congr fun b _ _ => outside (b := b) (by omega), Memory.read128_write128]
  · rw [outside out2, Memory.read_write128, if_neg out1]

end Sys2Proof.Machine
end

section
/-! PROOF. R174 to R179: the pipeline whose collaborator calls return, and NOP. Each part of such a
command is its work on each of its lanes and so many of the environment's answers used up
(`State.afterPart`), parts one after another are such a part again, and so HASH is one function of
the configuration and the message, `hashLane`, on each of its lanes. -/

namespace Sys2Proof.Machine

/-! ### Collaborator calls that return (R198) -/

theorem State.callsReturn_add {s : State} {m n : Nat} :
    s.callsReturn (m + n) ↔
      s.callsReturn m ∧ State.callsReturn { s with extFails := s.extFails.drop m } n := by
  simp only [State.callsReturn, List.take_add, List.mem_append, or_imp, forall_and]

theorem State.extCall_of_returns {s : State} (h : s.callsReturn 1) :
    s.extCall = (false, { s with extFails := s.extFails.drop 1 }) := by
  rw [State.extCall]
  split
  · next none_left => rw [none_left, List.drop_nil, ← none_left]
  · next b rest left =>
    have hb : b = false := h b (by simp [left])
    rw [hb, left, List.drop_one, List.tail_cons]

/-! ### Parts whose calls return -/

/-- What a part leaves whose collaborator calls return: its work on every lane it names, and one of
the environment's answers used up for each call. -/
def State.afterPart (s : State) (sel : LaneSel) (calls : Nat) (work : LaneId → Lane → Lane) : State :=
  { s with
    lane0 := if selHas sel .l0 then work .l0 s.lane0 else s.lane0
    lane1 := if selHas sel .l1 then work .l1 s.lane1 else s.lane1
    extFails := s.extFails.drop calls }

/-- Work on the lanes that calls no collaborator. -/
theorem State.onLanes_eq_afterPart (s : State) (sel : LaneSel) (f : Lane → Lane) :
    s.onLanes sel f = s.afterPart sel 0 fun _ => f := rfl

theorem State.setLane_eq_afterPart (s : State) (l : LaneId) (calls : Nat)
    (work : LaneId → Lane → Lane) :
    State.setLane { s with extFails := s.extFails.drop calls } l (work l (s.lane l)) =
      s.afterPart (.one l) calls work := by
  cases l <;> rfl

theorem State.afterPart_lane {s : State} {sel : LaneSel} {l : LaneId} (calls : Nat)
    (work : LaneId → Lane → Lane) (h : selHas sel l = true) :
    (s.afterPart sel calls work).lane l = work l (s.lane l) := by
  cases l <;> exact if_pos h

/-- A part after another on the same lanes. -/
theorem State.afterPart_afterPart (s : State) (sel : LaneSel) (m n : Nat)
    (f g : LaneId → Lane → Lane) :
    (s.afterPart sel m f).afterPart sel n g = s.afterPart sel (m + n) fun l ln => g l (f l ln) := by
  simp only [State.afterPart, List.drop_drop]
  congr 1
  · split <;> rfl
  · split <;> rfl

/-- Parts of one lane, on lane 0 and then on lane 1, are a part of both (R71). -/
theorem State.afterPart_one_one (s : State) (m n : Nat) (work : LaneId → Lane → Lane) :
    (s.afterPart (.one .l0) m work).afterPart (.one .l1) n work = s.afterPart .both (m + n) work := by
  simp only [State.afterPart, List.drop_drop]
  rfl

theorem State.callsReturn_afterPart {s : State} {sel : LaneSel} {m n : Nat}
    {work : LaneId → Lane → Lane} (h : s.callsReturn (m + n)) :
    (s.afterPart sel m work).callsReturn n :=
  (State.callsReturn_add.mp h).2

/-- A part that makes `calls` calls on each of its lanes in turn, all of them returning. The messages
are among what such a part does not change. -/
theorem eachLane_of_returns {f : LaneId → State → Ending} {calls : Nat}
    {work : LaneId → Lane → Lane} {s : State} (sel : LaneSel)
    (h : s.callsReturn (calls * (selList sel).length))
    (hf : ∀ l t, t.message = s.message → t.callsReturn calls →
      f l t = .completed (t.afterPart (.one l) calls work)) :
    eachLane f (selList sel) s = .completed (s.afterPart sel (calls * (selList sel).length) work) := by
  cases sel with
  | one l =>
    have h : s.callsReturn calls := by simpa [selList] using h
    simp only [selList, eachLane, hf l s rfl h, Ending.andThen, List.length_singleton, Nat.mul_one]
  | both =>
    rw [show calls * (selList .both).length = calls + calls from Nat.mul_two calls] at h ⊢
    have first := hf .l0 s rfl (State.callsReturn_add.mp h).1
    have second := hf .l1 (s.afterPart (.one .l0) calls work) rfl (State.callsReturn_afterPart h)
    simp only [selList, eachLane, first, second, Ending.andThen, State.afterPart_one_one]

/-! ### The two parts that call collaborators, on one lane (R174, R176) -/

/-- ABSORB's work on a lane: the Hash State of a message. -/
def Lane.absorb (message : List Byte) (ln : Lane) : Lane :=
  { ln with hs := Memory.ofBytes (Config.spongeAbsorb message).toList }

/-- FINAL's work on a lane: the permuted Hash State, and the digest its selector picks. -/
def Lane.finalize (ln : Lane) : Lane := finalLane (Config.permute ln.hsBytes) ln

theorem absorbLane_eq_afterPart {s : State} (sel : LaneSel) (l : LaneId) (h : s.callsReturn 1) :
    absorbLane sel l s =
      .completed (s.afterPart (.one l) 1 fun l => Lane.absorb (s.message sel l)) := by
  rw [absorbLane_of_returns sel l (by rw [State.extCall_of_returns h]), State.extCall_of_returns h,
    ← State.setLane_eq_afterPart]
  rfl

theorem finalOnLane_eq_afterPart {s : State} (sel : LaneSel) (l : LaneId) (h : s.callsReturn 2) :
    finalOnLane sel l s = .completed (s.afterPart (.one l) 2 fun _ => Lane.finalize) := by
  have ⟨permute, fin⟩ := State.callsReturn_add (m := 1) (n := 1).mp h
  rw [finalOnLane, State.extCall_of_returns permute]
  simp only [State.extCall_of_returns fin, List.drop_drop]
  rw [← State.setLane_eq_afterPart]
  cases l <;> rfl

/-! ### HASH as one work on its lanes (R177) -/

/-- The absorb part of HASH. -/
theorem hashAbsorb_of_returns {s : State} (sel : LaneSel) (h : s.callsReturn (selList sel).length) :
    hashAbsorb sel s = .completed (s.afterPart sel (selList sel).length fun l ln =>
      Lane.absorb (s.message sel l) { ln with dv := false }) := by
  have absorbs := eachLane_of_returns (s := s.clearDV sel) (f := absorbLane sel) (calls := 1)
    (work := fun l => Lane.absorb (s.message sel l)) sel (by rw [Nat.one_mul]; exact h)
    fun l t ht hr => by rw [absorbLane_eq_afterPart sel l hr, ht]; rfl
  rw [hashAbsorb, absorbs, State.clearDV, State.onLanes_eq_afterPart, State.afterPart_afterPart,
    Nat.zero_add, Nat.one_mul]

/-- FINAL, and the final part of HASH. That DV is cleared first leaves no trace. -/
theorem finalBody_of_returns {s : State} (sel : LaneSel)
    (h : s.callsReturn (2 * (selList sel).length)) :
    finalBody sel s =
      .completed (s.afterPart sel (2 * (selList sel).length) fun _ => Lane.finalize) := by
  have finals := eachLane_of_returns (s := s.clearDV sel) (f := finalOnLane sel)
    (work := fun _ => Lane.finalize) sel h fun l t _ hr => finalOnLane_eq_afterPart sel l hr
  rw [finalBody, finals, State.clearDV, State.onLanes_eq_afterPart, State.afterPart_afterPart,
    Nat.zero_add]
  rfl

/-- HASH on one lane under a state's configuration: the five parts one after another. -/
def hashLane (s : State) (message : List Byte) (ln : Lane) : Lane :=
  let absorbed := Lane.absorb message { ln with dv := false }
  let exploded := explodeLane s.build.roundSeq s.hwPath s.chunks absorbed
  let mixed := mixLane s.hwPath s.cfgMask s.iterations exploded
  (implodeLane s.build.roundSeq s.hwPath s.chunks mixed).finalize

theorem hashBody_of_returns {s : State} (sel : LaneSel)
    (h : s.callsReturn (3 * (selList sel).length)) :
    hashBody sel s = .completed
      (s.afterPart sel (3 * (selList sel).length) fun l => hashLane s (s.message sel l)) := by
  rw [show 3 * (selList sel).length = (selList sel).length + 2 * (selList sel).length by omega] at h ⊢
  simp only [hashBody, hashAbsorb_of_returns sel (State.callsReturn_add.mp h).1, Ending.andThen,
    explodeBody, mixBody, implodeBody, State.onLanes_eq_afterPart, State.afterPart_afterPart,
    Nat.add_zero, finalBody_of_returns sel (State.callsReturn_afterPart h)]
  rfl

/-- A ready HASH whose calls return completes. -/
theorem exec_hash_of_returns {s : State} {sel : LaneSel} (h : Ready s (.hash sel))
    (hr : s.callsReturn (3 * (selList sel).length)) :
    exec (.hash sel) s = .next { s.afterPart sel (3 * (selList sel).length) (fun l =>
      hashLane s (s.message sel l)) with done := true } := by
  have ⟨idle, _⟩ := h
  have body := hashBody_of_returns (s := { s with done := false }) sel hr
  rw [exec_of_ready h, bodyOf, body]
  simp only [Ending.close, State.afterPart, idle]
  rfl

/-! ### The dual HASH and HASH on each lane (R178) -/

theorem State.needsMet_hash (s : State) (sel : LaneSel) : s.needsMet (.hash sel) = s.cfgok := by
  simp [State.needsMet, State.lanesReady, Instr.lanes, laneReady, needs]

/-- HASH needs nothing of a lane or of the bytes of MSG, so where HASH.D is ready HASH on each lane
is, whatever MSG holds. -/
theorem ready_hash_one {s : State} (h : Ready s (.hash .both)) (msg : Memory) (l : LaneId) :
    Ready { s with msg := msg } (.hash (.one l)) := by
  obtain ⟨idle, clear, legal, needs, fits, consistent⟩ := h
  refine ⟨idle, clear, ?_, ?_, fits, consistent⟩
  · rw [State.legal_of_lanes_some rfl, Bool.and_eq_true, selPresent_iff] at legal ⊢
    exact ⟨rfl, fun single => by simpa using legal.2 single⟩
  · rwa [State.needsMet_hash] at needs ⊢

theorem State.message_both_l0 (s : State) : s.message .both .l0 = s.message (.one .l0) .l0 := by
  simp [State.message, messageBase, selDual, laneNumber]

/-- The same bytes at two places. -/
theorem Memory.readBytes_congr_shift {m m' : Memory} {a a' n : Nat}
    (h : ∀ j, j < n → m.read (a + j) = m'.read (a' + j)) : m.readBytes a n = m'.readBytes a' n := by
  induction n generalizing a a' with
  | zero => rfl
  | succ n ih =>
    have first : m.read a = m'.read a' := h 0 n.succ_pos
    have rest : ∀ j, j < n → m.read (a + 1 + j) = m'.read (a' + 1 + j) := fun j hj => by
      simpa only [Nat.add_assoc, Nat.add_comm 1] using h (j + 1) (Nat.succ_lt_succ hj)
    rw [Memory.readBytes, Memory.readBytes, first, ih rest]

/-- The second message of a dual command, moved to the start of MSG (R174). -/
theorem State.message_one_of_moved {s : State} {msg : Memory} (l : LaneId)
    (h : ∀ j, j < s.msgLen.toNat → msg.read j = s.msg.read (s.msgLen.toNat + j)) :
    State.message { s with msg := msg } (.one l) l = s.message .both .l1 :=
  Memory.readBytes_congr_shift fun j hj => by
    simpa [messageBase, selDual, laneNumber] using h j hj

/-- Settles O49: both forms do `hashLane` on their lanes, which reads of the state its configuration
alone, and of MSG the message. -/
theorem dualHashDecomposes : Obligations.DualHashDecomposes := by
  intro s msg1 ready returns moved
  have returns3 : s.callsReturn 3 := (State.callsReturn_add (m := 3) (n := 3).mp returns).1
  refine ⟨_, _, _, exec_hash_of_returns ready returns,
    exec_hash_of_returns (ready_hash_one ready s.msg .l0) returns3,
    exec_hash_of_returns (ready_hash_one ready msg1 .l1) returns3, ?_, ?_⟩
  · exact congrArg (hashLane s · s.lane0) s.message_both_l0
  · exact congrArg (hashLane s · s.lane1) (State.message_one_of_moved .l1 moved).symm

/-! ### NOP (R179) -/

theorem ready_nop {s : State} (hb : s.seq = none) (hf : s.faulted = false) : Ready s .nop :=
  ⟨hb, hf, rfl, rfl, rfl, nofun⟩

/-- The fields cover all 32 bits of a word (R70). -/
theorem eq_zero_of_fields_eq_zero {w : Dword} (op : fieldOp w = 0#5) (l : fieldL w = 0#1)
    (d : fieldD w = 0#1) (rsv7 : fieldRsv7 w = 0#1) (arg : fieldArg w = 0#4)
    (rsv : fieldRsv w = 0#20) : w = 0#32 := by
  simp only [fieldOp, fieldL, fieldD, fieldRsv7, fieldArg, fieldRsv, ← BitVec.toNat_inj,
    BitVec.extractLsb'_toNat, Nat.shiftRight_eq_div_pow, BitVec.toNat_ofNat] at *
  omega

/-- Of the words with OP = 0 only NOP's, which is zero, names a command (R72, R74). -/
theorem eq_zero_of_decodeWord_ok {w : Dword} {i : Instr} (hop : fieldOp w = 0#5)
    (h : decodeWord w = .ok i) : w = 0#32 := by
  have nop_row : decodeFields 0#5 = laneless .nop := rfl
  rw [decodeWord, hop, nop_row, laneless] at h
  split_ifs at h with reserved lanes arg
  exact eq_zero_of_fields_eq_zero hop lanes.1 lanes.2 reserved.1 arg reserved.2

/-- Settles O27: NOP's body does nothing between the clearing of DONE and its setting, and a word
with OP = 0 that decodes is zero. -/
theorem nopSetsDoneOnly : Obligations.NopSetsDoneOnly := by
  constructor
  · intro s idle clear
    rw [exec_of_ready (ready_nop idle clear)]
    simp only [bodyOf, nopBody, Ending.close, idle]
  · intro w hop hne
    cases decoded : decodeWord w with
    | error e => exact ⟨e, rfl⟩
    | ok i =>
      have op : fieldOp w = 0#5 := BitVec.eq_of_toNat_eq (by rw [toNat_fieldOp, hop]; rfl)
      exact absurd (eq_zero_of_decodeWord_ok op decoded) hne

end Sys2Proof.Machine
end

section
/-! PROOF. R197: SEQERR. A legal command raises it where the "needs" column of R73 fails; where it
holds, what is left is CMDERR for the length of a message (R75), or the command's body, and no body
sets SEQERR. -/

namespace Sys2Proof.Machine

theorem State.seqerr_eq_false_of_not_faulted {s : State} (clear : s.faulted = false) :
    s.seqerr = false := by
  simp only [State.faulted, Bool.or_eq_false_iff] at clear
  obtain ⟨⟨⟨⟨-, -⟩, hseq⟩, -⟩, -⟩ := clear
  exact hseq

/-! ### The tests of R75 on a legal command -/

/-- Where a need fails, the command does not run: SEQERR (R75, R197). -/
theorem State.issue_of_needs_fail {s : State} {i : Instr} (run : State → State)
    (idle : s.seq = none) (clear : s.faulted = false) (legal : s.legal i = true)
    (unmet : s.needsMet i = false) : s.issue i run = .next (s.raise .seqerr) := by
  have verdict : s.verdict i = .raises .seqerr := by
    rw [State.verdict_of_idle i idle clear, if_neg (by simp [legal]), if_pos unmet]
  rw [State.issue, verdict]

/-- Where the needs hold, the command raises CMDERR for its message or runs (R75). -/
theorem State.issue_next_cases_of_needsMet {s t : State} {i : Instr} {run : State → State}
    (idle : s.seq = none) (clear : s.faulted = false) (legal : s.legal i = true)
    (met : s.needsMet i = true) (h : s.issue i run = .next t) :
    t = s.raise .cmderr ∨ (Ready s i ∧ t = run { s with done := false }) := by
  have verdict := State.verdict_of_idle i idle clear
  rw [if_neg (by simp [legal]), if_neg (by simp [met])] at verdict
  rw [State.issue] at h
  split_ifs at verdict with long inconsistent <;> rw [verdict] at h
  · cases h; exact .inl rfl
  · cases h
  · cases h
    obtain ⟨-, ⟨faulted, -⟩ | ready⟩ := State.of_verdict_accepted verdict
    · rw [clear] at faulted; cases faulted
    · exact .inr ⟨ready, rfl⟩

/-! ### The bodies -/

/-- A part of a command, ended, leaves SEQERR. -/
theorem PartEnds.close_seqerr {sel : LaneSel} {s : State} {e : Ending} (h : PartEnds sel s e) :
    e.close.seqerr = s.seqerr := by
  cases e with
  | completed t => exact PartRuns.kept h |>.seqerr
  | stopped t => exact PartFails.kept h |>.seqerr

theorem cfgcommitBody_close_seqerr (s : State) : (cfgcommitBody s).close.seqerr = s.seqerr := by
  rw [cfgcommitBody]
  split <;> rfl

/-- No body sets SEQERR; RESET clears it (R180), any other body leaves it. -/
theorem bodyOf_close_seqerr_eq_false {i : Instr} {s : State}
    (h : addressesScratchpad i = true → s.cfgConsistent = true) (clear : s.seqerr = false) :
    (bodyOf i s).close.seqerr = false := by
  cases i
  case nop => exact clear
  case cfgcommit => exact (cfgcommitBody_close_seqerr s).trans clear
  case reset => exact s.resetRegisters_seqerr
  all_goals exact (PartEnds.bodyOf rfl h).close_seqerr.trans clear

/-! ### The statement -/

/-- Settles O7: the list of R197 is the "needs" column (`seqNeedFails_iff`), whose failing and holding
are the two cases of issuing a legal command above. -/
theorem seqerrExactlyWhenANeedFails : Obligations.SeqerrExactlyWhenANeedFails := by
  intro s i idle clear legal
  rw [seqNeedFails_iff, exec_eq_issue]
  have noSeqerr := State.seqerr_eq_false_of_not_faulted clear
  constructor
  · exact State.issue_of_needs_fail _ idle clear legal
  · intro unmet t h
    have met : s.needsMet i = true := by simpa using unmet
    rcases State.issue_next_cases_of_needsMet idle clear legal met h with rfl | ⟨ready, rfl⟩
    · exact noSeqerr
    · obtain ⟨-, -, -, -, -, consistent⟩ := ready
      exact bodyOf_close_seqerr_eq_false (s := { s with done := false }) consistent noSeqerr

end Sys2Proof.Machine
end

section
/-! PROOF. R213: the port of a running command. Each kind of access has one equation under BUSY: a
read of STATUS is answered, and any other access is refused, a write to CMD by the first test of R75. -/

namespace Sys2Proof.Machine

/-! ### The number of STATUS -/

/-- The block of numbers of a lane names no STATUS (R31). -/
theorem laneReg_ne_status (l : LaneId) (n : Nat) : laneReg l n ≠ some .status := by
  rw [laneReg]
  split_ifs <;> simp

theorem eq_one_of_regOfNumber_status {n : Nat} (h : regOfNumber n = some .status) : n = 0x01 := by
  by_contra ne
  rw [regOfNumber, if_neg ne] at h
  split_ifs at h <;> simp [laneReg_ne_status] at h

theorem State.eq_one_of_regAt_status {s : State} {n : Nat} (h : s.regAt n = some .status) :
    n = 0x01 := by
  rw [State.regAt] at h
  split at h
  · next r named =>
    split_ifs at h
    cases h
    exact eq_one_of_regOfNumber_status named
  · cases h

/-- A read of STATUS is answered, BUSY or not (R31, R63). -/
theorem State.readReg_status (s : State) :
    s.readReg 0x01 = s.answer (s.statusWord.setWidth 128) := rfl

/-! ### Each access while BUSY -/

theorem State.readReg_of_busy {s : State} {n : Nat} (busy : s.busy = true) (ne : n ≠ 0x01) :
    s.readReg n = s.refuseRegRead := by
  rw [State.readReg]
  split
  · rfl
  · next status => exact absurd (State.eq_one_of_regAt_status status) ne
  · exact if_pos busy

/-- CMD refuses a word while BUSY, whether it decodes or not, and whether the host waits for its end
or not (R75). -/
theorem State.writeCmd_of_busy {s : State} (waits : Bool) (w : Dword) (busy : s.busy = true) :
    s.writeCmd waits w = .next s.refuseWrite := by
  rcases s.writeCmd_cases waits w with ⟨i, -, e⟩ | ⟨-, e⟩
  · rw [e, exec_eq_issue, State.beginCommand, State.issue_of_busy i _ busy,
      State.issue_of_busy i _ busy, ite_self, State.refuseWrite]
  · rw [e, State.issueIllegal, if_pos busy, State.refuseWrite]

theorem State.writeReg_of_busy {s : State} (waits : Bool) (n : Nat) (v : Word)
    (busy : s.busy = true) : s.writeReg waits n v = .next s.refuseWrite := by
  rw [State.writeReg]
  split
  · rfl
  · exact State.writeCmd_of_busy waits _ busy
  · exact if_pos busy

theorem State.readWindow_of_busy {s : State} (w : Window) (offset count : Nat)
    (busy : s.busy = true) : s.readWindow w offset count = s.refuseWindowRead count := by
  rw [State.readWindow.eq_def, if_pos (by simp [busy])]

theorem State.writeWindow_of_busy {s : State} (w : Window) (offset : Nat) (data : List Byte)
    (busy : s.busy = true) : s.writeWindow w offset data = s.refuseWrite := by
  rw [State.writeWindow.eq_def, if_pos (by simp [busy])]

/-- Every host action while BUSY but a read of STATUS and the reset input is one of the three
refusals (R63, R199). -/
theorem State.hostAct_of_busy {s : State} {a : HostAction} (waits : Bool) (busy : s.busy = true)
    (notStatus : a ≠ .readReg 0x01) (notReset : ∀ image, a ≠ .resetInput image) :
    s.hostAct waits a = .next s.refuseRegRead
      ∨ (∃ count, s.hostAct waits a = .next (s.refuseWindowRead count))
      ∨ s.hostAct waits a = .next s.refuseWrite := by
  cases a with
  | readReg n =>
    have ne : n ≠ 0x01 := fun e => notStatus (congrArg HostAction.readReg e)
    exact .inl (congrArg _ (State.readReg_of_busy busy ne))
  | writeReg n v => exact .inr (.inr (State.writeReg_of_busy waits n v busy))
  | readWindow w offset count =>
    exact .inr (.inl ⟨count, congrArg _ (State.readWindow_of_busy w offset count busy)⟩)
  | writeWindow w offset data =>
    exact .inr (.inr (congrArg _ (State.writeWindow_of_busy w offset data busy)))
  | resetInput image => exact absurd rfl (notReset image)

/-! ### The statement -/

/-- Settles O8: a step of the busy block takes the access whose moment has come, and each of the
three refusals is the state with ACCERR set, but for the answer and the count of free values. -/
theorem busyRefusesAllButStatus : Obligations.BusyRefusesAllButStatus := by
  intro s q a rest running queued notReset
  rw [step_busy_act running queued]
  have busy : State.busy { s with host := rest } = true := State.busy_eq_true running
  constructor
  · rintro rfl
    rw [State.hostAct, State.readReg_status]
    rfl
  · intro notStatus
    rcases State.hostAct_of_busy (hostWaits rest) busy notStatus notReset with e | ⟨count, e⟩ | e
    · exact ⟨_, e, rfl⟩
    · exact ⟨_, e, rfl⟩
    · exact ⟨_, e, rfl⟩

end Sys2Proof.Machine
end

section
/-! PROOF. R70 to R76: the encoder against the decoder. A word is its six fields; those of an encoded
command are the command's opcode, lane bits and argument, and the decoder accepts just the fields
that its command has. -/

namespace Sys2Proof.Machine

/-! ### The fields of an encoded command (R70) -/

theorem fieldOp_encode (i : Instr) : fieldOp (encode i) = i.op :=
  BitVec.extractLsb'_append_eq_right

theorem fieldL_encode (i : Instr) : fieldL (encode i) = (encodeLanes i.lanes).extractLsb' 0 1 := by
  rw [fieldL, encode, BitVec.extractLsb'_append_eq_of_le (by decide)]
  exact BitVec.extractLsb'_append_eq_of_add_le (by decide)

theorem fieldD_encode (i : Instr) : fieldD (encode i) = (encodeLanes i.lanes).extractLsb' 1 1 := by
  rw [fieldD, encode, BitVec.extractLsb'_append_eq_of_le (by decide)]
  exact BitVec.extractLsb'_append_eq_of_add_le (by decide)

theorem fieldRsv7_encode (i : Instr) : fieldRsv7 (encode i) = 0#1 := by
  rw [fieldRsv7, encode, BitVec.extractLsb'_append_eq_of_le (by decide),
    BitVec.extractLsb'_append_eq_of_le (by decide)]
  exact BitVec.extractLsb'_append_eq_right

theorem fieldArg_encode (i : Instr) : fieldArg (encode i) = i.arg := by
  rw [fieldArg, encode, BitVec.extractLsb'_append_eq_of_le (by decide),
    BitVec.extractLsb'_append_eq_of_le (by decide), BitVec.extractLsb'_append_eq_of_le (by decide)]
  exact BitVec.extractLsb'_append_eq_right

theorem fieldRsv_encode (i : Instr) : fieldRsv (encode i) = 0#20 := by
  rw [fieldRsv, encode, BitVec.extractLsb'_append_eq_of_le (by decide),
    BitVec.extractLsb'_append_eq_of_le (by decide), BitVec.extractLsb'_append_eq_of_le (by decide),
    BitVec.extractLsb'_append_eq_of_le (by decide)]
  exact BitVec.extractLsb'_eq_self

/-- The fields cover all 32 bits of a word (R70). -/
theorem word_ext {v w : Dword} (op : fieldOp v = fieldOp w) (l : fieldL v = fieldL w)
    (d : fieldD v = fieldD w) (rsv7 : fieldRsv7 v = fieldRsv7 w) (arg : fieldArg v = fieldArg w)
    (rsv : fieldRsv v = fieldRsv w) : v = w := by
  simp only [fieldOp, fieldL, fieldD, fieldRsv7, fieldArg, fieldRsv, ← BitVec.toNat_inj,
    BitVec.extractLsb'_toNat, Nat.shiftRight_eq_div_pow] at *
  omega

/-! ### Decoding an encoded command -/

theorem decodeLanes_encodeLanes (sel : LaneSel) :
    decodeLanes ((encodeLanes (some sel)).extractLsb' 0 1) ((encodeLanes (some sel)).extractLsb' 1 1)
      = .ok sel := by
  rcases sel with (_ | _) | _ <;> rfl

/-- A command with lanes, decoded from its own lane bits. -/
theorem laned_encodeLanes (mk : LaneSel → Instr) {argOk : Bool} (sel : LaneSel)
    (h : argOk = true) :
    laned mk argOk ((encodeLanes (some sel)).extractLsb' 0 1)
      ((encodeLanes (some sel)).extractLsb' 1 1) = .ok (mk sel) := by
  rw [laned, decodeLanes_encodeLanes, h]
  rfl

/-- The opcode map reads a well-formed command from its own fields (R73). -/
theorem decodeFields_encode {i : Instr} (h : WellFormed i) :
    decodeFields i.op ((encodeLanes i.lanes).extractLsb' 0 1) ((encodeLanes i.lanes).extractLsb' 1 1)
      i.arg = .ok i := by
  cases i
  case nop | cfgcommit | reset => rfl
  case keygen sel src => cases src <;> exact laned_encodeLanes (fun sel => .keygen sel _) sel rfl
  case round8 sel ksel => exact laned_encodeLanes (fun sel => .round8 sel ksel) sel h
  case xork8 sel ksel => exact laned_encodeLanes (fun sel => .xork8 sel ksel) sel h
  all_goals exact laned_encodeLanes _ _ rfl

/-- Settles O1: the reserved bits of the word are zero, its fields are the command's, and the row of
its opcode reads them back. -/
theorem encodeThenDecode : Obligations.EncodeThenDecode := by
  intro i h
  rw [decodeWord, if_pos ⟨fieldRsv7_encode i, fieldRsv_encode i⟩, fieldOp_encode, fieldL_encode,
    fieldD_encode, fieldArg_encode, decodeFields_encode h]

/-! ### Encoding a decoded command -/

/-- The fields of a command (R70), beside those of a word it is decoded from. -/
structure HasFields (i : Instr) (op : BitVec 5) (l d : BitVec 1) (arg : BitVec 4) : Prop where
  wellFormed : WellFormed i
  op : i.op = op
  l : (encodeLanes i.lanes).extractLsb' 0 1 = l
  d : (encodeLanes i.lanes).extractLsb' 1 1 = d
  arg : i.arg = arg

theorem bitVec_one_eq_one {b : BitVec 1} (h : b ≠ 0#1) : b = 1#1 := by
  revert b; decide

theorem encodeLanes_of_decodeLanes {l d : BitVec 1} {sel : LaneSel}
    (h : decodeLanes l d = .ok sel) : (encodeLanes (some sel)).extractLsb' 0 1 = l
      ∧ (encodeLanes (some sel)).extractLsb' 1 1 = d := by
  rw [decodeLanes] at h
  split_ifs at h with hd hl hl <;> cases h
  · exact ⟨hl.symm, hd.symm⟩
  · exact ⟨(bitVec_one_eq_one hl).symm, hd.symm⟩
  · exact ⟨hl.symm, (bitVec_one_eq_one hd).symm⟩

theorem HasFields.of_laneless {i j : Instr} {op : BitVec 5} {l d : BitVec 1} {arg : BitVec 4}
    (h : laneless i l d arg = .ok j) (hl : i.lanes = none) (hw : WellFormed i) (hop : i.op = op)
    (harg : i.arg = 0#4) : HasFields j op l d arg := by
  rw [laneless] at h
  split_ifs at h with lanes zero
  cases h
  exact ⟨hw, hop, by rw [hl, lanes.1]; rfl, by rw [hl, lanes.2]; rfl, harg.trans zero.symm⟩

theorem HasFields.of_laned {mk : LaneSel → Instr} {argOk : Bool} {i : Instr} {op : BitVec 5}
    {l d : BitVec 1} {arg : BitVec 4} (h : laned mk argOk l d = .ok i)
    (hl : ∀ sel, (mk sel).lanes = some sel) (hop : ∀ sel, (mk sel).op = op)
    (harg : argOk = true → ∀ sel, WellFormed (mk sel) ∧ (mk sel).arg = arg) :
    HasFields i op l d arg := by
  rw [laned] at h
  split at h
  · cases h
  · next sel named =>
    split_ifs at h with ok
    cases h
    obtain ⟨bitL, bitD⟩ := encodeLanes_of_decodeLanes named
    obtain ⟨wf, arg⟩ := harg ok sel
    exact ⟨wf, hop sel, by rw [hl, bitL], by rw [hl, bitD], arg⟩

/-- KSRC is the one bit of ARG that KEYGEN has (R72). -/
theorem arg_keygen_decodeKeySrc {arg : BitVec 4} (h : arg.toNat ≤ 1) (sel : LaneSel) :
    (Instr.keygen sel (decodeKeySrc arg)).arg = arg := by
  have bits : arg = 0#4 ∨ arg = 1#4 := by
    simp only [← BitVec.toNat_inj, BitVec.toNat_ofNat]
    omega
  rcases bits with rfl | rfl <;> rfl

/-- A command that the opcode map reads from fields has those fields (R73). -/
theorem HasFields.of_decodeFields {op : BitVec 5} {l d : BitVec 1} {arg : BitVec 4} {i : Instr}
    (h : decodeFields op l d arg = .ok i) : HasFields i op l d arg := by
  rw [decodeFields] at h
  split at h
  -- NOP, CFGCOMMIT, RESET
  case h_1 hop | h_2 hop | h_16 hop =>
    exact .of_laneless h rfl rfl (BitVec.eq_of_toNat_eq hop.symm) rfl
  -- KEYGEN
  case h_4 hop =>
    exact .of_laned h (fun _ => rfl) (fun _ => BitVec.eq_of_toNat_eq hop.symm)
      fun ok sel => ⟨rfl, arg_keygen_decodeKeySrc (of_decide_eq_true ok) sel⟩
  -- ROUND8, XORK8
  case h_6 hop | h_7 hop =>
    exact .of_laned h (fun _ => rfl) (fun _ => BitVec.eq_of_toNat_eq hop.symm)
      fun ok _ => ⟨ok, rfl⟩
  -- no command
  case h_17 => cases h
  -- the commands with lanes and no argument
  all_goals
    rename_i hop
    exact .of_laned h (fun _ => rfl) (fun _ => BitVec.eq_of_toNat_eq hop.symm)
      fun ok _ => ⟨rfl, (eq_of_beq ok).symm⟩

/-- Settles O2: the word and the encoding of its command have the same six fields. -/
theorem decodeThenEncode : Obligations.DecodeThenEncode := by
  intro w i h
  rw [decodeWord] at h
  split_ifs at h with reserved
  obtain ⟨rsv7, rsv⟩ := reserved
  have fields := HasFields.of_decodeFields h
  refine ⟨fields.wellFormed, word_ext ?_ ?_ ?_ ?_ ?_ ?_⟩
  · rw [fieldOp_encode, fields.op]
  · rw [fieldL_encode, fields.l]
  · rw [fieldD_encode, fields.d]
  · rw [fieldRsv7_encode, rsv7]
  · rw [fieldArg_encode, fields.arg]
  · rw [fieldRsv_encode, rsv]

/-! ### The assembler's table (R76) -/

/-- Settles O4: each of the eleven words is the encoding of its command, which decodes to it. -/
theorem sampleWordsDecode : Obligations.SampleWordsDecode :=
  ⟨encodeThenDecode .nop rfl, encodeThenDecode .cfgcommit rfl,
    encodeThenDecode (.keygen (.one .l0) .implode) rfl,
    encodeThenDecode (.keygen (.one .l1) .implode) rfl,
    encodeThenDecode (.round8 (.one .l0) 9#4) rfl, encodeThenDecode (.round8 .both 9#4) rfl,
    encodeThenDecode (.xork8 (.one .l0) 9#4) rfl, encodeThenDecode (.explode (.one .l1)) rfl,
    encodeThenDecode (.mix .both) rfl, encodeThenDecode (.hash .both) rfl,
    encodeThenDecode .reset rfl⟩

end Sys2Proof.Machine
end

section
/-! PROOF. R174 to R176, R198: ABSORB and FINAL, their collaborator calls returning or one of them
failing. What the calls before a failing one did is lost with it, so a part that fails at any of its
calls leaves what it leaves when it fails at the first. -/

namespace Sys2Proof.Machine

/-! ### What the calls use up of the environment's answers -/

/-- The environment's next failure is `k` calls ahead, and `rest` is what it answers after it. -/
def State.FailsAfter (s : State) (k : Nat) (rest : List Bool) : Prop :=
  s.extFails = List.replicate k false ++ true :: rest

/-- The calls before the next failure return. -/
theorem State.FailsAfter.callsReturn {s : State} {k n : Nat} {rest : List Bool}
    (h : s.FailsAfter k rest) (hn : n ≤ k) : s.callsReturn n := by
  intro b hb
  rw [show s.extFails = _ from h, List.take_append_of_le_length (by simpa using hn)] at hb
  exact List.eq_of_mem_replicate (List.mem_of_mem_take hb)

/-- After a part whose calls return the failure is that much nearer. -/
theorem State.FailsAfter.afterPart {s : State} {k n : Nat} {rest : List Bool} {sel : LaneSel}
    {work : LaneId → Lane → Lane} (h : s.FailsAfter (n + k) rest) :
    (s.afterPart sel n work).FailsAfter k rest := by
  have e : (List.replicate (n + k) false ++ true :: rest).drop n
      = List.replicate k false ++ true :: rest := by
    rw [List.drop_append_of_le_length (by simp), List.drop_replicate, Nat.add_sub_cancel_left]
  rw [State.FailsAfter, ← e, ← h]
  rfl

/-- Either the next `n` calls return, or one of them is the first to fail. -/
theorem State.callsReturn_or_failsAfter (s : State) (n : Nat) :
    s.callsReturn n ∨ ∃ k rest, k < n ∧ s.FailsAfter k rest := by
  simp only [State.callsReturn, State.FailsAfter]
  generalize s.extFails = answers
  induction n generalizing answers with
  | zero => exact .inl fun b hb => by simp at hb
  | succ n ih =>
    match answers with
    | [] => exact .inl fun b hb => by simp at hb
    | true :: rest => exact .inr ⟨0, rest, n.succ_pos, rfl⟩
    | false :: answers =>
      rcases ih answers with h | ⟨k, rest, hk, e⟩
      · exact .inl fun b hb => by
          rcases List.mem_cons.mp hb with rfl | hb
          · rfl
          · exact h b hb
      · exact .inr ⟨k + 1, rest, Nat.succ_lt_succ hk, congrArg (false :: ·) e⟩

theorem State.FailsAfter.extCall {s : State} {rest : List Bool} (h : s.FailsAfter 0 rest) :
    s.extCall = (true, { s with extFails := rest }) := by
  rw [State.extCall, show s.extFails = true :: rest from h]

/-! ### Parts one of whose calls fails -/

/-- Work on a lane that a failed collaborator call loses whole: it writes HS, DIG, SEL and DV alone
(R198). -/
def LostByFailure (work : LaneId → Lane → Lane) : Prop :=
  ∀ l ln draw, (work l ln).afterExtFailure l draw = ln.afterExtFailure l draw

/-- A failure on both lanes after work on the first of them. -/
theorem State.extFailure_afterPart_l0 {work : LaneId → Lane → Lane} (h : LostByFailure work)
    (s : State) (calls : Nat) (rest : List Bool) :
    { (s.afterPart (.one .l0) calls work).extFailure .both with extFails := rest } =
      { s.extFailure .both with extFails := rest } :=
  congrArg (fun ln => { s.extFailure .both with lane0 := ln, extFails := rest }) (h .l0 s.lane0 _)

/-- A part that makes `calls` calls on each of its lanes in turn, one of which fails. -/
theorem eachLane_of_fails {f : LaneId → State → Ending} {calls : Nat}
    {work : LaneId → Lane → Lane} {s : State} (sel : LaneSel) {k : Nat} {rest : List Bool}
    (hk : k < calls * (selList sel).length) (h : s.FailsAfter k rest) (lost : LostByFailure work)
    (hreturns : ∀ l t, t.message = s.message → t.callsReturn calls →
      f l t = .completed (t.afterPart (.one l) calls work))
    (hfails : ∀ l t k, k < calls → t.FailsAfter k rest →
      f l t = .stopped { t.extFailure sel with extFails := rest }) :
    eachLane f (selList sel) s = .stopped { s.extFailure sel with extFails := rest } := by
  cases sel with
  | one l =>
    have hk : k < calls := by simpa [selList] using hk
    simp only [selList, eachLane, hfails l s k hk h, Ending.andThen]
  | both =>
    have hk : k < calls + calls := hk.trans_eq (Nat.mul_two calls)
    by_cases first : k < calls
    · simp only [selList, eachLane, hfails .l0 s k first h, Ending.andThen]
    · obtain ⟨j, rfl⟩ := Nat.exists_eq_add_of_le (Nat.le_of_not_lt first)
      have returns := hreturns .l0 s rfl (h.callsReturn (Nat.le_add_right calls j))
      have fails := hfails .l1 (s.afterPart (.one .l0) calls work) j (by omega) h.afterPart
      simp only [selList, eachLane, returns, Ending.andThen, fails,
        State.extFailure_afterPart_l0 lost]

/-- Clearing DV of the lanes leaves no trace when a call fails. -/
theorem State.extFailure_clearDV (s : State) (sel : LaneSel) :
    (s.clearDV sel).extFailure sel = s.extFailure sel := by
  rcases sel with (_ | _) | _ <;> rfl

/-! ### ABSORB (R174) -/

theorem lostByFailure_absorb (message : LaneId → List Byte) :
    LostByFailure fun l => Lane.absorb (message l) := fun _ _ _ => rfl

theorem absorbLane_of_failsAfter (sel : LaneSel) {l : LaneId} {s : State} {k : Nat}
    {rest : List Bool} (hk : k < 1) (h : s.FailsAfter k rest) :
    absorbLane sel l s = .stopped { s.extFailure sel with extFails := rest } := by
  obtain rfl : k = 0 := by omega
  rw [absorbLane_of_fails sel l (by rw [h.extCall]), h.extCall]
  rfl

theorem absorbBody_of_returns {s : State} (sel : LaneSel) (h : s.callsReturn (selList sel).length) :
    absorbBody sel s = .completed (s.afterPart sel (selList sel).length fun l =>
      Lane.absorb (s.message sel l)) := by
  have absorbs := eachLane_of_returns (f := absorbLane sel) (calls := 1)
    (work := fun l => Lane.absorb (s.message sel l)) sel (by rwa [Nat.one_mul])
    fun l t ht hr => by rw [absorbLane_eq_afterPart sel l hr, ht]
  rwa [Nat.one_mul] at absorbs

theorem absorbBody_of_fails {s : State} (sel : LaneSel) {k : Nat} {rest : List Bool}
    (hk : k < (selList sel).length) (h : s.FailsAfter k rest) :
    absorbBody sel s = .stopped { s.extFailure sel with extFails := rest } :=
  eachLane_of_fails (calls := 1) sel (by rwa [Nat.one_mul]) h (lostByFailure_absorb (s.message sel))
    (fun l t ht hr => by rw [absorbLane_eq_afterPart sel l hr, ht])
    fun _ _ _ hk ht => absorbLane_of_failsAfter sel hk ht

/-- The absorb part of HASH is ABSORB with DV of the lanes cleared first (R28, R177). -/
theorem hashAbsorb_eq (sel : LaneSel) (s : State) :
    hashAbsorb sel s = absorbBody sel (s.clearDV sel) := rfl

theorem hashAbsorb_of_fails {s : State} (sel : LaneSel) {k : Nat} {rest : List Bool}
    (hk : k < (selList sel).length) (h : s.FailsAfter k rest) :
    hashAbsorb sel s = .stopped { s.extFailure sel with extFails := rest } := by
  rw [hashAbsorb_eq, absorbBody_of_fails (s := s.clearDV sel) sel hk h, State.extFailure_clearDV]

/-! ### FINAL (R176) -/

theorem finalOnLane_of_failsAfter (sel : LaneSel) {l : LaneId} {s : State} {k : Nat}
    {rest : List Bool} (hk : k < 2) (h : s.FailsAfter k rest) :
    finalOnLane sel l s = .stopped { s.extFailure sel with extFails := rest } := by
  match k, hk with
  | 0, _ => rw [finalOnLane, h.extCall]; rfl
  | 1, _ =>
    have permute : s.extCall = (false, { s with extFails := s.extFails.drop 1 }) :=
      State.extCall_of_returns (h.callsReturn (Nat.le_refl 1))
    have fin : State.FailsAfter { s with extFails := s.extFails.drop 1 } 0 rest := by
      rw [State.FailsAfter, show s.extFails = _ from h]
      rfl
    rw [finalOnLane, permute]
    simp only [fin.extCall]
    rfl

theorem finalBody_of_fails {s : State} (sel : LaneSel) {k : Nat} {rest : List Bool}
    (hk : k < 2 * (selList sel).length) (h : s.FailsAfter k rest) :
    finalBody sel s = .stopped { s.extFailure sel with extFails := rest } := by
  rw [finalBody, eachLane_of_fails (s := s.clearDV sel) (work := fun _ => Lane.finalize) sel hk h
    (fun _ _ _ => rfl) (fun l t _ hr => finalOnLane_eq_afterPart sel l hr)
    fun _ _ _ hk ht => finalOnLane_of_failsAfter sel hk ht, State.extFailure_clearDV]

/-! ### A command that is such a part -/

theorem State.afterPart_lane_of_not_has {s : State} {sel : LaneSel} {l : LaneId} (calls : Nat)
    (work : LaneId → Lane → Lane) (h : selHas sel l = false) :
    (s.afterPart sel calls work).lane l = s.lane l := by
  cases l <;> exact if_neg (by simp [h])

/-- A ready command whose body is a part whose calls return sets DONE and leaves that part's work
(R71, R75). -/
theorem exec_of_ready_afterPart {s : State} {i : Instr} {sel : LaneSel} {calls : Nat}
    {work : LaneId → Lane → Lane} (h : Ready s i)
    (hbody : bodyOf i { s with done := false } =
      .completed (State.afterPart { s with done := false } sel calls work)) :
    exec i s = .next { s.afterPart sel calls work with done := true } := by
  have ⟨idle, _⟩ := h
  rw [exec_of_ready h, hbody]
  simp only [Ending.close, State.afterPart, idle]

theorem exists_exec_of_ready_afterPart {s : State} {i : Instr} {sel : LaneSel} {calls : Nat}
    {work : LaneId → Lane → Lane} (h : Ready s i)
    (hbody : bodyOf i { s with done := false } =
      .completed (State.afterPart { s with done := false } sel calls work)) :
    ∃ t, exec i s = .next t
      ∧ t = { s with
          lane0 := t.lane0, lane1 := t.lane1, done := true, extFails := s.extFails.drop calls }
      ∧ (∀ l, selHas sel l = false → t.lane l = s.lane l)
      ∧ ∀ l, selHas sel l = true → t.lane l = work l (s.lane l) :=
  ⟨_, exec_of_ready_afterPart h hbody, rfl,
    fun l hl => by cases l <;> exact State.afterPart_lane_of_not_has calls work hl,
    fun l hl => by cases l <;> exact State.afterPart_lane calls work hl⟩

/-! ### The messages and the bytes a collaborator returns -/

theorem Memory.readBytes_eq_map (m : Memory) (a n : Nat) :
    m.readBytes a n = (List.range n).map fun j => m.read (a + j) := by
  apply List.ext_getElem (by simp)
  intro j hj _
  rw [← List.getD_eq_getElem _ Memory.unlisted hj, Memory.getD_readBytes _ _ _ _ _ (by simpa using hj)]
  simp

/-- Only lane 1 of a dual command has its message elsewhere than at the start of MSG (R22, R174). -/
theorem messageBase_eq {sel : LaneSel} {l : LaneId} (n : Nat) :
    messageBase sel l n = if sel = .both ∧ l = .l1 then n else 0 := by
  rcases sel with _ | _ <;> cases l <;> simp [messageBase, selDual, laneNumber]

theorem State.message_eq_map (s : State) (sel : LaneSel) (l : LaneId) :
    s.message sel l = (List.range s.msgLen.toNat).map fun j =>
      s.msg.read ((if sel = .both ∧ l = .l1 then s.msgLen.toNat else 0) + j) := by
  rw [State.message, Memory.readBytes_eq_map, messageBase_eq]

theorem Memory.read_ofBytes_toList {n : Nat} (v : Vector Byte n) (j : Nat) (h : j < n) :
    (Memory.ofBytes v.toList).read j = v[j] := by
  rw [Memory.read_ofBytes]
  simp [h]

/-- Past its bytes such a memory reads as a byte that no entry lists (log 6). -/
theorem Memory.read_ofBytes_toList_past {n : Nat} (v : Vector Byte n) (j : Nat) (h : n ≤ j) :
    (Memory.ofBytes v.toList).read j = 0#8 := by
  rw [Memory.read_ofBytes, List.getD_eq_default _ _ (by simpa using h), Memory.unlisted]

/-! ### The two commands -/

/-- Settles O30: the body of ABSORB is one call a lane, all of which return. -/
theorem absorbFillsTheHashState : Obligations.AbsorbFillsTheHashState := by
  intro s sel ready returns
  obtain ⟨t, ht, rest, others, lanes⟩ :=
    exists_exec_of_ready_afterPart ready (absorbBody_of_returns sel returns)
  refine ⟨t, ht, rest, others, fun l hl => ?_⟩
  have message : State.message { s with done := false } sel l = _ := s.message_eq_map sel l
  rw [lanes l hl, message]
  exact ⟨rfl, Memory.read_ofBytes_toList _, Memory.read_ofBytes_toList_past _⟩

/-- Settles O41: the body of FINAL is two calls a lane, all of which return. -/
theorem finalDispatchesOnTheSelector : Obligations.FinalDispatchesOnTheSelector := by
  intro s sel ready returns
  obtain ⟨t, ht, rest, others, lanes⟩ :=
    exists_exec_of_ready_afterPart ready (finalBody_of_returns sel returns)
  refine ⟨t, ht, rest, others, fun l hl => ?_⟩
  rw [lanes l hl]
  exact ⟨rfl, Memory.read_ofBytes_toList _, Memory.read_ofBytes_toList_past _,
    Memory.read_ofBytes_toList _, Memory.read_ofBytes_toList_past _⟩

/-! ### The first call that fails (R198) -/

/-- What a failed call leaves in a lane of the command. -/
theorem Lane.afterExtFailure_rest (ln : Lane) (l : LaneId) (draw : Nat) :
    ln.afterExtFailure l draw = { ln with
      hs := (ln.afterExtFailure l draw).hs, dig := (ln.afterExtFailure l draw).dig,
      sel := (ln.afterExtFailure l draw).sel, dv := false } := by
  simp only [Lane.afterExtFailure]

/-- A ready command that a failed call ends in state `u`. -/
theorem exists_exec_of_ready_fails {s u : State} {i : Instr} {sel : LaneSel} {rest : List Bool}
    (h : Ready s i) (hbody : bodyOf i { s with done := false } =
      .stopped { u.extFailure sel with extFails := rest }) :
    ∃ t, exec i s = .next t
      ∧ t = { u with
          lane0 := t.lane0, lane1 := t.lane1, exterr := true, seq := none,
          extFails := rest, freeCount := u.freeCount + 1 }
      ∧ (∀ l, selHas sel l = false → t.lane l = u.lane l)
      ∧ ∀ l, selHas sel l = true →
          t.lane l = { u.lane l with
            hs := (t.lane l).hs, dig := (t.lane l).dig, sel := (t.lane l).sel, dv := false }
          ∧ (t.lane l).lost l u.freeCount := by
  refine ⟨{ u.extFailure sel with seq := none, extFails := rest }, ?_, rfl, fun l hl => ?_,
    fun l hl => ?_⟩
  · rw [exec_of_ready h, hbody]
    rfl
  · cases l <;> exact if_neg (by simp [hl])
  · have lane : State.lane { u.extFailure sel with seq := none, extFails := rest } l
        = (u.lane l).afterExtFailure l u.freeCount := by
      cases l <;> exact if_pos hl
    rw [lane]
    exact ⟨Lane.afterExtFailure_rest .., Lane.lost_afterExtFailure ..⟩

/-- Settles O43: whichever call of ABSORB, of FINAL or of HASH's absorb part fails first, the body
stops with what a failure of its first call leaves. -/
theorem firstCollaboratorFailureEndsTheCommand :
    Obligations.FirstCollaboratorFailureEndsTheCommand := by
  intro s i sel k rest which ready fails
  have ⟨idle, _⟩ := ready
  have fails : State.FailsAfter { s with done := false } k rest := fails
  have body : bodyOf i { s with done := false } =
      .stopped { State.extFailure { s with done := false } sel with extFails := rest } := by
    rcases which with ⟨rfl, hk⟩ | ⟨rfl, hk⟩ | ⟨rfl, hk⟩
    · exact absorbBody_of_fails sel hk fails
    · exact finalBody_of_fails sel hk fails
    · rw [bodyOf, hashBody, hashAbsorb_of_fails sel hk fails]
      rfl
  obtain ⟨t, ht, tail, others, lanes⟩ := exists_exec_of_ready_fails ready body
  refine ⟨t, ht, ?_, fun l hl => ?_, fun l hl => ?_⟩
  · rw [tail, idle]
  · cases l <;> exact others _ hl
  · cases l <;> exact lanes _ hl

end Sys2Proof.Machine
end

section
/-! PROOF. R177, R198: HASH as the five commands, and a HASH that fails in its final part. HASH needs
all that its parts need, and stays ready after each of them; the one difference, that HASH clears DV
at its start, no part before FINAL reads or keeps. -/

namespace Sys2Proof.Machine

/-! ### The parts as commands -/

/-- The five parts of HASH are ready, each as a command of its own (R177). -/
structure HashPartsReady (s : State) (sel : LaneSel) : Prop where
  absorb : Ready s (.absorb sel)
  explode : Ready s (.explode sel)
  mix : Ready s (.mix sel)
  implode : Ready s (.implode sel)
  final : Ready s (.final sel)

/-- Where HASH is ready each of its five parts is, as a command (R73, R177). -/
theorem ready_parts_of_hash {s : State} {sel : LaneSel} (h : Ready s (.hash sel)) :
    HashPartsReady s sel := by
  obtain ⟨idle, clear, legal, needed, fits, consistent⟩ := h
  have cfgok : s.cfgok = true := by rwa [State.needsMet_hash] at needed
  have noneNeeded : ∀ i, Instr.lanes i = some sel → laneReady (needs i) = (fun _ => true) →
      s.needsMet i = true := fun i hi hr => by
    simp [State.needsMet, State.lanesReady, hi, hr, cfgok]
  exact ⟨⟨idle, clear, legal, noneNeeded _ rfl rfl, fits, nofun⟩,
    ⟨idle, clear, legal, noneNeeded _ rfl rfl, rfl, fun _ => consistent rfl⟩,
    ⟨idle, clear, legal, noneNeeded _ rfl rfl, rfl, fun _ => consistent rfl⟩,
    ⟨idle, clear, legal, noneNeeded _ rfl rfl, rfl, fun _ => consistent rfl⟩,
    ⟨idle, clear, legal, noneNeeded _ rfl rfl, rfl, nofun⟩⟩

/-- HASH stays ready after a part: it needs nothing of a lane. -/
theorem ready_hash_afterPart {s : State} {sel : LaneSel} (h : Ready s (.hash sel)) (calls : Nat)
    (work : LaneId → Lane → Lane) (done : Bool) :
    Ready { s.afterPart sel calls work with done := done } (.hash sel) := by
  obtain ⟨idle, clear, legal, needed, fits, consistent⟩ := h
  refine ⟨idle, clear, legal, ?_, fits, consistent⟩
  rwa [State.needsMet_hash] at needed ⊢

/-- The first four parts of HASH on one lane, under a state's configuration. -/
def hashFourParts (s : State) (message : List Byte) (ln : Lane) : Lane :=
  implodeLane s.build.roundSeq s.hwPath s.chunks
    (mixLane s.hwPath s.cfgMask s.iterations
      (explodeLane s.build.roundSeq s.hwPath s.chunks (Lane.absorb message ln)))

/-- A command that works on its lanes, issued after a part on the same lanes. -/
theorem exec_after_part {s : State} {i : Instr} {sel : LaneSel} {calls : Nat}
    {work : LaneId → Lane → Lane} (f : Lane → Lane)
    (h : Ready { s.afterPart sel calls work with done := true } i)
    (hbody : bodyOf i { s.afterPart sel calls work with done := false } =
      .completed (State.onLanes { s.afterPart sel calls work with done := false } sel f)) :
    exec i { s.afterPart sel calls work with done := true } =
      .next { s.afterPart sel calls (fun l ln => f (work l ln)) with done := true } := by
  rw [exec_of_ready_onLanes h hbody]
  exact congrArg (fun t : State => Host.Outcome.next { t with done := true })
    (State.afterPart_afterPart s sel calls 0 work fun _ => f)

/-- The state that ABSORB, EXPLODE, MIX and IMPLODE leave, ABSORB's calls returning. -/
def State.afterFourParts (s : State) (sel : LaneSel) : State :=
  { s.afterPart sel (selList sel).length (fun l => hashFourParts s (s.message sel l)) with
    done := true }

theorem execAll_hashFourParts {s : State} {sel : LaneSel} (h : Ready s (.hash sel))
    (hr : s.callsReturn (selList sel).length) (is : List Instr) :
    execAll (.absorb sel :: .explode sel :: .mix sel :: .implode sel :: is) s =
      execAll is (s.afterFourParts sel) := by
  have ready := fun work => ready_parts_of_hash
    (ready_hash_afterPart h (selList sel).length work true)
  have absorb := exec_of_ready_afterPart (ready_parts_of_hash h).absorb (absorbBody_of_returns sel hr)
  have explode := fun work => exec_after_part (explodeLane s.build.roundSeq s.hwPath s.chunks)
    (ready work).explode rfl
  have mix := fun work => exec_after_part (mixLane s.hwPath s.cfgMask s.iterations)
    (ready work).mix rfl
  have implode := fun work => exec_after_part (implodeLane s.build.roundSeq s.hwPath s.chunks)
    (ready work).implode rfl
  rw [execAll_cons_of_next absorb, execAll_cons_of_next (explode _), execAll_cons_of_next (mix _),
    execAll_cons_of_next (implode _)]
  rfl

/-! ### DV -/

/-- A lane with DV otherwise. -/
def Lane.withDv (ln : Lane) (dv : Bool) : Lane := { ln with dv := dv }

/-- A loop none of whose turns reads or writes DV. -/
theorem loopUp_withDv {f : Nat → Lane → Lane} {dv : Bool}
    (h : ∀ c ln, f c (ln.withDv dv) = (f c ln).withDv dv) (n : Nat) (ln : Lane) :
    loopUp n f (ln.withDv dv) = (loopUp n f ln).withDv dv :=
  (loopUp_map (fun ln => ln.withDv dv) n f f ln fun c ln _ => (h c ln).symm).symm

theorem explodeLane_withDv (mode : RoundSeq) (hw : Bool) (n : Nat) (ln : Lane) (dv : Bool) :
    explodeLane mode hw n (ln.withDv dv) = (explodeLane mode hw n ln).withDv dv :=
  loopUp_withDv (fun _ _ => rfl) n (explodeStart hw ln)

theorem mixLane_withDv (hw : Bool) (mask : Word) (n : Nat) (ln : Lane) (dv : Bool) :
    mixLane hw mask n (ln.withDv dv) = (mixLane hw mask n ln).withDv dv :=
  loopUp_withDv (fun _ _ => rfl) n (mixinitLane ln)

theorem implodeLane_withDv (mode : RoundSeq) (hw : Bool) (n : Nat) (ln : Lane) (dv : Bool) :
    implodeLane mode hw n (ln.withDv dv) = (implodeLane mode hw n ln).withDv dv :=
  congrArg stxLane (loopUp_withDv (fun _ _ => rfl) n (implodeStart hw ln))

/-- No part between ABSORB and FINAL reads or writes DV. -/
theorem hashFourParts_withDv (s : State) (message : List Byte) (ln : Lane) (dv : Bool) :
    hashFourParts s message (ln.withDv dv) = (hashFourParts s message ln).withDv dv := by
  rw [hashFourParts, hashFourParts, ← implodeLane_withDv, ← mixLane_withDv, ← explodeLane_withDv]
  rfl

/-- HASH's work on a lane is that of the five commands: FINAL sets DV whatever it was. -/
theorem hashLane_eq (s : State) (message : List Byte) :
    hashLane s message = fun ln => (hashFourParts s message ln).finalize :=
  funext fun ln => (congrArg Lane.finalize (hashFourParts_withDv s message ln false)).trans rfl

/-- Settles O42: the five commands do `hashLane` on each lane, one part of it each. -/
theorem hashIsTheFiveCommands : Obligations.HashIsTheFiveCommands := by
  intro s sel ready returns
  have length : 3 * (selList sel).length = (selList sel).length + 2 * (selList sel).length := by omega
  obtain ⟨absorbReturns, finalReturns⟩ := State.callsReturn_add.mp (length ▸ returns)
  have ready4 : Ready (s.afterFourParts sel) (.hash sel) := ready_hash_afterPart ready _ _ true
  have final := exec_of_ready_afterPart (ready_parts_of_hash ready4).final
    (finalBody_of_returns sel finalReturns)
  refine ⟨_, exec_hash_of_returns ready returns, ?_⟩
  rw [execAll_hashFourParts ready absorbReturns, execAll_cons_of_next final, execAll_nil, length]
  simp only [hashLane_eq]
  exact congrArg (fun t : State => Host.Outcome.next { t with done := true })
    (State.afterPart_afterPart s sel (selList sel).length (2 * (selList sel).length)
      (fun l => hashFourParts s (s.message sel l)) fun _ => Lane.finalize)

/-! ### A HASH that fails in its final part (R198) -/

/-- The body of HASH, its absorb calls returning, is its final part after the other four. -/
theorem hashBody_eq_finalBody {s : State} (sel : LaneSel)
    (h : s.callsReturn (selList sel).length) :
    hashBody sel s = finalBody sel (s.afterPart sel (selList sel).length fun l ln =>
      (hashFourParts s (s.message sel l) ln).withDv false) := by
  simp only [← hashFourParts_withDv]
  simp only [hashBody, hashAbsorb_of_returns sel h, Ending.andThen, explodeBody, mixBody,
    implodeBody, State.onLanes_eq_afterPart, State.afterPart_afterPart, Nat.add_zero]
  rfl

/-- Settles O44: HASH's final part, like FINAL, leaves at any of its calls what a failure of the
first leaves, in the state that the four commands have left but for DV. -/
theorem endedPartsKeepTheirEffects : Obligations.EndedPartsKeepTheirEffects := by
  intro s sel k rest ready hk hlt fails
  have ⟨idle, _⟩ := ready
  obtain ⟨j, rfl⟩ := Nat.exists_eq_add_of_le hk
  have fails : s.FailsAfter ((selList sel).length + j) rest := fails
  have absorbReturns : s.callsReturn (selList sel).length :=
    fails.callsReturn (Nat.le_add_right _ j)
  have body := (hashBody_eq_finalBody (s := { s with done := false }) sel absorbReturns).trans
    (finalBody_of_fails sel (by omega)
      (State.FailsAfter.afterPart (s := { s with done := false }) fails))
  obtain ⟨t, ht, tail, others, lanes⟩ := exists_exec_of_ready_fails ready body
  refine ⟨t, _, ht, execAll_hashFourParts ready absorbReturns [], ?_, fun l hl => ?_, fun l hl => ?_⟩
  · rw [tail]
    simp only [State.afterPart, State.afterFourParts, idle]
  · rw [others l hl]
    cases l <;> exact if_neg (by simp [hl])
  · have lane := lanes l hl
    rw [State.afterPart_lane _ _ hl] at lane
    have four : (s.afterFourParts sel).lane l = hashFourParts s (s.message sel l) (s.lane l) := by
      cases l <;> exact if_pos hl
    rw [four]
    cases l <;> exact lane

end Sys2Proof.Machine
end

section
/-! PROOF. R97, R121, R122, R134, R141: the commands that are one work on each of their lanes. A
command that calls no collaborator is `laneWork` on its lanes; the two directions in which bytes and
blocks pass between HS and X are inverse. -/

namespace Sys2Proof.Machine

/-! ### The work of a command on a lane -/

/-- What a command that calls no collaborator does to each of its lanes, under a state's build and
configuration. -/
def laneWork (s : State) : Instr → Lane → Lane
  | .keygen _ src => keygenLane s.hwPath src
  | .ldx _ => ldxLane
  | .round8 _ ksel => round8Lane s.hwPath ksel
  | .xork8 _ ksel => xork8Lane ksel
  | .stx _ => stxLane
  | .explode _ => explodeLane s.build.roundSeq s.hwPath s.chunks
  | .implode _ => implodeLane s.build.roundSeq s.hwPath s.chunks
  | .mixinit _ => mixinitLane
  | .mixstep _ => mixstepLane s.hwPath s.cfgMask
  | .mix _ => mixLane s.hwPath s.cfgMask s.iterations
  | _ => id

theorem bodyOf_eq_onLanes {i : Instr} {sel : LaneSel} (hi : i.lanes = some sel)
    (hc : callsCollaborator i = false) (s : State) :
    bodyOf i s = .completed (s.onLanes sel (laneWork s i)) := by
  cases i
  case nop | cfgcommit | reset => cases hi
  case absorb | final | hash => cases hc
  all_goals
    cases hi
    rfl

/-- The state that work on lanes leaves when it is a whole command: DONE is set (R75). -/
def State.worked (s : State) (sel : LaneSel) (f : Lane → Lane) : State :=
  { s.onLanes sel f with done := true }

@[simp] theorem State.worked_lane (s : State) (sel : LaneSel) (f : Lane → Lane) (l : LaneId) :
    (s.worked sel f).lane l = if selHas sel l then f (s.lane l) else s.lane l := by
  cases l <;> rfl

/-- A ready command that calls no collaborator. -/
theorem exec_of_ready_laneWork {s : State} {i : Instr} {sel : LaneSel} (h : Ready s i)
    (hi : i.lanes = some sel) (hc : callsCollaborator i = false) :
    exec i s = .next (s.worked sel (laneWork s i)) :=
  exec_of_ready_onLanes h (bodyOf_eq_onLanes hi hc _)

/-- Work on lanes changes nothing that the work of a command reads beside its lane. -/
theorem laneWork_worked (s : State) (sel : LaneSel) (f : Lane → Lane) (i : Instr) :
    laneWork (s.worked sel f) i = laneWork s i := by
  cases i <;> rfl

theorem State.worked_worked (s : State) (sel : LaneSel) (f g : Lane → Lane) :
    (s.worked sel f).worked sel g = s.worked sel fun ln => g (f ln) :=
  congrArg (fun t : State => { t with done := true }) (s.onLanes_onLanes sel f g)

/-- Such a command issued after work on the same lanes. -/
theorem exec_of_ready_worked {s : State} {i : Instr} {sel : LaneSel} {f : Lane → Lane}
    (h : Ready (s.worked sel f) i) (hi : i.lanes = some sel) (hc : callsCollaborator i = false) :
    exec i (s.worked sel f) = .next (s.worked sel fun ln => laneWork s i (f ln)) := by
  rw [exec_of_ready_laneWork h hi hc, laneWork_worked, State.worked_worked]

/-- Two such commands on the same lanes, one after another. -/
theorem execAll_two_laneWorks {s : State} {i j : Instr} {sel : LaneSel} (h : Ready s i)
    (h' : Ready (s.worked sel (laneWork s i)) j) (hi : i.lanes = some sel)
    (hj : j.lanes = some sel) (hci : callsCollaborator i = false)
    (hcj : callsCollaborator j = false) :
    execAll [i, j] s = .next (s.worked sel fun ln => laneWork s j (laneWork s i ln)) := by
  rw [execAll_cons_of_next (exec_of_ready_laneWork h hi hci),
    execAll_cons_of_next (exec_of_ready_worked h' hj hcj), execAll_nil]

/-- What a command needs beside the valid bits of its lanes. -/
def State.readyButLanes (s : State) (i : Instr) : Prop :=
  s.seq = none ∧ s.faulted = false ∧ s.legal i = true
    ∧ ((needs i).cfgok = true → s.cfgok = true) ∧ s.messageFits i = true
    ∧ (addressesScratchpad i = true → s.cfgConsistent = true)

theorem ready_iff {s : State} {i : Instr} {sel : LaneSel} (hi : i.lanes = some sel) :
    Ready s i ↔ s.readyButLanes i
      ∧ ∀ l, selHas sel l = true → laneReady (needs i) (s.lane l) = true := by
  have lanes : s.lanesReady i = true ↔
      ∀ l, selHas sel l = true → laneReady (needs i) (s.lane l) = true := by
    rw [State.lanesReady, hi, Bool.and_eq_true, Bool.or_eq_true, Bool.or_eq_true, Bool.not_eq_true',
      Bool.not_eq_true', ← Bool.not_eq_true, ← Bool.not_eq_true, ← imp_iff_not_or, ← imp_iff_not_or]
    exact ⟨fun h l => by cases l; exacts [h.1, h.2], fun h => ⟨h .l0, h .l1⟩⟩
  have needsMet : s.needsMet i = true ↔
      ((needs i).cfgok = true → s.cfgok = true) ∧ s.lanesReady i = true := by
    cases h : (needs i).cfgok <;> simp [State.needsMet, h]
  rw [Ready, State.readyButLanes, needsMet, lanes]
  tauto

/-- A command is ready after work on its lanes that leaves the valid bits it needs set. -/
theorem ready_worked {s : State} {i : Instr} {sel : LaneSel} {f : Lane → Lane}
    (hi : i.lanes = some sel) (h : s.readyButLanes i)
    (hf : ∀ l, selHas sel l = true → laneReady (needs i) (f (s.lane l)) = true) :
    Ready (s.worked sel f) i := by
  refine (ready_iff hi).mpr ⟨h, fun l hl => ?_⟩
  rw [State.worked_lane, if_pos hl]
  exact hf l hl

/-! ### KEYGEN and LDX -/

/-- Settles O31: the seed lies at HS bytes 0 or 32 as KSRC says. -/
theorem keygenDerivesTheKeys : Obligations.KeygenDerivesTheKeys := by
  intro s sel src ready
  obtain ⟨t, ht, rest, others, lanes⟩ :=
    exists_exec_of_ready_onLanes (f := keygenLane s.hwPath src) ready rfl
  refine ⟨t, ht, rest, others, fun l hl => (lanes l hl).trans ?_⟩
  cases src <;> rfl

@[simp] theorem getElem_ldxLane_x (ln : Lane) (i : Nat) (hi : i < 8) :
    (ldxLane ln).x[i] = ln.hs.read128 (64 + 16 * i) := Vector.getElem_ofFn ..

/-- Settles O32: LDX's eight blocks are those of HS from byte 64 on. -/
theorem ldxLoadsTheBlocks : Obligations.LdxLoadsTheBlocks := by
  intro s sel ready
  obtain ⟨t, ht, rest, others, lanes⟩ := exists_exec_of_ready_onLanes (f := ldxLane) ready rfl
  refine ⟨t, ht, rest, others, fun l hl => ?_⟩
  rw [lanes l hl]
  exact ⟨rfl, fun i => getElem_ldxLane_x _ i i.isLt⟩

/-! ### ROUND8 and XORK8 -/

theorem selectKey_of_lt (k : Vector Block 10) {ksel : BitVec 4} (h : ksel.toNat < 10) :
    selectKey k ksel = k[ksel.toNat] := by
  rw [selectKey]
  simp [h]

/-- KSEL = 15 names the zero key (R72). -/
theorem selectKey_zero (k : Vector Block 10) : selectKey k 15#4 = 0#128 := by
  simp [selectKey]

@[simp] theorem getElem_round8Lane_x (hw : Bool) (ksel : BitVec 4) (ln : Lane) (i : Nat)
    (hi : i < 8) :
    (round8Lane hw ksel ln).x[i] = roundHW ln.x[i] (selectKey ln.k ksel) :=
  (Vector.getElem_map ..).trans (cipherRound_eq_roundHW ..)

@[simp] theorem getElem_xork8Lane_x (ksel : BitVec 4) (ln : Lane) (i : Nat) (hi : i < 8) :
    (xork8Lane ksel ln).x[i] = ln.x[i] ^^^ selectKey ln.k ksel :=
  Vector.getElem_map ..

/-- Settles O33: the round of each block has the key that KSEL selects, on either path. -/
theorem round8AppliesOneRound : Obligations.Round8AppliesOneRound := by
  intro s sel ksel ready
  obtain ⟨t, ht, rest, others, lanes⟩ :=
    exists_exec_of_ready_onLanes (f := round8Lane s.hwPath ksel) ready rfl
  refine ⟨t, ht, rest, others, fun l hl => ?_⟩
  rw [lanes l hl]
  refine ⟨rfl, ?_, fun key i => ?_⟩
  · rintro rfl i
    exact (getElem_round8Lane_x _ _ _ i i.isLt).trans (by rw [selectKey_zero]; rfl)
  · exact (getElem_round8Lane_x _ _ _ i i.isLt).trans (by rw [selectKey_of_lt _ key]; rfl)

/-- Settles O34: each block is exclusive-ored with the key that KSEL selects. -/
theorem xork8AddsOneKey : Obligations.Xork8AddsOneKey := by
  intro s sel ksel ready
  obtain ⟨t, ht, rest, others, lanes⟩ :=
    exists_exec_of_ready_onLanes (f := xork8Lane ksel) ready rfl
  refine ⟨t, ht, rest, others, fun l hl => ?_⟩
  rw [lanes l hl]
  exact ⟨rfl, fun key i =>
    (getElem_xork8Lane_x _ _ i i.isLt).trans (by rw [selectKey_of_lt _ key]; rfl)⟩

/-! ### The key of a round split off (R122) -/

theorem Lane.ext_x {a b : Lane} (hrest : a = { b with x := a.x })
    (h : ∀ (i : Nat) (hi : i < 8), a.x[i] = b.x[i]) : a = b := by
  rw [hrest, Vector.ext h]

theorem xork8Lane_round8Lane (hw : Bool) (ksel : BitVec 4) (ln : Lane) :
    xork8Lane ksel (round8Lane hw 15#4 ln) = round8Lane hw ksel ln := by
  refine Lane.ext_x rfl fun i hi => ?_
  have keys : (round8Lane hw 15#4 ln).k = ln.k := rfl
  rw [getElem_xork8Lane_x, getElem_round8Lane_x, getElem_round8Lane_x, keys, selectKey_zero,
    roundHW, roundHW, BitVec.xor_zero]

theorem xork8Lane_xork8Lane (ksel : BitVec 4) (ln : Lane) :
    xork8Lane ksel (xork8Lane ksel ln) = ln := by
  refine Lane.ext_x rfl fun i hi => ?_
  have keys : (xork8Lane ksel ln).k = ln.k := rfl
  rw [getElem_xork8Lane_x, getElem_xork8Lane_x, keys, BitVec.xor_assoc, BitVec.xor_self,
    BitVec.xor_zero]

/-- Where a keyed ROUND8 is ready, so are the unkeyed one, XORK8 with its key, and that after work
that leaves the valid bits (R73). -/
theorem ready_of_ready_round8 {s : State} {sel : LaneSel} {ksel : BitVec 4} (key : ksel.toNat < 10)
    (h : Ready s (.round8 sel ksel)) :
    Ready s (.round8 sel 15#4) ∧ Ready s (.xork8 sel ksel)
      ∧ ∀ f : Lane → Lane, (∀ ln, (f ln).kv = ln.kv ∧ (f ln).xv = ln.xv) →
        Ready (s.worked sel f) (.xork8 sel ksel) := by
  have keyed : ksel ≠ 15#4 := by rintro rfl; simp at key
  rw [ready_iff rfl] at h
  obtain ⟨⟨idle, clear, legal, cfgok, -, -⟩, lanes⟩ := h
  have valid : ∀ l, selHas sel l = true → (s.lane l).kv = true ∧ (s.lane l).xv = true := by
    simpa [laneReady, needs, keyed] using lanes
  have present : selPresent sel s.build.nlanes = true := by
    rw [State.legal_of_lanes_some rfl, Bool.and_eq_true] at legal
    exact legal.2
  have unkeyed : s.readyButLanes (.round8 sel 15#4) :=
    ⟨idle, clear, by rw [State.legal_of_lanes_some rfl, present]; rfl, cfgok, rfl, nofun⟩
  have xor : s.readyButLanes (.xork8 sel ksel) :=
    ⟨idle, clear, by
      rw [State.legal_of_lanes_some rfl, present, Bool.and_true]
      simpa [Instr.wellFormed, xork8KeyLegal] using key, nofun, rfl, nofun⟩
  refine ⟨(ready_iff rfl).mpr ⟨unkeyed, fun l hl => ?_⟩, (ready_iff rfl).mpr ⟨xor, fun l hl => ?_⟩,
    fun f hf => ready_worked rfl xor fun l hl => ?_⟩
  · simp [laneReady, needs, valid l hl]
  · simp [laneReady, needs, valid l hl]
  · simp [laneReady, needs, hf, valid l hl]

/-- Settles O45: the key is exclusive-ored at the end of a round, and twice is not at all. -/
theorem round8SplitsIntoUnkeyedAndXor : Obligations.Round8SplitsIntoUnkeyedAndXor := by
  intro s sel ksel key ready
  obtain ⟨unkeyed, xor, xorAfter⟩ := ready_of_ready_round8 key ready
  refine ⟨_, exec_of_ready_laneWork ready rfl rfl, ?_, ?_⟩
  · rw [execAll_two_laneWorks unkeyed (xorAfter _ fun _ => ⟨rfl, rfl⟩) rfl rfl rfl rfl]
    exact congrArg _ (congrArg (s.worked sel) (funext (xork8Lane_round8Lane s.hwPath ksel)))
  · rw [execAll_two_laneWorks xor (xorAfter _ fun _ => ⟨rfl, rfl⟩) rfl rfl rfl rfl]
    have same : (fun ln => laneWork s (.xork8 sel ksel) (laneWork s (.xork8 sel ksel) ln))
        = fun ln => ln := funext (xork8Lane_xork8Lane ksel)
    rw [same, State.worked, State.onLanes_id]

/-! ### HS to X and back (R134, R141) -/

/-- Settles O35: the stores of STX hold X at HS bytes 64..191 and touch no other byte. -/
theorem stxStoresTheBlocks : Obligations.StxStoresTheBlocks := by
  intro s sel ready
  obtain ⟨t, ht, rest, others, lanes⟩ := exists_exec_of_ready_onLanes (f := stxLane) ready rfl
  refine ⟨t, ht, rest, others, fun l hl => ?_⟩
  rw [lanes l hl]
  exact ⟨rfl, fun i => read128_stxLane_hs _ i i.isLt, read_stxLane_hs_outside _⟩

/-- Byte `j` of a block read is the byte at its place (R50). -/
theorem byteOf_read128 (m : Memory) (a j : Nat) (hj : j < 16) :
    byteOf (m.read128 a) j = m.read (a + j) := by
  have bytes : leBytes 16 (leValue (m.readBytes a 16)) = m.readBytes a 16 := by
    have := leBytes_leValue (m.readBytes a 16)
    rwa [m.length_readBytes] at this
  rw [byteOf_eq_ofNat, m.toNat_read128, ← getD_leBytes 16 _ j hj, bytes,
    m.getD_readBytes a 16 j _ hj]

/-- What LDX loads STX puts back byte for byte. -/
theorem read_stxLane_ldxLane_hs (ln : Lane) (a : Nat) :
    (stxLane (ldxLane ln)).hs.read a = ln.hs.read a := by
  by_cases outside : a < 64 ∨ 192 ≤ a
  · exact read_stxLane_hs_outside _ a outside
  · obtain ⟨i, j, hi, hj, rfl⟩ : ∃ i j, i < 8 ∧ j < 16 ∧ a = 64 + 16 * i + j :=
      ⟨(a - 64) / 16, (a - 64) % 16, by omega, by omega, by omega⟩
    rw [← byteOf_read128 _ _ j hj, read128_stxLane_hs _ i hi, getElem_ldxLane_x,
      byteOf_read128 _ _ j hj]

/-- Settles O46: LDX sets the valid bit that STX needs, and STX puts back what LDX loaded. -/
theorem ldxThenStxKeepsTheHashState : Obligations.LdxThenStxKeepsTheHashState := by
  intro s sel ready
  have ⟨idle, clear, legal, _⟩ := ready
  have store : s.readyButLanes (.stx sel) := ⟨idle, clear, legal, nofun, rfl, nofun⟩
  refine ⟨_, execAll_two_laneWorks ready (ready_worked rfl store fun _ _ => rfl) rfl rfl rfl rfl,
    fun l a => ?_⟩
  rw [State.worked_lane]
  split
  · exact read_stxLane_ldxLane_hs _ a
  · rfl

end Sys2Proof.Machine
end

section
/-! PROOF. R61, R71, R157: MIX as MIXINIT and its iterations, and a dual command as the command on
each lane. Work on one lane leaves a command on the other as ready as it was, and work on the two
lanes may be done in either order. -/

namespace Sys2Proof.Machine

/-! ### MIX (R157) -/

theorem times_times_one {α : Type} (f : α → α) (n : Nat) (a : α) :
    times f n (f a) = times f (n + 1) a := by
  induction n with
  | zero => rfl
  | succ n ih => exact congrArg f ih

/-- `n` MIXSTEPs after work that sets MV. -/
theorem execAll_mixsteps {s : State} {sel : LaneSel} (h : s.readyButLanes (.mixstep sel))
    (n : Nat) (f : Lane → Lane) (hf : ∀ ln, (f ln).mv = true) :
    execAll (List.replicate n (.mixstep sel)) (s.worked sel f) =
      .next (s.worked sel fun ln => times (mixstepLane s.hwPath s.cfgMask) n (f ln)) := by
  induction n generalizing f with
  | zero => rfl
  | succ n ih =>
    have ready : Ready (s.worked sel f) (.mixstep sel) :=
      ready_worked rfl h fun l _ => by simp [laneReady, needs, hf]
    rw [List.replicate_succ, execAll_cons_of_next (exec_of_ready_worked ready rfl rfl),
      ih (fun ln => laneWork s (.mixstep sel) (f ln)) fun ln => hf ln]
    simp only [laneWork, times_times_one]

/-- Settles O40: MIX does MIXINIT and then its loop of MIXSTEPs on each lane. -/
theorem mixIsMixinitAndIterations : Obligations.MixIsMixinitAndIterations := by
  intro s sel ready
  have ⟨idle, clear, legal, needed, _, consistent⟩ := ready
  have cfgok : s.cfgok = true := by
    simpa [State.needsMet, State.lanesReady, Instr.lanes, laneReady, needs] using needed
  have init : Ready s (.mixinit sel) :=
    (ready_iff rfl).mpr ⟨⟨idle, clear, legal, nofun, rfl, nofun⟩, fun _ _ => rfl⟩
  have step : s.readyButLanes (.mixstep sel) :=
    ⟨idle, clear, legal, fun _ => cfgok, rfl, fun _ => consistent rfl⟩
  refine ⟨_, exec_of_ready_laneWork ready rfl rfl, ?_⟩
  rw [execAll_cons_of_next (exec_of_ready_laneWork init rfl rfl),
    execAll_mixsteps step _ _ fun _ => rfl]
  have loop : laneWork s (.mix sel) = fun ln =>
      times (mixstepLane s.hwPath s.cfgMask) s.iterations (mixinitLane ln) :=
    funext fun ln => loopUp_const _ _ _
  rw [loop]
  rfl

/-! ### One lane and the other (R61, R71) -/

theorem withLanes_lanes {i : Instr} {sel : LaneSel} (hi : i.lanes = some sel) (sel' : LaneSel) :
    (withLanes sel' i).lanes = some sel' := by
  cases i
  case nop | cfgcommit | reset => cases hi
  all_goals rfl

/-- On other lanes a command needs the same, and does the same to each of them. -/
theorem withLanes_same (sel : LaneSel) (i : Instr) :
    needs (withLanes sel i) = needs i ∧ callsCollaborator (withLanes sel i) = callsCollaborator i
      ∧ (withLanes sel i).wellFormed = i.wellFormed ∧ readsMessage (withLanes sel i) = readsMessage i
      ∧ addressesScratchpad (withLanes sel i) = addressesScratchpad i
      ∧ ∀ s, laneWork s (withLanes sel i) = laneWork s i := by
  cases i <;> exact ⟨rfl, rfl, rfl, rfl, rfl, fun _ => rfl⟩

/-- Where a dual command is ready, the command on one lane is, and stays so while the other lane is
worked on. -/
theorem ready_withLanes_one {s : State} {i : Instr} (hi : i.lanes = some .both) (h : Ready s i)
    (l : LaneId) :
    Ready s (withLanes (.one l) i)
      ∧ ∀ l' f, l' ≠ l → Ready (s.worked (.one l') f) (withLanes (.one l) i) := by
  obtain ⟨needs_eq, -, wf_eq, message_eq, scratchpad_eq, -⟩ := withLanes_same (.one l) i
  have lanes := withLanes_lanes hi (.one l)
  obtain ⟨⟨idle, clear, legal, cfgok, fits, consistent⟩, valid⟩ := (ready_iff hi).mp h
  have legal' : s.legal (withLanes (.one l) i) = true := by
    rw [State.legal_of_lanes_some hi, Bool.and_eq_true, selPresent_iff] at legal
    rw [State.legal_of_lanes_some lanes, Bool.and_eq_true, selPresent_iff, wf_eq]
    exact ⟨legal.1, fun single => by simpa using legal.2 single⟩
  have butLanes : s.readyButLanes (withLanes (.one l) i) :=
    ⟨idle, clear, legal', by rwa [needs_eq], by rwa [State.messageFits, message_eq],
      by rwa [scratchpad_eq]⟩
  have ready : ∀ t : State, t.readyButLanes (withLanes (.one l) i) → t.lane l = s.lane l →
      Ready t (withLanes (.one l) i) := fun t ht hl => by
    refine (ready_iff lanes).mpr ⟨ht, fun l' hl' => ?_⟩
    obtain rfl : l = l' := by simpa [selHas] using hl'
    rw [hl, needs_eq]
    exact valid l rfl
  refine ⟨ready s butLanes rfl, fun l' f ne => ready _ butLanes ?_⟩
  rw [State.worked_lane, if_neg (by simpa [selHas] using ne)]

/-- Settles O47: each of the three ways does `laneWork` once on each of the two lanes. -/
theorem dualIsBothLanesInAnyOrder : Obligations.DualIsBothLanesInAnyOrder := by
  intro s i hi hc ready
  have hc' : ∀ l, callsCollaborator (withLanes (.one l) i) = false := fun l =>
    have ⟨_, calls, _⟩ := withLanes_same (.one l) i
    calls.trans hc
  have work : ∀ l, laneWork s (withLanes (.one l) i) = laneWork s i := fun l =>
    have ⟨_, _, _, _, _, same⟩ := withLanes_same (.one l) i
    same s
  have inTurn : ∀ l l', l ≠ l' → execAll [withLanes (.one l) i, withLanes (.one l') i] s =
      .next ((s.worked (.one l) (laneWork s i)).worked (.one l') (laneWork s i)) := fun l l' ne => by
    obtain ⟨first, -⟩ := ready_withLanes_one hi ready l
    obtain ⟨-, second⟩ := ready_withLanes_one hi ready l'
    rw [execAll_cons_of_next (exec_of_ready_laneWork first (withLanes_lanes hi _) (hc' l)),
      execAll_cons_of_next (exec_of_ready_laneWork (second l _ ne) (withLanes_lanes hi _) (hc' l')),
      execAll_nil, laneWork_worked, work, work]
  exact ⟨_, exec_of_ready_laneWork ready hi hc, inTurn .l0 .l1 nofun, inTurn .l1 .l0 nofun⟩

end Sys2Proof.Machine
end

section
/-! PROOF. R61, R181, R205: what a command does not read. Two states are related when they agree on
all that a command reads; its body keeps them related part by part, and so does issuing it. For one
relation the states differ in the other lane, for the other in HWPATH. -/

namespace Sys2Proof.Machine

/-! ### Related endings and outcomes -/

/-- Both endings are of one kind, and their states are related. -/
inductive Ending.Rel (R : State → State → Prop) : Ending → Ending → Prop
  | completed {s t : State} (h : R s t) : Ending.Rel R (.completed s) (.completed t)
  | stopped {s t : State} (h : R s t) : Ending.Rel R (.stopped s) (.stopped t)

/-- Both outcomes are next states that are related, or the same stop. -/
inductive OutcomeRel (R : State → State → Prop) :
    Host.Outcome State Fault Refusal → Host.Outcome State Fault Refusal → Prop
  | next {s t : State} (h : R s t) : OutcomeRel R (.next s) (.next t)
  | fault (r : Fault) : OutcomeRel R (.fault r) (.fault r)

theorem Ending.Rel.andThen {R : State → State → Prop} {e e' : Ending} {f g : State → Ending}
    (h : e.Rel R e') (hfg : ∀ s t, R s t → (f s).Rel R (g t)) :
    (e.andThen f).Rel R (e'.andThen g) := by
  cases h with
  | completed h => exact hfg _ _ h
  | stopped h => exact .stopped h

theorem Ending.Rel.eachLane {R : State → State → Prop} {f : LaneId → State → Ending}
    (ls : List LaneId) (hf : ∀ l ∈ ls, ∀ s t, R s t → (f l s).Rel R (f l t)) {s t : State}
    (h : R s t) : (eachLane f ls s).Rel R (eachLane f ls t) := by
  induction ls generalizing s t with
  | nil => exact .completed h
  | cons l ls ih =>
    exact (hf l (by simp) s t h).andThen fun _ _ h' =>
      ih (fun l' hl' => hf l' (by simp [hl'])) h'

/-! ### The bodies of commands with lanes -/

/-- Related states agree on all that the parts of commands on these lanes read, and what such a part
does to both leaves them related. -/
structure Unread (R : State → State → Prop) (sel : LaneSel) : Prop where
  onLanes : ∀ {s t}, R s t → ∀ f, R (s.onLanes sel f) (t.onLanes sel f)
  setLane : ∀ {s t l}, R s t → selHas sel l = true → ∀ ln, R (s.setLane l ln) (t.setLane l ln)
  extCall : ∀ {s t}, R s t → t.extCall.1 = s.extCall.1 ∧ R s.extCall.2 t.extCall.2
  extFailure : ∀ {s t}, R s t → R (s.extFailure sel) (t.extFailure sel)
  lane : ∀ {s t l}, R s t → selHas sel l = true → t.lane l = s.lane l
  message : ∀ {s t}, R s t → t.message = s.message
  work : ∀ {s t}, R s t → laneWork t = laneWork s

section
variable {R : State → State → Prop} {sel : LaneSel} {s t : State}

theorem Unread.absorbLane (unread : Unread R sel) {l : LaneId} (hl : selHas sel l = true)
    (h : R s t) : (absorbLane sel l s).Rel R (absorbLane sel l t) := by
  obtain ⟨same, called⟩ := unread.extCall h
  cases fails : s.extCall.1 with
  | true =>
    rw [absorbLane_of_fails sel l fails, absorbLane_of_fails sel l (same.trans fails)]
    exact .stopped (unread.extFailure called)
  | false =>
    rw [absorbLane_of_returns sel l fails, absorbLane_of_returns sel l (same.trans fails),
      unread.lane h hl, unread.message h]
    exact .completed (unread.setLane called hl _)

theorem Unread.finalOnLane (unread : Unread R sel) {l : LaneId} (hl : selHas sel l = true)
    (h : R s t) : (finalOnLane sel l s).Rel R (finalOnLane sel l t) := by
  obtain ⟨same, called⟩ := unread.extCall h
  rw [Machine.finalOnLane, Machine.finalOnLane]
  generalize s.extCall = c, t.extCall = c' at same called ⊢
  obtain ⟨⟨b, s1⟩, ⟨b', t1⟩⟩ := c, c'
  obtain rfl : b' = b := same
  cases b' with
  | true => exact .stopped (unread.extFailure called)
  | false =>
    obtain ⟨same, called⟩ := unread.extCall (s := s1) (t := t1) called
    simp only
    generalize s1.extCall = c, t1.extCall = c' at same called ⊢
    obtain ⟨⟨b, s2⟩, ⟨b', t2⟩⟩ := c, c'
    obtain rfl : b' = b := same
    cases b' with
    | true => exact .stopped (unread.extFailure called)
    | false =>
      simp only [unread.lane (s := s2) (t := t2) called hl]
      exact .completed (unread.setLane called hl _)

theorem Unread.absorbBody (unread : Unread R sel) (h : R s t) :
    (absorbBody sel s).Rel R (absorbBody sel t) :=
  .eachLane (f := Machine.absorbLane sel) _
    (fun _ hl _ _ h => unread.absorbLane (selHas_of_mem hl) h) h

theorem Unread.finalBody (unread : Unread R sel) (h : R s t) :
    (finalBody sel s).Rel R (finalBody sel t) :=
  .eachLane (f := Machine.finalOnLane sel) _
    (fun _ hl _ _ h => unread.finalOnLane (selHas_of_mem hl) h) (unread.onLanes h _)

/-- A command that calls no collaborator. -/
theorem Unread.laneWork (unread : Unread R sel) {i : Instr} (hi : i.lanes = some sel)
    (hc : callsCollaborator i = false) (h : R s t) : (bodyOf i s).Rel R (bodyOf i t) := by
  rw [bodyOf_eq_onLanes hi hc, bodyOf_eq_onLanes hi hc, unread.work h]
  exact .completed (unread.onLanes h _)

theorem Unread.hashBody (unread : Unread R sel) (h : R s t) :
    (hashBody sel s).Rel R (hashBody sel t) :=
  ((((unread.absorbBody (unread.onLanes h _)).andThen
    fun _ _ => unread.laneWork (i := .explode sel) rfl rfl).andThen
    fun _ _ => unread.laneWork (i := .mix sel) rfl rfl).andThen
    fun _ _ => unread.laneWork (i := .implode sel) rfl rfl).andThen fun _ _ => unread.finalBody

theorem Unread.bodyOf (unread : Unread R sel) {i : Instr} (hi : i.lanes = some sel) (h : R s t) :
    (bodyOf i s).Rel R (bodyOf i t) := by
  by_cases hc : callsCollaborator i = false
  · exact unread.laneWork hi hc h
  · cases i
    case absorb => cases hi; exact unread.absorbBody h
    case final => cases hi; exact unread.finalBody h
    case hash => cases hi; exact unread.hashBody h
    all_goals exact absurd rfl hc

end

/-! ### Issuing a command in related states -/

/-- What issuing a command does to STATUS keeps states related. -/
structure KeepsFlags (R : State → State → Prop) : Prop where
  setFault : ∀ {s t}, R s t → ∀ f, R (s.setFault f) (t.setFault f)
  done : ∀ {s t}, R s t → ∀ b, R { s with done := b } { t with done := b }
  idle : ∀ {s t}, R s t → R { s with seq := none } { t with seq := none }

theorem KeepsFlags.close {R : State → State → Prop} (flags : KeepsFlags R) {e e' : Ending}
    (h : e.Rel R e') : R e.close e'.close := by
  cases h with
  | completed h => exact flags.done (flags.idle h) true
  | stopped h => exact flags.idle h

theorem exec_rel {R : State → State → Prop} (flags : KeepsFlags R) {s t : State} {i : Instr}
    (verdict : t.verdict i = s.verdict i) (h : R s t)
    (body : ∀ {s t}, R s t → (bodyOf i s).Rel R (bodyOf i t)) :
    OutcomeRel R (exec i s) (exec i t) := by
  rw [exec_eq_issue, exec_eq_issue, State.issue, State.issue, verdict]
  cases s.verdict i with
  | refusedBusy => exact .next (flags.setFault h .accerr)
  | ignored => exact .next h
  | raises f => exact .next (flags.done (flags.setFault h f) false)
  | outside => exact .fault _
  | accepted => exact .next (flags.close (body (flags.done h false)))

/-! ### The other lane (R61, R205) -/

/-- The same state but for the contents of one lane. -/
def OtherLane (l' : LaneId) (other : Lane) (s t : State) : Prop := t = s.setLane l' other

theorem State.extCall_setLane (s : State) (l : LaneId) (ln : Lane) :
    (s.setLane l ln).extCall = (s.extCall.1, s.extCall.2.setLane l ln) := by
  rw [State.extCall, State.extCall, State.setLane_extFails]
  split
  · rfl
  · cases l <;> rfl

/-- A command on one lane reads nothing of the other. -/
theorem OtherLane.unread {l l' : LaneId} (ne : l' ≠ l) (other : Lane) :
    Unread (OtherLane l' other) (.one l) where
  onLanes := by
    rintro s _ rfl f
    cases l <;> cases l' <;> trivial
  setLane := by
    rintro s _ l'' rfl hl ln
    obtain rfl : l = l'' := by simpa [selHas] using hl
    cases l <;> cases l' <;> trivial
  extCall := by
    rintro s _ rfl
    rw [State.extCall_setLane]
    exact ⟨rfl, rfl⟩
  extFailure := by
    rintro s _ rfl
    cases l <;> cases l' <;> trivial
  lane := by
    rintro s _ l'' rfl hl
    obtain rfl : l = l'' := by simpa [selHas] using hl
    rw [State.setLane_lane, if_neg ne.symm]
  message := by
    rintro s _ rfl
    cases l' <;> rfl
  work := by
    rintro s _ rfl
    funext i
    cases l' <;> cases i <;> rfl

theorem OtherLane.keepsFlags (l' : LaneId) (other : Lane) : KeepsFlags (OtherLane l' other) where
  setFault := by
    rintro s _ rfl f
    cases l' <;> cases f <;> rfl
  done := by
    rintro s _ rfl b
    cases l' <;> rfl
  idle := by
    rintro s _ rfl
    cases l' <;> rfl

/-- The tests of R75 read of the lanes only those that the command names. -/
theorem State.verdict_setLane (s : State) {i : Instr} {l l' : LaneId} (hi : i.lanes = some (.one l))
    (ne : l' ≠ l) (other : Lane) : (s.setLane l' other).verdict i = s.verdict i := by
  have lanes : (s.setLane l' other).lanesReady i = s.lanesReady i := by
    rw [State.lanesReady, State.lanesReady, hi]
    cases l <;> cases l' <;> trivial
  have needsMet : (s.setLane l' other).needsMet i = s.needsMet i := by
    rw [State.needsMet, State.needsMet, lanes, State.setLane_cfgok]
  rw [State.verdict, State.verdict, needsMet]
  cases l' <;> rfl

/-- Settles O48: the tests and the body of the command, in states that differ in the other lane. -/
theorem lanesDoNotInterfere : Obligations.LanesDoNotInterfere := by
  intro s i l l' other hi ne
  have related := exec_rel (OtherLane.keepsFlags l' other) (s.verdict_setLane hi ne other) rfl
    fun h => (OtherLane.unread ne other).bodyOf hi h
  revert related
  generalize exec i s = o, exec i (s.setLane l' other) = o'
  rintro (⟨rfl⟩ | _) <;> rfl

/-! ### HWPATH (R181) -/

/-- States of a UNIFORM10 block that differ at most in HWPATH. -/
def OtherPath (s t : State) : Prop :=
  s.build.roundSeq = .uniform10
    ∧ ∃ c : Dword, c.extractLsb' 1 31 = s.cfgCtl.extractLsb' 1 31 ∧ t = { s with cfgCtl := c }

theorem keygenLane_hwPath (hw hw' : Bool) : keygenLane hw = keygenLane hw' := by
  funext src ln
  rw [keygenLane, keygenLane, keyExpand_hwPath hw hw']

theorem round8Lane_hwPath (hw hw' : Bool) : round8Lane hw = round8Lane hw' := by
  funext ksel ln
  simp only [round8Lane, cipherRound_eq_roundHW]

theorem mixstepLane_hwPath (hw hw' : Bool) : mixstepLane hw = mixstepLane hw' := by
  funext mask ln
  simp only [mixstepLane, mixFirstHalf, cipherRound_eq_roundHW]

theorem explodeChunk_hwPath (hw hw' : Bool) :
    explodeChunk .uniform10 hw = explodeChunk .uniform10 hw' := by
  funext c ln
  simp only [explodeChunk, roundSeq_uniform10_hwPath hw hw']

theorem implodeChunk_hwPath (hw hw' : Bool) :
    implodeChunk .uniform10 hw = implodeChunk .uniform10 hw' := by
  funext c ln
  simp only [implodeChunk, roundSeq_uniform10_hwPath hw hw']

/-- With UNIFORM10 no work on a lane depends on HWPATH. -/
theorem OtherPath.laneWork {s t : State} (h : OtherPath s t) : laneWork t = laneWork s := by
  obtain ⟨uniform, c, -, rfl⟩ := h
  funext i ln
  cases i <;> simp only [Machine.laneWork, uniform]
  case keygen => rw [keygenLane_hwPath]
  case round8 => rw [round8Lane_hwPath]
  case mixstep => rw [mixstepLane_hwPath]
  case mix => rw [mixLane, mixLane, mixstepLane_hwPath]; rfl
  case explode =>
    rw [explodeLane, explodeLane, explodeStart, explodeStart, explodeChunk_hwPath,
      keygenLane_hwPath]
    rfl
  case implode =>
    rw [implodeLane, implodeLane, implodeStart, implodeStart, implodeChunk_hwPath,
      keygenLane_hwPath]
    rfl

theorem State.extCall_withCfgCtl (s : State) (c : Dword) :
    State.extCall { s with cfgCtl := c } = (s.extCall.1, { s.extCall.2 with cfgCtl := c }) := by
  simp only [State.extCall]
  split <;> rfl

theorem OtherPath.unread (sel : LaneSel) : Unread OtherPath sel where
  onLanes := by
    rintro s _ ⟨uniform, c, reserved, rfl⟩ f
    exact ⟨uniform, c, reserved, rfl⟩
  setLane := by
    rintro s _ l ⟨uniform, c, reserved, rfl⟩ - ln
    cases l <;> exact ⟨uniform, c, reserved, rfl⟩
  extCall := by
    rintro s _ ⟨uniform, c, reserved, rfl⟩
    rw [State.extCall_withCfgCtl]
    exact ⟨rfl, by rwa [State.extCall_build], c, by rwa [State.extCall_cfgCtl], rfl⟩
  extFailure := by
    rintro s _ ⟨uniform, c, reserved, rfl⟩
    exact ⟨uniform, c, reserved, rfl⟩
  lane := by
    rintro s _ l ⟨-, c, -, rfl⟩ -
    cases l <;> rfl
  message := by
    rintro s _ ⟨-, c, -, rfl⟩
    rfl
  work := OtherPath.laneWork

theorem OtherPath.keepsFlags : KeepsFlags OtherPath where
  setFault := by
    rintro s _ ⟨uniform, c, reserved, rfl⟩ f
    cases f <;> exact ⟨uniform, c, reserved, rfl⟩
  done := by
    rintro s _ ⟨uniform, c, reserved, rfl⟩ b
    exact ⟨uniform, c, reserved, rfl⟩
  idle := by
    rintro s _ ⟨uniform, c, reserved, rfl⟩
    exact ⟨uniform, c, reserved, rfl⟩

/-- The check of R173 reads the reserved bits of CFG_CTL, not HWPATH. -/
theorem OtherPath.cfgConsistent {s t : State} (h : OtherPath s t) :
    t.cfgConsistent = s.cfgConsistent := by
  obtain ⟨-, c, reserved, rfl⟩ := h
  rw [State.cfgConsistent, State.cfgConsistent, reserved]

theorem OtherPath.verdict {s t : State} (h : OtherPath s t) (i : Instr) :
    t.verdict i = s.verdict i := by
  rw [State.verdict, State.verdict, h.cfgConsistent]
  obtain ⟨-, c, -, rfl⟩ := h
  rfl

theorem OtherPath.cfgcommitBody {s t : State} (h : OtherPath s t) :
    (cfgcommitBody s).Rel OtherPath (cfgcommitBody t) := by
  rw [Machine.cfgcommitBody, Machine.cfgcommitBody, h.cfgConsistent]
  split
  · obtain ⟨uniform, c, reserved, rfl⟩ := h
    exact .completed ⟨uniform, c, reserved, rfl⟩
  · exact .stopped (OtherPath.keepsFlags.done (OtherPath.keepsFlags.setFault h .cfgerr) false)

/-- RESET leaves CFG_CTL zero whatever it was (R180). -/
theorem OtherPath.resetBody {s t : State} (h : OtherPath s t) :
    (resetBody s).Rel OtherPath (resetBody t) := by
  obtain ⟨uniform, c, -, rfl⟩ := h
  exact .stopped ⟨uniform, 0#32, rfl, rfl⟩

theorem OtherPath.bodyOf (i : Instr) {s t : State} (h : OtherPath s t) :
    (bodyOf i s).Rel OtherPath (bodyOf i t) := by
  cases hi : i.lanes with
  | some sel => exact (OtherPath.unread sel).bodyOf hi h
  | none =>
    cases i
    case nop => exact .completed h
    case cfgcommit => exact OtherPath.cfgcommitBody h
    case reset => exact OtherPath.resetBody h
    all_goals cases hi

/-- HWPATH is bit 0 of CFG_CTL (R36). -/
theorem otherPath_xor_one {s : State} (uniform : s.build.roundSeq = .uniform10) (c : Dword) :
    OtherPath { s with cfgCtl := c } { s with cfgCtl := c ^^^ 1#32 } := by
  refine ⟨uniform, c ^^^ 1#32, ?_, rfl⟩
  rw [BitVec.extractLsb'_xor, show (1#32).extractLsb' 1 31 = 0#31 by decide, BitVec.xor_zero]

/-- Settles O51: the tests and the body of the command, in states that differ in HWPATH. -/
theorem hwPathChangesNoResult : Obligations.HwPathChangesNoResult := by
  intro s i c uniform
  have path := otherPath_xor_one uniform c
  have related := exec_rel OtherPath.keepsFlags (path.verdict i) path (OtherPath.bodyOf i)
  revert related
  generalize exec i { s with cfgCtl := c } = o, exec i { s with cfgCtl := c ^^^ 1#32 } = o'
  rintro (⟨-, c', -, rfl⟩ | _) <;> rfl

end Sys2Proof.Machine
end

section
/-! PROOF. R20 to R29, R41: what each command writes. The work of a command on a lane writes the
memories and registers that the rules name for it, a failed collaborator call those that R198 leaves
unspecified, and RESET those of R40. -/

namespace Sys2Proof.Machine

/-! ### What a command writes of a lane -/

/-- The second lane is the first, but for what the rules let this command write. -/
def LaneWrites (i : Instr) (a b : Lane) : Prop :=
  (writesHs i = false → b.hs = a.hs)
    ∧ (writesSp i = false → b.sp = a.sp)
    ∧ (writesK i = false → b.k = a.k)
    ∧ (writesX i = false → b.x = a.x)
    ∧ (writesMixing i = false → b.idx = a.idx ∧ b.al = a.al ∧ b.ah = a.ah ∧ b.bx = a.bx)
    ∧ (writesDigest i = false → b.dig = a.dig ∧ b.sel = a.sel)

theorem LaneWrites.refl (i : Instr) (ln : Lane) : LaneWrites i ln ln := by
  simp [LaneWrites]

/-- HASH may write every memory and register set of its lanes. -/
theorem LaneWrites.hash (sel : LaneSel) (a b : Lane) : LaneWrites (.hash sel) a b := by
  simp [LaneWrites, writesHs, writesSp, writesK, writesX, writesMixing, writesDigest]

theorem LaneWrites.explodeLane (sel : LaneSel) (mode : RoundSeq) (hw : Bool) (n : Nat) (ln : Lane) :
    LaneWrites (.explode sel) ln (explodeLane mode hw n ln) := by
  rw [Machine.explodeLane, loopUp_explodeChunk_rest]
  simp [LaneWrites, writesHs, writesSp, writesK, writesX, writesMixing, writesDigest, explodeStart,
    ldxLane, keygenLane]

theorem LaneWrites.implodeLane (sel : LaneSel) (mode : RoundSeq) (hw : Bool) (n : Nat) (ln : Lane) :
    LaneWrites (.implode sel) ln (implodeLane mode hw n ln) := by
  rw [implodeLane_rest]
  simp [LaneWrites, writesHs, writesSp, writesK, writesX, writesMixing, writesDigest]

/-- The loop of MIX writes SP and the mixing registers alone. -/
theorem mixLane_rest (hw : Bool) (mask : Word) (n : Nat) (ln : Lane) :
    mixLane hw mask n ln = { ln with
      sp := (mixLane hw mask n ln).sp, idx := (mixLane hw mask n ln).idx,
      al := (mixLane hw mask n ln).al, ah := (mixLane hw mask n ln).ah,
      bx := (mixLane hw mask n ln).bx, mv := true } := by
  refine loopUp_invariant (fun t : Lane => t = { ln with
    sp := t.sp, idx := t.idx, al := t.al, ah := t.ah, bx := t.bx, mv := true }) n _ rfl ?_
  intro c t _ ht
  rw [mixstepLane, mixSecondHalf, mixFirstHalf, ht]

theorem LaneWrites.mixLane (sel : LaneSel) (hw : Bool) (mask : Word) (n : Nat) (ln : Lane) :
    LaneWrites (.mix sel) ln (mixLane hw mask n ln) := by
  rw [mixLane_rest]
  simp [LaneWrites, writesHs, writesSp, writesK, writesX, writesMixing, writesDigest]

/-- The work of a command that calls no collaborator. -/
theorem LaneWrites.laneWork (s : State) (i : Instr) (ln : Lane) :
    LaneWrites i ln (laneWork s i ln) := by
  cases i
  case explode sel => exact .explodeLane sel _ _ _ ln
  case implode sel => exact .implodeLane sel _ _ _ ln
  case mix sel => exact .mixLane sel _ _ _ ln
  all_goals
    simp [LaneWrites, writesHs, writesSp, writesK, writesX, writesMixing, writesDigest,
      Machine.laneWork, keygenLane, ldxLane, round8Lane, xork8Lane, stxLane, mixinitLane,
      mixstepLane, mixFirstHalf, mixSecondHalf]

/-- What a failed collaborator call leaves of a lane (R198). -/
theorem LaneWrites.afterExtFailure {i : Instr} (hs : writesHs i = true) (dig : writesDigest i = true)
    (ln : Lane) (l : LaneId) (draw : Nat) : LaneWrites i ln (ln.afterExtFailure l draw) := by
  rw [Lane.afterExtFailure_rest]
  simp [LaneWrites, hs, dig]

/-- What RESET leaves of a lane (R40). -/
theorem LaneWrites.afterReset (ln : Lane) (l : LaneId) (draw : Nat) :
    LaneWrites .reset ln (ln.afterReset l draw) := by
  simp [LaneWrites, writesK, writesX, writesMixing, writesDigest, Lane.afterReset]

/-! ### What the body of a command writes -/

theorem State.resetRegisters_lane (s : State) (l : LaneId) :
    s.resetRegisters.lane l = (s.lane l).afterReset l s.freeCount := by
  cases l <;> simp only [State.resetRegisters, State.lane]

theorem Ending.close_lane_completed (s : State) (l : LaneId) :
    (Ending.completed s).close.lane l = s.lane l := by cases l <;> rfl

theorem Ending.close_lane_stopped (s : State) (l : LaneId) :
    (Ending.stopped s).close.lane l = s.lane l := by cases l <;> rfl

/-- A part whose calls return, its work writing what the command may. -/
theorem LaneWrites.of_returns {i : Instr} {s : State} {sel : LaneSel} {calls : Nat}
    {work : LaneId → Lane → Lane} (h : ∀ l ln, LaneWrites i ln (work l ln)) (l : LaneId) :
    LaneWrites i (s.lane l) ((Ending.completed (s.afterPart sel calls work)).close.lane l) := by
  rw [Ending.close_lane_completed]
  cases hl : selHas sel l with
  | true => rw [State.afterPart_lane calls work hl]; exact h l _
  | false => rw [State.afterPart_lane_of_not_has calls work hl]; exact .refl i _

/-- A part one of whose calls fails. -/
theorem LaneWrites.of_fails {i : Instr} {s : State} {sel : LaneSel} {rest : List Bool}
    (hs : writesHs i = true) (dig : writesDigest i = true) (l : LaneId) :
    LaneWrites i (s.lane l)
      ((Ending.stopped { s.extFailure sel with extFails := rest }).close.lane l) := by
  have lane : (Ending.stopped { s.extFailure sel with extFails := rest }).close.lane l
      = (s.extFailure sel).lane l := by cases l <;> rfl
  rw [lane, State.extFailure_lane]
  split
  · exact .afterExtFailure hs dig _ l _
  · exact .refl i _

theorem LaneWrites.bodyOf (i : Instr) (s : State) (l : LaneId) :
    LaneWrites i (s.lane l) ((bodyOf i s).close.lane l) := by
  cases i
  case nop => rw [Machine.bodyOf, nopBody, Ending.close_lane_completed]; exact .refl _ _
  case cfgcommit =>
    have lane : (Machine.bodyOf .cfgcommit s).close.lane l = s.lane l := by
      rw [Machine.bodyOf, cfgcommitBody]
      cases l <;> split <;> rfl
    rw [lane]
    exact .refl _ _
  case reset =>
    rw [Machine.bodyOf, resetBody, Ending.close_lane_stopped, State.resetRegisters_lane]
    exact .afterReset _ l _
  case absorb sel =>
    rcases s.callsReturn_or_failsAfter (selList sel).length with returns | ⟨k, rest, hk, fails⟩
    · rw [Machine.bodyOf, absorbBody_of_returns sel returns]
      refine .of_returns (fun _ _ => ?_) l
      simp [LaneWrites, writesHs, writesDigest, Lane.absorb]
    · rw [Machine.bodyOf, absorbBody_of_fails sel hk fails]
      exact .of_fails rfl rfl l
  case final sel =>
    rcases s.callsReturn_or_failsAfter (2 * (selList sel).length) with
      returns | ⟨k, rest, hk, fails⟩
    · rw [Machine.bodyOf, finalBody_of_returns sel returns]
      refine .of_returns (fun _ _ => ?_) l
      simp [LaneWrites, writesHs, writesDigest, Lane.finalize, finalLane]
    · rw [Machine.bodyOf, finalBody_of_fails sel hk fails]
      exact .of_fails rfl rfl l
  case hash sel => exact .hash sel _ _
  all_goals
    rw [bodyOf_eq_onLanes rfl rfl, State.onLanes_eq_afterPart]
    exact .of_returns (fun _ _ => .laneWork s _ _) l

/-! ### What a command leaves outside the lanes -/

/-- The fields outside the lanes that no command, or RESET alone, writes. -/
def OutsideKept (i : Instr) (s t : State) : Prop :=
  t.msg = s.msg ∧ t.host = s.host ∧ t.reply = s.reply
    ∧ (i ≠ .reset → t.cfgIter = s.cfgIter ∧ t.cfgMem = s.cfgMem ∧ t.cfgMask = s.cfgMask
        ∧ t.cfgCtl = s.cfgCtl ∧ t.msgLen = s.msgLen)

theorem Kept.outsideKept {s t : State} (h : Kept s t) (i : Instr) : OutsideKept i s t :=
  ⟨h.msg, h.host, h.reply, fun _ => ⟨h.cfgIter, h.cfgMem, h.cfgMask, h.cfgCtl, h.msgLen⟩⟩

theorem OutsideKept.bodyOf {i : Instr} {s : State}
    (h : addressesScratchpad i = true → s.cfgConsistent = true) :
    OutsideKept i s (bodyOf i s).close := by
  cases hi : i.lanes with
  | some sel =>
    have part := PartEnds.bodyOf hi h
    cases hb : Machine.bodyOf i s with
    | completed t => rw [hb] at part; exact (PartRuns.kept part).outsideKept i
    | stopped t => rw [hb] at part; exact (PartFails.kept part).outsideKept i
  | none =>
    cases i
    case nop => exact ⟨rfl, rfl, rfl, fun _ => ⟨rfl, rfl, rfl, rfl, rfl⟩⟩
    case cfgcommit =>
      rw [Machine.bodyOf, cfgcommitBody]
      split <;> exact ⟨rfl, rfl, rfl, fun _ => ⟨rfl, rfl, rfl, rfl, rfl⟩⟩
    case reset => simp [OutsideKept, Machine.bodyOf, resetBody, Ending.close]
    all_goals cases hi

/-- Settles O52: a command that is not run changes STATUS at most, and one that is run does what its
body does. -/
theorem onlyTheNamedCommandsWrite : Obligations.OnlyTheNamedCommandsWrite := by
  intro s t i h
  suffices frame : (∀ l, LaneWrites i (s.lane l) (t.lane l)) ∧ OutsideKept i s t from frame
  rw [exec_eq_issue] at h
  rcases State.issue_next_cases h with ⟨-, rfl⟩ | ⟨-, -, -, rfl⟩ | ⟨-, -, f, -, rfl⟩ | ⟨-, ran, rfl⟩
  · exact ⟨fun l => by rw [State.setFault_lane]; exact .refl i _,
      by simp [OutsideKept]⟩
  · exact ⟨fun l => .refl i _, (Kept.refl t).outsideKept i⟩
  · exact ⟨fun l => by rw [State.raise_lane]; exact .refl i _, by simp [OutsideKept]⟩
  · have consistent : addressesScratchpad i = true → s.cfgConsistent = true := by
      rcases ran with ⟨-, rfl⟩ | ⟨-, -, -, -, -, consistent⟩
      · intro ha; cases ha
      · exact consistent
    refine ⟨fun l => ?_, OutsideKept.bodyOf (s := { s with done := false }) consistent⟩
    cases l <;> exact LaneWrites.bodyOf i { s with done := false } _

end Sys2Proof.Machine
end

section
/-! PROOF. R177, R211: HASH forgets the past. ABSORB makes HS from the message alone; from equal HS,
EXPLODE makes equal keys, blocks and cells, MIX equal registers and cells, and IMPLODE and FINAL read
nothing else. So two runs on one message agree in all but the bytes of SP from MEM up. -/

namespace Sys2Proof.Machine

/-! ### Memories that agree below a bound -/

/-- The two memories hold the same bytes below `n`. -/
def AgreeBelow (n : Nat) (m m' : Memory) : Prop := ∀ a, a < n → m'.read a = m.read a

theorem AgreeBelow.read128 {n : Nat} {m m' : Memory} (h : AgreeBelow n m m') {a : Nat}
    (ha : a + 16 ≤ n) : m'.read128 a = m.read128 a :=
  Memory.read128_congr fun b _ hb => h b (by omega)

theorem AgreeBelow.read64 {n : Nat} {m m' : Memory} (h : AgreeBelow n m m') {a : Nat}
    (ha : a + 8 ≤ n) : m'.read64 a = m.read64 a :=
  Memory.read64_congr fun b _ hb => h b (by omega)

theorem AgreeBelow.write128 {n : Nat} {m m' : Memory} (h : AgreeBelow n m m') (a : Nat) (v : Block) :
    AgreeBelow n (m.write128 a v) (m'.write128 a v) := fun b hb => by
  rw [Memory.read_write128, Memory.read_write128, h b hb]

theorem AgreeBelow.write64 {n : Nat} {m m' : Memory} (h : AgreeBelow n m m') (a : Nat) (v : Word) :
    AgreeBelow n (m.write64 a v) (m'.write64 a v) := fun b hb => by
  rw [Memory.read_write64, Memory.read_write64, h b hb]

/-! ### Lanes that agree but for what FINAL writes -/

/-- The lanes agree in all but DIG, SEL and DV and the bytes of SP from `n` up. -/
def LanesAgree (n : Nat) (a b : Lane) : Prop :=
  ∃ sp dig dv sel, AgreeBelow n a.sp sp ∧ b = { a with sp := sp, dig := dig, dv := dv, sel := sel }

/-- A loop whose turns keep two lanes agreeing. -/
theorem loopUp_rel {α : Type} {R : α → α → Prop} {n : Nat} {f : Nat → α → α} {a b : α} (h : R a b)
    (hf : ∀ c a b, c < n → R a b → R (f c a) (f c b)) : R (loopUp n f a) (loopUp n f b) := by
  induction n with
  | zero => exact h
  | succ n ih => exact hf n _ _ n.lt_succ_self (ih fun c a b hc => hf c a b (hc.trans n.lt_succ_self))

/-- Steps 1 to 4 read one cell below the bound, and store there. -/
theorem LanesAgree.mixFirstHalf {n : Nat} {a b : Lane} (hw : Bool) {mask : Word}
    (hm : ∀ idx, mixAddress idx mask + 16 ≤ n) (h : LanesAgree n a b) :
    LanesAgree n (mixFirstHalf hw mask a) (mixFirstHalf hw mask b) := by
  obtain ⟨sp, dig, dv, sel, agree, rfl⟩ := h
  obtain ⟨cx, hcx⟩ : ∃ cx, roundHW (a.sp.read128 (mixAddress a.idx mask)) (a.ah ++ a.al) = cx :=
    ⟨_, rfl⟩
  rw [mixFirstHalf_eq hw mask a rfl hcx, mixFirstHalf_eq (cx := cx) hw mask
    { a with sp := sp, dig := dig, dv := dv, sel := sel } rfl
    (by rw [← hcx, ← agree.read128 (hm a.idx)])]
  exact ⟨_, dig, dv, sel, agree.write128 _ _, rfl⟩

/-- So do steps 5 to 10. -/
theorem LanesAgree.mixSecondHalf {n : Nat} {a b : Lane} {mask : Word}
    (hm : ∀ idx, mixAddress idx mask + 16 ≤ n) (h : LanesAgree n a b) :
    LanesAgree n (mixSecondHalf mask a) (mixSecondHalf mask b) := by
  obtain ⟨sp, dig, dv, sel, agree, rfl⟩ := h
  obtain ⟨cell, hcell⟩ : ∃ cell, a.sp.read128 (mixAddress a.idx mask) = cell := ⟨_, rfl⟩
  rw [mixSecondHalf_eq mask a rfl hcell, mixSecondHalf_eq (cell := cell) mask
    { a with sp := sp, dig := dig, dv := dv, sel := sel } rfl
    (by rw [← hcell, ← agree.read128 (hm a.idx)])]
  exact ⟨_, dig, dv, sel, (agree.write64 _ _).write64 _ _, rfl⟩

/-- The iterations of MIX, from equal registers. -/
theorem LanesAgree.mixsteps {n : Nat} {a b : Lane} (hw : Bool) {mask : Word} (iterations : Nat)
    (hm : ∀ idx, mixAddress idx mask + 16 ≤ n) (h : LanesAgree n a b) :
    LanesAgree n (loopUp iterations (fun _ => mixstepLane hw mask) a)
      (loopUp iterations (fun _ => mixstepLane hw mask) b) :=
  loopUp_rel h fun _ _ _ _ h => (h.mixFirstHalf hw hm).mixSecondHalf hm

/-- One chunk of IMPLODE reads its cells below the bound. -/
theorem LanesAgree.implodeChunk {n c : Nat} {a b : Lane} (mode : RoundSeq) (hw : Bool)
    (hc : 128 * (c + 1) ≤ n) (h : LanesAgree n a b) :
    LanesAgree n (implodeChunk mode hw c a) (implodeChunk mode hw c b) := by
  obtain ⟨sp, dig, dv, sel, agree, rfl⟩ := h
  have cells : ∀ i : Fin 8, sp.read128 (cellOffset c i) = a.sp.read128 (cellOffset c i) :=
    fun i => agree.read128 (by rw [cellOffset]; omega)
  refine ⟨sp, dig, dv, sel, agree, ?_⟩
  simp only [Machine.implodeChunk, cells]

theorem LanesAgree.implodeLane {n chunks : Nat} {a b : Lane} (mode : RoundSeq) (hw : Bool)
    (hn : 128 * chunks ≤ n) (h : LanesAgree n a b) :
    LanesAgree n (implodeLane mode hw chunks a) (implodeLane mode hw chunks b) := by
  have start : LanesAgree n (implodeStart hw a) (implodeStart hw b) := by
    obtain ⟨sp, dig, dv, sel, agree, rfl⟩ := h
    exact ⟨sp, dig, dv, sel, agree, rfl⟩
  obtain ⟨sp, dig, dv, sel, agree, e⟩ := loopUp_rel (n := chunks) start fun c a b hc h =>
    h.implodeChunk mode hw (c := c) (by omega)
  rw [Machine.implodeLane, Machine.implodeLane, e]
  exact ⟨sp, dig, dv, sel, agree, rfl⟩

/-! ### EXPLODE and MIXINIT, from equal HS -/

/-- EXPLODE fills the cells below the bound from HS alone (R136). -/
theorem agreeBelow_explodeLane (mode : RoundSeq) (hw : Bool) (chunks : Nat) {a b : Lane}
    (h : b.hs = a.hs) :
    AgreeBelow (128 * chunks) (explodeLane mode hw chunks a).sp
      (explodeLane mode hw chunks b).sp := fun p hp => by
  obtain ⟨c, i, j, hc, hi, hj, rfl⟩ :
      ∃ c i j, c < chunks ∧ i < 8 ∧ j < 16 ∧ p = cellOffset c i + j :=
    ⟨p / 128, p % 128 / 16, p % 16, by omega, by omega, by omega, by rw [cellOffset]; omega⟩
  rw [← byteOf_read128 _ _ _ hj, ← byteOf_read128 _ _ _ hj, read128_explodeLane_sp _ _ _ _ c i hc hi,
    read128_explodeLane_sp _ _ _ _ c i hc hi, h]

/-- EXPLODE writes K, X and SP, and sets KV and XV. -/
theorem exists_explodeLane_eq (mode : RoundSeq) (hw : Bool) (chunks : Nat) (ln : Lane) :
    ∃ x sp, explodeLane mode hw chunks ln = { ln with
      k := keyExpand hw (ln.hs.read128 0) (ln.hs.read128 16), x := x, sp := sp,
      kv := true, xv := true } :=
  ⟨_, _, loopUp_explodeChunk_rest mode hw chunks (explodeStart hw ln)⟩

/-- What EXPLODE and then MIXINIT leave, but for SP: keys, blocks and registers from HS. -/
theorem LanesAgree.explode_mixinit (mode : RoundSeq) (hw : Bool) (chunks : Nat) {a b : Lane}
    (h : b.hs = a.hs) :
    LanesAgree (128 * chunks) (mixinitLane (explodeLane mode hw chunks a))
      (mixinitLane (explodeLane mode hw chunks b)) := by
  have blocks : (explodeLane mode hw chunks b).x = (explodeLane mode hw chunks a).x :=
    Vector.ext fun i hi => by rw [getElem_explodeLane_x, getElem_explodeLane_x, h]
  have agree := agreeBelow_explodeLane mode hw chunks h
  obtain ⟨x, sp, ha⟩ := exists_explodeLane_eq mode hw chunks a
  obtain ⟨x', sp', hb⟩ := exists_explodeLane_eq mode hw chunks b
  rw [ha, hb] at blocks agree ⊢
  obtain rfl : x' = x := blocks
  refine ⟨sp', b.dig, b.dv, b.sel, agree, ?_⟩
  simp only [mixinitLane, hsWord, h]

/-! ### The whole command (R177) -/

/-- FINAL writes DIG, SEL and DV from HS. -/
theorem LanesAgree.finalize {n : Nat} {a b : Lane} (h : LanesAgree n a b) :
    ∃ sp, AgreeBelow n a.finalize.sp sp ∧ b.finalize = { a.finalize with sp := sp } := by
  obtain ⟨sp, dig, dv, sel, agree, rfl⟩ := h
  exact ⟨sp, agree, rfl⟩

/-- HASH of one message leaves the same in a lane whatever that held, but for SP from MEM up. -/
theorem hashLane_forgets {s : State} (consistent : s.cfgConsistent = true) (message : List Byte)
    (a b : Lane) :
    ∃ sp, AgreeBelow s.cfgMem.toNat (hashLane s message a).sp sp
      ∧ hashLane s message b = { hashLane s message a with sp := sp } := by
  have filled : 128 * s.chunks = s.cfgMem.toNat := (State.chunks_of_cfgConsistent consistent).1
  have inside : ∀ idx, mixAddress idx s.cfgMask + 16 ≤ 128 * s.chunks := fun idx => by
    obtain ⟨-, -, -, -, fits, -⟩ := mixAddressesAreAlignedAndInRange s idx consistent
    exact fits.trans filled.ge
  have start := LanesAgree.explode_mixinit s.build.roundSeq s.hwPath s.chunks
    (a := Lane.absorb message { a with dv := false }) (b := Lane.absorb message { b with dv := false })
    rfl
  rw [← filled, hashLane, hashLane]
  exact ((start.mixsteps s.hwPath s.iterations inside).implodeLane s.build.roundSeq s.hwPath
    (Nat.le_refl _)).finalize

/-- Settles O50: both runs do `hashLane` with one configuration and one message. -/
theorem hashForgetsThePast : Obligations.HashForgetsThePast := by
  intro s s' l ready ready' returns returns' build iter mem mask ctl len same
  have ⟨_, _, _, _, _, consistent⟩ := ready
  have message : s'.message (.one l) l = s.message (.one l) l := by
    rw [State.message, State.message, len]
    exact Memory.readBytes_congr fun j _ hj => same j (by simpa [messageBase, selDual] using hj)
  have config : hashLane s' = hashLane s := by
    funext message ln
    simp only [hashLane, State.hwPath, State.chunks, State.iterations, build, iter, mem, mask, ctl]
  obtain ⟨sp, agree, e⟩ := hashLane_forgets (consistent rfl) (s.message (.one l) l) (s.lane l)
    (s'.lane l)
  have has : selHas (.one l) l = true := by simp [selHas]
  obtain ⟨t, ht, -, -, lanes⟩ := exists_exec_of_ready_afterPart ready
    (hashBody_of_returns (.one l) returns)
  obtain ⟨t', ht', -, -, lanes'⟩ := exists_exec_of_ready_afterPart ready'
    (hashBody_of_returns (.one l) returns')
  have lane : t.lane l = hashLane s (s.message (.one l) l) (s.lane l) := lanes l has
  have lane' : t'.lane l = hashLane s (s.message (.one l) l) (s'.lane l) := by
    rw [← config, ← message]
    exact lanes' l has
  refine ⟨t, t', ht, ht', ?_⟩
  rw [lane, lane', e]
  exact ⟨rfl, agree⟩

end Sys2Proof.Machine
end

section
/-! PROOF. R9, R20 to R41, R192, R193: the invariant. It is a part that says nothing of the sequencer,
`Sound`, and one that says what a running command finds, `Runs`. Every part of a command keeps the
first, whatever way it ends; a unit that does not end the command re-establishes the second. -/

namespace Sys2Proof.Machine

/-! ### The two parts of the invariant -/

/-- The invariant but for what it says of a running command. -/
structure Sound (s : State) : Prop where
  build : s.build.wf = true
  memories : s.memoriesWf = true
  config : s.cfgok = true → s.cfgConsistent = true
  absent : s.build.nlanes = .single → s.lane1.validBits = 0#4
  faults : s.commandFaults ≤ 1

/-- What the invariant says of a running command. -/
structure Runs (s : State) (q : Sequencer) : Prop where
  done : s.done = false
  faults : s.commandFaults = 0 ∨ q.instr = .reset
  legal : s.legal q.instr = true
  cfgok : (needs q.instr).cfgok = true → s.cfgok = true
  commits : s.commitFails q.instr = false
  phase : q.phase ∈ phasesOf q.instr
  counters : s.countersInRange q = true

theorem eq_false_or_eq_true_iff {a b : Bool} :
    (a = false ∨ b = true) ↔ (a = true → b = true) := by
  cases a <;> simp

theorem State.sequencerSound_iff {s : State} :
    s.sequencerSound = true ↔ ∀ q, s.seq = some q → Runs s q := by
  cases h : s.seq with
  | none => simp [State.sequencerSound, h]
  | some q =>
    have runs : Runs s q ↔ s.sequencerSound = true := by
      simp only [State.sequencerSound, h, Bool.and_eq_true, Bool.or_eq_true, Bool.not_eq_true',
        eq_false_or_eq_true_iff, beq_iff_eq, decide_eq_true_eq, List.contains_iff_mem]
      exact ⟨fun ⟨a, b, c, d, e, f, g⟩ => ⟨⟨⟨⟨⟨⟨a, b⟩, c⟩, d⟩, e⟩, f⟩, g⟩,
        fun ⟨⟨⟨⟨⟨⟨a, b⟩, c⟩, d⟩, e⟩, f⟩, g⟩ => ⟨a, b, c, d, e, f, g⟩⟩
    rw [← runs]
    exact ⟨fun hr _ hq => (Option.some.inj hq) ▸ hr, fun hr => hr q rfl⟩

theorem inv_iff {s : State} : Inv s ↔ Sound s ∧ ∀ q, s.seq = some q → Runs s q := by
  have absent : s.absentLaneClear = true ↔ (s.build.nlanes = .single → s.lane1.validBits = 0#4) := by
    cases h : s.build.nlanes <;> simp [State.absentLaneClear, h]
  have config : s.configSound = true ↔ (s.cfgok = true → s.cfgConsistent = true) := by
    rw [State.configSound, Bool.or_eq_true, Bool.not_eq_true', eq_false_or_eq_true_iff]
  have sound : Sound s ↔ ((((s.build.wf = true ∧ s.memoriesWf = true) ∧ s.configSound = true)
      ∧ s.absentLaneClear = true) ∧ s.commandFaults ≤ 1) := by
    rw [config, absent]
    exact ⟨fun ⟨a, b, c, d, e⟩ => ⟨⟨⟨⟨a, b⟩, c⟩, d⟩, e⟩, fun ⟨⟨⟨⟨a, b⟩, c⟩, d⟩, e⟩ => ⟨a, b, c, d, e⟩⟩
  rw [Inv, State.inv, sound, ← State.sequencerSound_iff]
  simp only [Bool.and_eq_true, decide_eq_true_eq]

/-- An idle block meets the invariant when the part beside the sequencer holds. -/
theorem inv_of_idle {s : State} (h : Sound s) (idle : s.seq = none) : Inv s :=
  inv_iff.mpr ⟨h, fun q hq => by rw [idle] at hq; cases hq⟩

/-- Settles O55: after reset nothing is listed, set or running. -/
theorem resetMeetsTheInvariant : Obligations.ResetMeetsTheInvariant :=
  inv_of_idle ⟨by decide, State.memoriesWf_reset, nofun, nofun, by decide⟩ rfl

/-! ### Host accesses -/

/-- What a host access changes but for its own writes is not in the invariant. -/
theorem AnswersOnly.inv {s t : State} (h : AnswersOnly s t) (hs : Inv s) : Inv t := by
  obtain ⟨e, -⟩ := h
  rw [e]
  exact hs

/-- Replacing a lane by one that has its valid bits and whose memories are canonical and in their
spaces. -/
theorem Sound.setLane {s : State} (h : Sound s) {l : LaneId} {ln : Lane}
    (valid : ln.validBits = (s.lane l).validBits) (memories : ln.memoriesWf s.build = true) :
    Sound (s.setLane l ln) where
  build := by rw [State.setLane_build]; exact h.build
  memories := (PartRuns.setLane (sel := .both) rfl fun _ => memories).memories h.memories
  config := by
    have part := PartRuns.setLane (s := s) (sel := .both) (l := l) (ln := ln) rfl fun _ => memories
    rw [part.cfgok, part.kept.cfgConsistent]
    exact h.config
  absent := by
    rw [State.setLane_build]
    cases l with
    | l0 => exact h.absent
    | l1 => exact fun single => valid.trans (h.absent single)
  faults := by cases l <;> exact h.faults

theorem State.lane_memoriesWf {s : State} (h : s.memoriesWf = true) (l : LaneId) :
    (s.lane l).memoriesWf s.build = true :=
  ((State.memoriesWf_iff s).mp h).1 l

/-- A write that an idle block takes: a write of the configuration clears CFGOK, one to a window
stays inside it. -/
theorem HostWrites.sound {s t : State} (h : HostWrites s t) (hs : Sound s) : Sound t := by
  cases h
  case cfgIter | cfgMem | cfgMask | cfgCtl =>
    exact ⟨hs.build, hs.memories, nofun, hs.absent, hs.faults⟩
  case msgLen => exact ⟨hs.build, hs.memories, hs.config, hs.absent, hs.faults⟩
  case msg offset data inside =>
    refine ⟨hs.build, ?_, hs.config, hs.absent, hs.faults⟩
    have ⟨lanes, wf, within⟩ := (State.memoriesWf_iff s).mp hs.memories
    exact (State.memoriesWf_iff _).mpr
      ⟨fun l => by cases l; exacts [lanes .l0, lanes .l1], Memory.wf_writeBytes _ _ wf,
        Memory.within_writeBytes _ inside within⟩
  case hs l offset data inside =>
    refine hs.setLane rfl ?_
    have memories := State.lane_memoriesWf hs.memories l
    rw [Lane.memoriesWf_iff] at memories ⊢
    obtain ⟨⟨wf, within⟩, others⟩ := memories
    exact ⟨⟨Memory.wf_writeBytes _ _ wf, Memory.within_writeBytes _ inside within⟩, others⟩
  case sp l offset data inside =>
    refine hs.setLane rfl ?_
    have memories := State.lane_memoriesWf hs.memories l
    rw [Lane.memoriesWf_iff] at memories ⊢
    obtain ⟨hashState, ⟨wf, within⟩, digest⟩ := memories
    exact ⟨hashState, ⟨Memory.wf_writeBytes _ _ wf, Memory.within_writeBytes _ inside within⟩,
      digest⟩

/-! ### RESET and the reset input -/

/-- RESET clears the valid bits of every lane (R40). -/
theorem Lane.validBits_afterReset (ln : Lane) (l : LaneId) (draw : Nat) :
    (ln.afterReset l draw).validBits = 0#4 := by
  simp only [Lane.validBits, Lane.afterReset]
  rfl

theorem Sound.resetRegisters {s : State} (h : Sound s) : Sound s.resetRegisters where
  build := by rw [State.resetRegisters_build]; exact h.build
  memories := by
    have ⟨lanes, msg⟩ := (State.memoriesWf_iff s).mp h.memories
    rw [State.memoriesWf_iff, State.resetRegisters_build, State.resetRegisters_msg]
    refine ⟨fun l => ?_, msg⟩
    rw [State.resetRegisters_lane]
    exact Lane.memoriesWf_afterReset l _ (lanes l)
  config := nofun
  absent := fun _ => Lane.validBits_afterReset _ _ _
  faults := Nat.zero_le 1

/-- A lane with the contents that the reset input carries (R210). -/
theorem Lane.memoriesWf_ofCells {b : Build} {ln : Lane} (h : ln.memoriesWf b = true)
    (hs sp : List Host.Cell) :
    Lane.memoriesWf b
      { ln with hs := Memory.ofCells 200 hs, sp := Memory.ofCells b.spmax sp } = true := by
  rw [Lane.memoriesWf_iff] at h ⊢
  obtain ⟨-, -, digest⟩ := h
  exact ⟨⟨Memory.wf_ofCells _ _, Memory.within_ofCells _ _⟩,
    ⟨Memory.wf_ofCells _ _, Memory.within_ofCells _ _⟩, digest⟩

theorem State.resetInput_lane (s : State) (image : MemoryImage) (l : LaneId) :
    ∃ hs sp, (s.resetInput image).lane l = { (s.lane l).afterReset l s.freeCount with
      hs := Memory.ofCells 200 hs, sp := Memory.ofCells s.build.spmax sp } := by
  cases l
  · exact ⟨image.hs0, image.sp0, by simp only [State.resetInput, State.resetRegisters, State.lane]⟩
  · exact ⟨image.hs1, image.sp1, by simp only [State.resetInput, State.resetRegisters, State.lane]⟩

theorem State.resetInput_msg (s : State) (image : MemoryImage) :
    (s.resetInput image).msg = Memory.ofCells (2 * s.build.msgmax) image.msg := by
  simp only [State.resetInput]

theorem Sound.resetInput {s : State} (h : Sound s) (image : MemoryImage) :
    Sound (s.resetInput image) where
  build := by rw [State.resetInput_build]; exact h.build
  memories := by
    rw [State.memoriesWf_iff, State.resetInput_build, State.resetInput_msg]
    refine ⟨fun l => ?_, Memory.wf_ofCells _ _, Memory.within_ofCells _ _⟩
    obtain ⟨hs, sp, lane⟩ := s.resetInput_lane image l
    rw [lane]
    exact Lane.memoriesWf_ofCells
      (Lane.memoriesWf_afterReset l _ (State.lane_memoriesWf h.memories l)) hs sp
  config := nofun
  absent := fun _ => by
    obtain ⟨hs, sp, lane⟩ := s.resetInput_lane image .l1
    rw [State.lane] at lane
    rw [lane]
    exact Lane.validBits_afterReset s.lane1 .l1 s.freeCount
  faults := Nat.zero_le 1

/-! ### Parts of commands -/

/-- Neither BUSY nor DONE is in this part of the invariant. -/
theorem Sound.withSeq {s : State} (h : Sound s) (q : Option Sequencer) (done : Bool) :
    Sound { s with seq := q, done := done } :=
  ⟨h.build, h.memories, h.config, h.absent, h.faults⟩

/-- A one-lane block has no command on lane 1 (R71, R74). -/
theorem selHas_l1_of_single {s : State} {sel : LaneSel} (hp : selPresent sel s.build.nlanes = true)
    (single : s.build.nlanes = .single) : selHas sel .l1 = false := by
  rw [(selPresent_iff sel _).mp hp single]
  rfl

theorem PartRuns.sound {sel : LaneSel} {s t : State} (h : PartRuns sel s t)
    (hp : selPresent sel s.build.nlanes = true) (hs : Sound s) : Sound t where
  build := by rw [h.kept.build]; exact hs.build
  memories := h.memories hs.memories
  config := by rw [h.cfgok, h.kept.cfgConsistent]; exact hs.config
  absent := by
    rw [h.kept.build]
    intro single
    rw [show t.lane1 = s.lane1 from h.lanes .l1 (selHas_l1_of_single hp single)]
    exact hs.absent single
  faults := by
    rw [State.commandFaults, h.cfgerr, h.kept.cmderr, h.kept.seqerr, h.exterr]
    exact hs.faults

/-- A failed call sets EXTERR beside no other of the fault bits 3 to 6. -/
theorem PartFails.sound {sel : LaneSel} {s t : State} (h : PartFails sel s t)
    (hp : selPresent sel s.build.nlanes = true) (hs : Sound s) (clear : s.commandFaults = 0) :
    Sound t where
  build := by rw [h.kept.build]; exact hs.build
  memories := h.memories hs.memories
  config := by rw [h.cfgok, h.kept.cfgConsistent]; exact hs.config
  absent := by
    rw [h.kept.build]
    intro single
    rw [show t.lane1 = s.lane1 from h.lanes .l1 (selHas_l1_of_single hp single)]
    exact hs.absent single
  faults := by
    rw [State.commandFaults] at clear ⊢
    rw [h.cfgerr, h.kept.cmderr, h.kept.seqerr, h.exterr, Bool.toNat_true]
    omega

theorem PartEnds.sound_close {sel : LaneSel} {s : State} {e : Ending} (h : PartEnds sel s e)
    (hp : selPresent sel s.build.nlanes = true) (hs : Sound s) (clear : s.commandFaults = 0) :
    Sound e.close := by
  cases e with
  | completed t => exact (PartRuns.sound h hp hs).withSeq none true
  | stopped t => exact (PartFails.sound h hp hs clear).withSeq none t.done

/-! ### Commands -/

theorem Ending.close_seq (e : Ending) : e.close.seq = none := by
  cases e <;> rfl

/-- A legal command with lanes has them on the block (R74). -/
theorem State.selPresent_of_legal {s : State} {i : Instr} {sel : LaneSel}
    (hi : i.lanes = some sel) (legal : s.legal i = true) : selPresent sel s.build.nlanes = true := by
  rw [State.legal_of_lanes_some hi, Bool.and_eq_true] at legal
  exact legal.2

/-- One more of the fault bits 3 to 6, where none was set. -/
theorem Sound.raise {s : State} (h : Sound s) (clear : s.commandFaults = 0) (f : FaultBit)
    (done : Bool) : Sound { s.setFault f with done := done } where
  build := by simpa using h.build
  memories := by cases f <;> exact h.memories
  config := by cases f <;> exact h.config
  absent := by cases f <;> exact h.absent
  faults := by
    rw [State.commandFaults] at clear
    cases f <;> simp only [State.commandFaults, State.setFault, Bool.toNat_true] <;> omega

/-- The body of CFGCOMMIT sets CFGOK only where the check passes (R173). -/
theorem Sound.cfgcommitBody_close {s : State} (h : Sound s) (clear : s.commandFaults = 0) :
    Sound (cfgcommitBody s).close := by
  rw [cfgcommitBody]
  split
  · next consistent => exact ⟨h.build, h.memories, fun _ => consistent, h.absent, h.faults⟩
  · exact (h.raise clear .cfgerr false).withSeq none false

/-- The whole body of a command. -/
theorem Sound.bodyOf_close {s : State} {i : Instr} (h : Sound s) (legal : s.legal i = true)
    (clear : s.commandFaults = 0 ∨ i = .reset)
    (consistent : addressesScratchpad i = true → s.cfgConsistent = true) :
    Sound (bodyOf i s).close := by
  rcases clear with clear | rfl
  · cases hi : i.lanes with
    | some sel =>
      exact (PartEnds.bodyOf hi consistent).sound_close (State.selPresent_of_legal hi legal) h clear
    | none =>
      cases i
      case nop => exact h.withSeq none true
      case cfgcommit => exact h.cfgcommitBody_close clear
      case reset => exact h.resetRegisters.withSeq none false
      all_goals cases hi
  · exact h.resetRegisters.withSeq none false

theorem State.commandFaults_of_not_faulted {s : State} (clear : s.faulted = false) :
    s.commandFaults = 0 := by
  simp only [State.faulted, Bool.or_eq_false_iff] at clear
  obtain ⟨⟨⟨⟨cfg, cmd⟩, seq⟩, ext⟩, -⟩ := clear
  rw [State.commandFaults, cfg, cmd, seq, ext]
  rfl

/-- What a command finds when it is accepted (R75, R194). -/
structure Accepts (s : State) (i : Instr) : Prop where
  idle : s.seq = none
  faults : s.commandFaults = 0 ∨ i = .reset
  legal : s.legal i = true
  cfgok : (needs i).cfgok = true → s.cfgok = true
  consistent : addressesScratchpad i = true → s.cfgConsistent = true

theorem accepts_of_accepted {s : State} {i : Instr} (idle : s.seq = none)
    (h : (s.faulted = true ∧ i = .reset) ∨ Ready s i) : Accepts s i := by
  rcases h with ⟨-, rfl⟩ | ⟨-, clear, legal, needed, -, consistent⟩
  · exact ⟨idle, .inr rfl, rfl, nofun, nofun⟩
  · refine ⟨idle, .inl (State.commandFaults_of_not_faulted clear), legal, fun hn => ?_, consistent⟩
    rw [State.needsMet, hn] at needed
    simp only [Bool.not_true, Bool.false_or, Bool.and_eq_true] at needed
    exact needed.1

/-- Issuing a command keeps the invariant where running it, once accepted, leaves one that meets
it. -/
theorem inv_issue {s t : State} {i : Instr} {run : State → State} (hs : Inv s)
    (h : s.issue i run = .next t)
    (hrun : Accepts s i → Inv (run { s with done := false })) : Inv t := by
  have ⟨sound, _⟩ := inv_iff.mp hs
  rcases State.issue_next_cases h with ⟨-, rfl⟩ | ⟨-, -, -, rfl⟩ | ⟨idle, clear, f, -, rfl⟩ |
    ⟨idle, accepted, rfl⟩
  · exact (AnswersOnly.refuseWrite s).inv hs
  · exact hs
  · exact inv_of_idle (sound.raise (State.commandFaults_of_not_faulted clear) f false)
      (by rw [State.raise_seq, idle])
  · exact hrun (accepts_of_accepted idle accepted)

theorem inv_exec {s t : State} {i : Instr} (hs : Inv s) (h : exec i s = .next t) : Inv t := by
  have ⟨sound, _⟩ := inv_iff.mp hs
  rw [exec_eq_issue] at h
  exact inv_issue hs h fun ⟨_, faults, legal, _, consistent⟩ => inv_of_idle
    ((sound.withSeq s.seq false).bodyOf_close legal faults consistent) (Ending.close_seq _)

/-! ### The start of a part -/

/-- Only commands that address the scratchpad have a part that counts chunks (R30, R52). -/
theorem addressesScratchpad_of_phase {i : Instr} {p : Phase} (hp : p ∈ phasesOf i)
    (h : p = .explode ∨ p = .implode) : addressesScratchpad i = true := by
  cases i
  case explode | implode | hash => rfl
  all_goals simp [phasesOf] at hp; simp [hp] at h

/-- At the start of a part the counters are in range: MEM holds a chunk. -/
theorem countersInRange_start {s : State} {i : Instr} {p : Phase} (hp : p ∈ phasesOf i)
    (consistent : addressesScratchpad i = true → s.cfgConsistent = true) :
    s.countersInRange ⟨i, p, 0#64, 0#64⟩ = true := by
  have chunk : p = .explode ∨ p = .implode → 0 < s.chunks := fun h =>
    (State.chunks_of_cfgConsistent (consistent (addressesScratchpad_of_phase hp h))).2
  cases p
  case explode => exact decide_eq_true (chunk (.inl rfl))
  case implode => exact decide_eq_true (chunk (.inr rfl))
  case mix => simp [State.countersInRange]
  all_goals rfl

theorem headD_mem_phasesOf (i : Instr) : (phasesOf i).headD .single ∈ phasesOf i := by
  cases i <;> simp [phasesOf]

theorem inv_beginCommand {s t : State} {i : Instr} (hs : Inv s) (h : s.beginCommand i = .next t) :
    Inv t := by
  have ⟨sound, _⟩ := inv_iff.mp hs
  refine inv_issue hs h fun ⟨idle, faults, legal, cfgok, consistent⟩ => ?_
  split
  · next fails =>
    have clear : s.commandFaults = 0 := by
      rcases faults with clear | rfl
      · exact clear
      · cases fails
    exact inv_of_idle (sound.raise clear .cfgerr false) ((State.raise_seq _ _).trans idle)
  · next passes =>
    refine inv_iff.mpr ⟨sound.withSeq _ false, fun q hq => ?_⟩
    cases hq
    exact ⟨rfl, faults, legal, cfgok, (Bool.not_eq_true _).mp passes, headD_mem_phasesOf i,
      countersInRange_start (s := s) (headD_mem_phasesOf i) consistent⟩

end Sys2Proof.Machine
end

section
/-! PROOF. R30, R177, R192: a unit of a running command, said once. It runs a command that has one
part; or it runs a part that calls collaborators; or it takes one more turn of a loop, which ends the
part or leaves its counter in range. -/

namespace Sys2Proof.Machine

/-! ### The parts of a command -/

/-- A command with one part for the whole of it does its body in it. -/
theorem singleBody_eq_bodyOf {i : Instr} (h : .single ∈ phasesOf i) (s : State) :
    singleBody i s = bodyOf i s := by
  cases i
  case absorb | explode | implode | mix | final | hash => simp [phasesOf] at h
  all_goals rfl

theorem phasesOf_of_single {i : Instr} (h : .single ∈ phasesOf i) : phasesOf i = [.single] := by
  cases i
  case absorb | explode | implode | mix | final | hash => simp [phasesOf] at h
  all_goals rfl

/-- Every other part works on the lanes the command names. -/
theorem lanes_of_part {i : Instr} {p : Phase} (hp : p ∈ phasesOf i) (h : p ≠ .single) :
    i.lanes = some (sequencerLanes i) := by
  cases i
  case nop | cfgcommit | reset => exact absurd (by simpa [phasesOf] using hp) h
  all_goals rfl

/-- The parts that make collaborator calls (R174, R175). -/
theorem callsCollaborator_of_part {i : Instr} {p : Phase} (hp : p ∈ phasesOf i)
    (h : p = .absorb ∨ p = .final) : callsCollaborator i = true := by
  cases i
  case absorb | final | hash => rfl
  all_goals simp [phasesOf] at hp; simp [hp] at h

/-- MIX and the parts that count chunks need a committed tuple (R54, R56). -/
theorem addressesScratchpad_of_loop {i : Instr} {p : Phase} (hp : p ∈ phasesOf i)
    (h : p = .explode ∨ p = .mix ∨ p = .implode) : addressesScratchpad i = true := by
  cases i
  case explode | implode | mix | hash => rfl
  all_goals simp [phasesOf] at hp; simp [hp] at h

theorem phaseAfter_mem {p p' : Phase} {ps : List Phase} (h : phaseAfter p ps = some p') :
    p' ∈ ps := by
  induction ps with
  | nil => cases h
  | cons r rs ih =>
    rw [phaseAfter] at h
    split at h
    · exact List.mem_cons_of_mem _ (List.mem_of_mem_head? h)
    · exact List.mem_cons_of_mem _ (ih h)

/-! ### What a unit does -/

/-- Everything one unit of a running command can do. -/
inductive UnitDoes (s : State) (q : Sequencer) : State → Prop
  | whole (h : q.phase = .single) : UnitDoes s q (bodyOf q.instr s).close
  | absorbs (h : q.phase = .absorb) :
    UnitDoes s q (endPart q (absorbPart q.instr (sequencerLanes q.instr) s))
  | finishes (h : q.phase = .final) :
    UnitDoes s q (endPart q (finalBody (sequencerLanes q.instr) s))
  | ends {t : State} (h : q.phase = .explode ∨ q.phase = .mix ∨ q.phase = .implode)
    (runs : PartRuns (sequencerLanes q.instr) s t) : UnitDoes s q (endPart q (.completed t))
  | turns {t : State} {q' : Sequencer} (runs : PartRuns (sequencerLanes q.instr) s t)
    (h : q.phase = .explode ∨ q.phase = .mix ∨ q.phase = .implode)
    (same : q'.instr = q.instr ∧ q'.phase = q.phase) (range : s.countersInRange q' = true) :
    UnitDoes s q { t with seq := some q' }

/-- One chunk of EXPLODE, the start before chunk 0 with it, stays inside the scratchpad. -/
theorem PartRuns.explodeStep {s : State} {sel : LaneSel} {q : Sequencer}
    (consistent : s.cfgConsistent = true) (range : q.chunk.toNat < s.chunks) :
    PartRuns sel s (s.onLanes sel fun ln =>
      explodeChunk s.build.roundSeq s.hwPath q.chunk.toNat
        (if q.chunk = 0#64 then explodeStart s.hwPath ln else ln)) := by
  have inside : 128 * (q.chunk.toNat + 1) ≤ s.build.spmax := by
    have := State.chunks_of_cfgConsistent consistent
    have := (State.mem_of_cfgConsistent consistent).2
    omega
  refine PartRuns.onLanes s sel _ fun ln hw => Lane.memoriesWf_explodeChunk _ _ inside ?_
  split
  · exact Lane.memoriesWf_ldxLane (Lane.memoriesWf_keygenLane _ _ hw)
  · exact hw

/-- One chunk of IMPLODE, the start before chunk 0 with it. -/
theorem PartRuns.implodeStep (s : State) (sel : LaneSel) (q : Sequencer) :
    PartRuns sel s (s.onLanes sel fun ln =>
      implodeChunk s.build.roundSeq s.hwPath q.chunk.toNat
        (if q.chunk = 0#64 then implodeStart s.hwPath ln else ln)) := by
  refine PartRuns.onLanes s sel _ fun ln hw => Lane.memoriesWf_implodeChunk _ _ _ ?_
  split
  · exact Lane.memoriesWf_ldxLane (Lane.memoriesWf_keygenLane _ _ hw)
  · exact hw

/-- The count of chunks fits a word, so that the next chunk's number does not wrap. -/
theorem State.toNat_nextChunk {s : State} {c : Word} (h : c.toNat + 1 < s.chunks) :
    (c + 1#64).toNat = c.toNat + 1 := by
  have : s.chunks ≤ s.cfgMem.toNat := Nat.div_le_self _ _
  have := s.cfgMem.isLt
  bv_omega

theorem State.toNat_nextIter {s : State} {n : Word} (h : n.toNat + 1 < s.iterations) :
    (n + 1#64).toNat = n.toNat + 1 := by
  have : s.iterations < 2 ^ 64 := s.cfgIter.isLt
  bv_omega

theorem explodeUnit_does {s : State} {q : Sequencer} (hp : q.phase = .explode)
    (consistent : s.cfgConsistent = true) (range : q.chunk.toNat < s.chunks) :
    UnitDoes s q (explodeUnit q (sequencerLanes q.instr) s) := by
  have runs := PartRuns.explodeStep (sel := sequencerLanes q.instr) consistent range
  rw [explodeUnit]
  split
  · next more =>
    refine .turns runs (.inl hp) ⟨rfl, rfl⟩ ?_
    simp only [State.countersInRange, hp, State.toNat_nextChunk more]
    exact decide_eq_true more
  · exact .ends (.inl hp) runs

theorem implodeUnit_does {s : State} {q : Sequencer} (hp : q.phase = .implode) :
    UnitDoes s q (implodeUnit q (sequencerLanes q.instr) s) := by
  have runs := PartRuns.implodeStep s (sequencerLanes q.instr) q
  rw [implodeUnit]
  split
  · next more =>
    refine .turns runs (.inr (.inr hp)) ⟨rfl, rfl⟩ ?_
    simp only [State.countersInRange, hp, State.toNat_nextChunk more]
    exact decide_eq_true more
  · exact .ends (.inr (.inr hp))
      (runs.trans (PartRuns.onLanes _ _ _ fun _ hw => Lane.memoriesWf_stxLane hw))

theorem mixUnit_does {s : State} {q : Sequencer} (hp : q.phase = .mix)
    (consistent : s.cfgConsistent = true) :
    UnitDoes s q (mixUnit q (sequencerLanes q.instr) s) := by
  have start : PartRuns (sequencerLanes q.instr) s
      (if q.iter = 0#64 then s.onLanes (sequencerLanes q.instr) mixinitLane else s) := by
    split
    · exact PartRuns.onLanes s _ _ fun _ hw => Lane.memoriesWf_mixinitLane hw
    · exact PartRuns.refl _ s
  rw [mixUnit]
  dsimp only
  generalize (if q.iter = 0#64 then s.onLanes (sequencerLanes q.instr) mixinitLane else s) = t
    at start ⊢
  have runs := start.trans (PartRuns.onLanes t (sequencerLanes q.instr)
    (mixstepLane s.hwPath s.cfgMask) fun _ hw => Lane.memoriesWf_mixstepLane _
      (fun idx => by
        rw [start.kept.build]
        exact State.mixAddress_of_cfgConsistent consistent idx) hw)
  split
  · split
    · next more =>
      refine .turns runs (.inr (.inl hp)) ⟨rfl, rfl⟩ ?_
      simp only [State.countersInRange, hp, State.toNat_nextIter more]
      exact Bool.or_eq_true_iff.mpr (.inl (decide_eq_true more))
    · exact .ends (.inr (.inl hp)) runs
  · exact .ends (.inr (.inl hp)) start

/-- A command that runs finds the tuple it addresses the scratchpad by consistent. -/
theorem Runs.consistent {s : State} {q : Sequencer} (h : Runs s q) (hs : Sound s)
    (ha : addressesScratchpad q.instr = true) : s.cfgConsistent = true := by
  refine hs.config (h.cfgok ?_)
  cases hi : q.instr <;> rw [hi] at ha
  case explode | implode | mix | mixstep | hash => rfl
  all_goals cases ha

/-- A unit of a running command does one of these. -/
theorem runUnit_does {s : State} {q : Sequencer} (h : Runs s q) (hs : Sound s) :
    UnitDoes s q (runUnit q s) := by
  have consistent : (q.phase = .explode ∨ q.phase = .mix ∨ q.phase = .implode) →
      s.cfgConsistent = true := fun loop =>
    h.consistent hs (addressesScratchpad_of_loop h.phase loop)
  have range := h.counters
  rw [runUnit]
  split
  case h_1 hp =>
    have single := hp ▸ h.phase
    have last : endPart q (bodyOf q.instr s) = (bodyOf q.instr s).close := by
      cases bodyOf q.instr s with
      | completed t => rw [endPart_completed, phasesOf_of_single single, hp]; rfl
      | stopped t => rfl
    rw [singleBody_eq_bodyOf single, last]
    exact .whole hp
  case h_2 hp => exact .absorbs hp
  case h_3 hp =>
    rw [State.countersInRange, hp] at range
    exact explodeUnit_does hp (consistent (.inl hp)) (of_decide_eq_true range)
  case h_4 hp => exact mixUnit_does hp (consistent (.inr (.inl hp)))
  case h_5 hp => exact implodeUnit_does hp
  case h_6 hp => exact .finishes hp

/-! ### A unit keeps the invariant -/

/-- The end of a part re-establishes the invariant: the next part begins with its counters at 0. -/
theorem inv_endPart {s : State} {q : Sequencer} {e : Ending} (hs : Sound s) (h : Runs s q)
    (hp : q.phase ≠ .single) (he : PartEnds (sequencerLanes q.instr) s e) :
    Inv (endPart q e) := by
  have lanes := lanes_of_part h.phase hp
  have present := State.selPresent_of_legal lanes h.legal
  have clear : s.commandFaults = 0 := by
    rcases h.faults with clear | reset
    · exact clear
    · rw [reset] at lanes; cases lanes
  cases e with
  | stopped t => exact inv_of_idle ((PartFails.sound he present hs clear).withSeq none t.done) rfl
  | completed t =>
    have runs : PartRuns (sequencerLanes q.instr) s t := he
    have sound := runs.sound present hs
    rw [endPart_completed]
    split
    · next p after =>
      refine inv_iff.mpr ⟨sound.withSeq _ t.done, fun q' hq => ?_⟩
      obtain rfl : (⟨q.instr, p, 0#64, 0#64⟩ : Sequencer) = q' := Option.some.inj hq
      have faults : t.commandFaults = s.commandFaults := by
        simp only [State.commandFaults, runs.cfgerr, runs.kept.cmderr, runs.kept.seqerr,
          runs.exterr]
      have starts : t.countersInRange ⟨q.instr, p, 0#64, 0#64⟩ = true :=
        countersInRange_start (phaseAfter_mem after) fun ha =>
          runs.kept.cfgConsistent.trans (h.consistent hs ha)
      exact ⟨runs.done.trans h.done, .inl (faults.trans clear),
        (runs.kept.legal _).trans h.legal, fun hn => runs.cfgok.trans (h.cfgok hn),
        (runs.kept.commitFails _).trans h.commits, phaseAfter_mem after, starts⟩
    · exact inv_of_idle (sound.withSeq none true) rfl

/-- So does one more turn of a loop. -/
theorem inv_turn {s t : State} {q q' : Sequencer} (hs : Sound s) (h : Runs s q)
    (hp : q.phase ≠ .single) (runs : PartRuns (sequencerLanes q.instr) s t)
    (same : q'.instr = q.instr ∧ q'.phase = q.phase) (range : s.countersInRange q' = true) :
    Inv { t with seq := some q' } := by
  obtain ⟨instr, phase⟩ := same
  have present := State.selPresent_of_legal (lanes_of_part h.phase hp) h.legal
  refine inv_iff.mpr ⟨(runs.sound present hs).withSeq _ t.done, fun r hr => ?_⟩
  obtain rfl : q' = r := Option.some.inj hr
  have faults : t.commandFaults = s.commandFaults := by
    simp only [State.commandFaults, runs.cfgerr, runs.kept.cmderr, runs.kept.seqerr, runs.exterr]
  have counters : t.countersInRange q' = true := by
    rw [← range]
    simp only [State.countersInRange, runs.kept.chunks, runs.kept.iterations]
  refine ⟨runs.done.trans h.done, ?_, ?_, ?_, ?_, ?_, counters⟩ <;> rw [instr]
  · exact h.faults.imp_left faults.trans
  · exact (runs.kept.legal _).trans h.legal
  · exact fun hn => runs.cfgok.trans (h.cfgok hn)
  · exact (runs.kept.commitFails _).trans h.commits
  · exact phase ▸ h.phase

theorem UnitDoes.inv {s t : State} {q : Sequencer} (does : UnitDoes s q t) (hs : Sound s)
    (h : Runs s q) : Inv t := by
  cases does with
  | whole =>
    exact inv_of_idle (hs.bodyOf_close h.legal h.faults (h.consistent hs)) (Ending.close_seq _)
  | absorbs hp => exact inv_endPart hs h (by simp [hp]) (PartEnds.absorbPart _ _ s)
  | finishes hp => exact inv_endPart hs h (by simp [hp]) (PartEnds.finalBody _ s)
  | ends hp runs => exact inv_endPart hs h (by rcases hp with hp | hp | hp <;> simp [hp]) runs
  | turns runs hp same range =>
    exact inv_turn hs h (by rcases hp with hp | hp | hp <;> simp [hp]) runs same range

/-- A unit of a running command, under the invariant. -/
theorem Inv.unit {s : State} {q : Sequencer} (hs : Inv s) (hq : s.seq = some q) :
    s.unit = .next (runUnit q s) ∧ UnitDoes s q (runUnit q s) := by
  have ⟨sound, running⟩ := inv_iff.mp hs
  have runs := running q hq
  exact ⟨State.unit_of_seq hq (runs.consistent sound), runUnit_does runs sound⟩

/-- What the host has queued is not in the invariant. -/
theorem Inv.withHost {s : State} (h : Inv s) (host : List HostItem) : Inv { s with host := host } :=
  h

theorem HostWrites.seq {s t : State} (h : HostWrites s t) : t.seq = s.seq := by
  cases h
  case hs => exact s.setLane_seq _ _
  case sp => exact s.setLane_seq _ _
  all_goals rfl

theorem inv_hostAct {s t : State} {waits : Bool} {a : HostAction} (hs : Inv s)
    (h : s.hostAct waits a = .next t) : Inv t := by
  rcases s.hostAct_cases waits a with ⟨n, v, -, -, e⟩ | ⟨image, -, e⟩ |
    ⟨u, e, answers | ⟨idle, writes⟩⟩ <;> rw [e] at h
  · rcases s.writeCmd_cases waits (v.setWidth 32) with ⟨i, -, e⟩ | ⟨-, e⟩ <;> rw [e] at h
    · cases waits with
      | true => exact inv_exec hs h
      | false => exact inv_beginCommand hs h
    · cases h
      rcases s.issueIllegal_cases with ⟨-, e⟩ | ⟨-, -, e⟩ | ⟨idle, clear, e⟩ <;> rw [e]
      · exact (AnswersOnly.refuseWrite s).inv hs
      · exact hs
      · exact inv_of_idle ((inv_iff.mp hs).1.raise (State.commandFaults_of_not_faulted clear)
          .cmderr false) ((State.raise_seq _ _).trans idle)
  · cases h
    exact inv_of_idle ((inv_iff.mp hs).1.resetInput image) rfl
  · cases h
    exact answers.inv hs
  · cases h
    exact inv_of_idle (writes.sound (inv_iff.mp hs).1) (writes.seq.trans idle)

/-- Settles O56: a host action keeps the invariant, and so does a unit of a running command. -/
theorem stepKeepsTheInvariant : Obligations.StepKeepsTheInvariant := by
  intro s t hs h
  rcases step_cases s with ⟨-, -, e⟩ | ⟨item, rest, -, e⟩ | ⟨q, later, hq, e⟩ <;> rw [e] at h
  · cases h
    exact hs
  · exact inv_hostAct (hs.withHost rest) h
  · have ⟨runs, does⟩ := (hs.withHost later).unit hq
    have ⟨sound, running⟩ := inv_iff.mp (hs.withHost later)
    rw [runs] at h
    cases h
    exact does.inv sound (running q hq)

/-! ### No step stops (O57) -/

/-- A command that addresses the scratchpad needs CFGOK, which is set over a consistent tuple alone
(R52, R171): issuing one never stops the machine. -/
theorem exists_issue_of_inv {s : State} (hs : Inv s) (i : Instr) (run : State → State) :
    ∃ t, s.issue i run = .next t := by
  rcases s.issue_cases i run with ⟨-, e⟩ | ⟨-, -, -, e⟩ | ⟨-, -, f, -, e⟩ |
    ⟨-, -, met, scratchpad, inconsistent, -⟩ | ⟨-, -, e⟩
  · exact ⟨_, e⟩
  · exact ⟨_, e⟩
  · exact ⟨_, e⟩
  · have cfgok : (needs i).cfgok = true := by
      cases i
      case explode | implode | mix | mixstep | hash => rfl
      all_goals cases scratchpad
    rw [State.needsMet, cfgok] at met
    simp only [Bool.not_true, Bool.false_or, Bool.and_eq_true] at met
    rw [(inv_iff.mp hs).1.config met.1] at inconsistent
    cases inconsistent
  · exact ⟨_, e⟩

theorem exists_hostAct_of_inv {s : State} (hs : Inv s) (waits : Bool) (a : HostAction) :
    ∃ t, s.hostAct waits a = .next t := by
  rcases s.hostAct_cases waits a with ⟨n, v, -, -, e⟩ | ⟨image, -, e⟩ | ⟨u, e, -⟩ <;> rw [e]
  · rcases s.writeCmd_cases waits (v.setWidth 32) with ⟨i, -, e⟩ | ⟨-, e⟩ <;> rw [e]
    · cases waits with
      | true =>
        rw [if_pos rfl, exec_eq_issue]
        exact exists_issue_of_inv hs i _
      | false => exact exists_issue_of_inv hs i fun t =>
          if t.commitFails i then t.raise .cfgerr else t.startSequencer i
    · exact ⟨_, rfl⟩
  · exact ⟨_, rfl⟩
  · exact ⟨_, rfl⟩

/-- Settles O57: neither a host action nor a unit stops the machine. -/
theorem noStepStopsUnderTheInvariant : Obligations.NoStepStopsUnderTheInvariant := by
  intro s hs
  rcases step_cases s with ⟨-, -, e⟩ | ⟨item, rest, -, e⟩ | ⟨q, later, hq, e⟩ <;> rw [e]
  · exact ⟨s, rfl⟩
  · exact exists_hostAct_of_inv (hs.withHost rest) _ _
  · exact ⟨_, ((hs.withHost later).unit hq).1⟩

/-! ### The faults of a unit (O60) -/

/-- CFGERR, CMDERR, SEQERR and ACCERR after a command or a part of one are set only if they were. -/
def NoNewFault (s t : State) : Prop :=
  (t.cfgerr = true → s.cfgerr = true) ∧ (t.cmderr = true → s.cmderr = true)
    ∧ (t.seqerr = true → s.seqerr = true) ∧ (t.accerr = true → s.accerr = true)

theorem PartRuns.noNewFault {sel : LaneSel} {s t : State} (h : PartRuns sel s t) :
    NoNewFault s t :=
  ⟨h.cfgerr.symm.trans, h.kept.cmderr.symm.trans, h.kept.seqerr.symm.trans,
    h.kept.accerr.symm.trans⟩

theorem PartEnds.noNewFault_close {sel : LaneSel} {s : State} {e : Ending}
    (h : PartEnds sel s e) : NoNewFault s e.close := by
  cases e with
  | completed t =>
    have runs : PartRuns sel s t := h
    exact runs.noNewFault
  | stopped t =>
    have fails : PartFails sel s t := h
    exact ⟨fails.cfgerr.symm.trans, fails.kept.cmderr.symm.trans, fails.kept.seqerr.symm.trans,
      fails.kept.accerr.symm.trans⟩

/-- A whole command sets none of these but CFGERR, by a CFGCOMMIT whose check fails. -/
theorem bodyOf_close_noNewFault {s : State} {i : Instr}
    (consistent : addressesScratchpad i = true → s.cfgConsistent = true)
    (commits : s.commitFails i = false) : NoNewFault s (bodyOf i s).close := by
  cases hi : i.lanes with
  | some sel => exact (PartEnds.bodyOf hi consistent).noNewFault_close
  | none =>
    cases i
    case nop => exact ⟨id, id, id, id⟩
    case cfgcommit =>
      have passes : s.cfgConsistent = true := by simpa [State.commitFails] using commits
      rw [bodyOf, cfgcommitBody, if_pos passes]
      exact ⟨id, id, id, id⟩
    case reset => exact ⟨nofun, nofun, nofun, nofun⟩
    all_goals cases hi

/-- A command with one part calls no collaborator and sets no EXTERR. -/
theorem bodyOf_close_exterr {s : State} {i : Instr} (h : .single ∈ phasesOf i) :
    (bodyOf i s).close.exterr = true → s.exterr = true := by
  cases i
  case cfgcommit => rw [bodyOf, cfgcommitBody]; split <;> exact id
  case reset => exact nofun
  case absorb | explode | implode | mix | final | hash => simp [phasesOf] at h
  all_goals exact id

theorem endPart_exterr (q : Sequencer) (e : Ending) : (endPart q e).exterr = e.close.exterr := by
  cases e with
  | completed t => rw [endPart_completed]; split <;> rfl
  | stopped t => rfl

/-- A part that makes `n` calls sets EXTERR exactly if one of them fails. -/
theorem exterr_close_iff {sel : LaneSel} {s : State} {e : Ending} (n : Nat)
    (clear : s.exterr = false) (ends : PartEnds sel s e)
    (hreturns : s.callsReturn n → ∃ t, e = .completed t)
    (hfails : ∀ k rest, k < n → s.FailsAfter k rest → ∃ t, e = .stopped t) :
    e.close.exterr = true ↔ true ∈ s.extFails.take n := by
  rcases s.callsReturn_or_failsAfter n with returns | ⟨k, rest, hk, fails⟩
  · obtain ⟨t, rfl⟩ := hreturns returns
    have kept : t.exterr = s.exterr := PartRuns.exterr ends
    refine ⟨fun h => ?_, fun h => absurd (returns true h) (by simp)⟩
    rw [show t.exterr = true from h, clear] at kept
    cases kept
  · obtain ⟨t, rfl⟩ := hfails k rest hk fails
    have failed : t.exterr = true := PartFails.exterr ends
    refine ⟨fun _ => ?_, fun _ => failed⟩
    obtain ⟨j, rfl⟩ := Nat.exists_eq_add_of_lt hk
    rw [show s.extFails = _ from fails, List.take_append, List.length_replicate,
      show k + j + 1 - k = j + 1 by omega]
    exact List.mem_append_right _ List.mem_cons_self

theorem exterr_absorbPart_iff {s : State} (clear : s.exterr = false) (i : Instr) (sel : LaneSel) :
    (absorbPart i sel s).close.exterr = true ↔
      true ∈ s.extFails.take (callsOfUnit sel .absorb) := by
  refine exterr_close_iff _ clear (PartEnds.absorbPart i sel s) (fun returns => ?_)
    fun k rest hk fails => ?_
  · cases i
    case hash => exact ⟨_, hashAbsorb_of_returns sel returns⟩
    all_goals exact ⟨_, absorbBody_of_returns sel returns⟩
  · cases i
    case hash => exact ⟨_, hashAbsorb_of_fails sel hk fails⟩
    all_goals exact ⟨_, absorbBody_of_fails sel hk fails⟩

theorem exterr_finalBody_iff {s : State} (clear : s.exterr = false) (sel : LaneSel) :
    (finalBody sel s).close.exterr = true ↔
      true ∈ s.extFails.take (callsOfUnit sel .final) :=
  exterr_close_iff _ clear (PartEnds.finalBody sel s)
    (fun returns => ⟨_, finalBody_of_returns sel returns⟩)
    fun _ _ hk fails => ⟨_, finalBody_of_fails sel hk fails⟩

theorem PartEnds.noNewFault_endPart {sel : LaneSel} {s : State} {e : Ending} (q : Sequencer)
    (h : PartEnds sel s e) : NoNewFault s (endPart q e) := by
  cases e with
  | completed t =>
    have runs : PartRuns sel s t := h
    rw [endPart_completed]
    split <;> exact runs.noNewFault
  | stopped t => exact h.noNewFault_close

theorem UnitDoes.noNewFault {s t : State} {q : Sequencer} (does : UnitDoes s q t)
    (hs : Sound s) (h : Runs s q) : NoNewFault s t := by
  cases does with
  | whole => exact bodyOf_close_noNewFault (h.consistent hs) h.commits
  | absorbs => exact (PartEnds.absorbPart _ _ s).noNewFault_endPart q
  | finishes => exact (PartEnds.finalBody _ s).noNewFault_endPart q
  | ends _ runs => exact PartEnds.noNewFault_endPart (e := .completed _) q runs
  | turns runs => exact runs.noNewFault

/-- EXTERR is set by a call that fails, in the two parts that make calls. -/
theorem UnitDoes.exterr_iff {s t : State} {q : Sequencer} (does : UnitDoes s q t)
    (h : Runs s q) (clear : s.exterr = false) :
    t.exterr = true ↔ (q.phase = .absorb ∨ q.phase = .final)
      ∧ true ∈ s.extFails.take (callsOfUnit (sequencerLanes q.instr) q.phase) := by
  have kept {u : State} (e : u.exterr = true → s.exterr = true)
      (hp : ¬ (q.phase = .absorb ∨ q.phase = .final)) :
      u.exterr = true ↔ (q.phase = .absorb ∨ q.phase = .final)
        ∧ true ∈ s.extFails.take (callsOfUnit (sequencerLanes q.instr) q.phase) :=
    ⟨fun hu => absurd (e hu) (by simp [clear]), fun hc => absurd hc.1 hp⟩
  cases does with
  | whole hp => exact kept (bodyOf_close_exterr (hp ▸ h.phase)) (by simp [hp])
  | absorbs hp => rw [endPart_exterr, exterr_absorbPart_iff clear, hp]; simp
  | finishes hp => rw [endPart_exterr, exterr_finalBody_iff clear, hp]; simp
  | ends hp runs =>
    refine kept (fun hu => ?_) (by rcases hp with hp | hp | hp <;> simp [hp])
    rw [endPart_exterr] at hu
    exact runs.exterr.symm.trans hu
  | turns runs hp => exact kept runs.exterr.symm.trans (by rcases hp with hp | hp | hp <;> simp [hp])

/-- Settles O60: a unit that calls no collaborator sets no fault, and one that does sets EXTERR
exactly if a call fails. -/
theorem onlyExterrArisesWhileACommandRuns : Obligations.OnlyExterrArisesWhileACommandRuns := by
  intro s t q hs hq ht
  have ⟨runs, does⟩ := hs.unit hq
  have ⟨sound, all⟩ := inv_iff.mp hs
  have running := all q hq
  rw [runs] at ht
  cases ht
  obtain ⟨cfgerr, cmderr, seqerr, accerr⟩ := does.noNewFault sound running
  refine ⟨cfgerr, cmderr, seqerr, accerr, fun clear => ?_⟩
  rw [does.exterr_iff running clear]
  constructor
  · rintro ⟨part, fails⟩
    exact ⟨_, lanes_of_part running.phase (by rcases part with hp | hp <;> simp [hp]),
      callsCollaborator_of_part running.phase part, part, fails⟩
  · rintro ⟨sel, lanes, -, part, fails⟩
    rw [lanes_of_part running.phase (by rcases part with hp | hp <;> simp [hp])] at lanes
    cases lanes
    exact ⟨part, fails⟩

end Sys2Proof.Machine
end

section
/-! PROOF. R111 to R117, R50, R173: the S-box as a permutation of the bytes, the round as a bijection
of the block and as a function of one diagonal for each column; canonical memories; and the check of
CFGCOMMIT. -/

namespace Sys2Proof.Machine

/-! ### The S-box (R111) -/

/-- The inverse of the affine map of the S-box (R111). -/
def sboxUnaffine (c : Byte) : Byte :=
  c.rotateLeft 1 ^^^ c.rotateLeft 3 ^^^ c.rotateLeft 6 ^^^ 0x05#8

/-- Settles O19: what the affine map is taken of is found from the entry itself. -/
theorem sboxIsTheAffineInverse : Obligations.SboxIsTheAffineInverse := by
  have entry : ∀ a : Byte, (a ≠ 0#8 → gfMul 8 a (sboxUnaffine (sbox a)) = 0x01#8)
      ∧ (a = 0#8 → sboxUnaffine (sbox a) = 0#8) ∧ sbox a = sboxAffine (sboxUnaffine (sbox a)) := by
    decide +kernel
  exact fun a => ⟨sboxUnaffine (sbox a), entry a⟩

/-- What the affine map is taken of, the inverse in the field, is taken of itself twice. -/
theorem sboxUnaffine_sbox_twice :
    ∀ a : Byte, sboxUnaffine (sbox (sboxUnaffine (sbox a))) = a := by
  decide +kernel

theorem sbox_injective : Function.Injective sbox :=
  Function.LeftInverse.injective (g := fun c => sboxUnaffine (sbox (sboxUnaffine c)))
    sboxUnaffine_sbox_twice

/-! ### MixColumns undoes itself in four steps (R115) -/

theorem xor_left_comm {w : Nat} (a b c : BitVec w) : a ^^^ (b ^^^ c) = b ^^^ (a ^^^ c) := by
  rw [← BitVec.xor_assoc, BitVec.xor_comm a, BitVec.xor_assoc]

/-- Equal terms of a sum cancel; with the commutative laws this settles every equation of sums. -/
theorem xor_xor_cancel_left {w : Nat} (a b : BitVec w) : a ^^^ (a ^^^ b) = b := by
  rw [← BitVec.xor_assoc, BitVec.xor_self, BitVec.zero_xor]

theorem xtime_xor (a b : Byte) : xtime (a ^^^ b) = xtime a ^^^ xtime b := by
  rw [xtime, xtime, xtime, BitVec.getLsbD_xor, BitVec.shiftLeft_xor_distrib]
  cases a.getLsbD 7 <;> cases b.getLsbD 7 <;>
    simp [BitVec.xor_assoc, BitVec.xor_comm, xor_left_comm]

/-- The mixing of a column as a map of dwords. -/
def mixDword (w : Dword) : Dword :=
  mixColumn (dwByte w 0) (dwByte w 1) (dwByte w 2) (dwByte w 3)

/-- Two mixings: each byte gains four times the sum of itself and the byte across. -/
theorem dwByte_mixDword_mixDword (w : Dword) (j : Nat) (hj : j < 4) :
    dwByte (mixDword (mixDword w)) j =
      xtime (xtime (dwByte w j ^^^ dwByte w ((j + 2) % 4))) ^^^ dwByte w j := by
  match j, hj with
  | 0, _ | 1, _ | 2, _ | 3, _ =>
    simp [mixDword, mixColumn, mul2, mul3, xtime_xor]
    generalize dwByte w 0 = a, dwByte w 1 = b, dwByte w 2 = c, dwByte w 3 = d
    simp only [BitVec.xor_assoc, BitVec.xor_comm, xor_left_comm, xor_xor_cancel_left,
      BitVec.xor_self, BitVec.zero_xor]

/-- Two mixings keep the sum of a byte and the byte across, so two more undo them. -/
theorem mixDword_four (w : Dword) : mixDword (mixDword (mixDword (mixDword w))) = w := by
  refine dword_ext fun j hj => ?_
  have across : dwByte w ((((j + 2) % 4) + 2) % 4) = dwByte w j := by congr 1; omega
  rw [dwByte_mixDword_mixDword _ j hj, dwByte_mixDword_mixDword w j hj,
    dwByte_mixDword_mixDword w _ (Nat.mod_lt _ (by decide)), across]
  simp [xtime_xor, BitVec.xor_comm, xor_left_comm]

/-! ### The round (R117) -/

theorem dword_eq_of_byteOf {x y : Block} {c : Nat}
    (h : ∀ r, r < 4 → byteOf x (4 * c + r) = byteOf y (4 * c + r)) : dwOf x c = dwOf y c := by
  refine dword_ext fun r hr => ?_
  have byte (z : Block) : byteOf z (4 * c + r) = dwByte (dwOf z c) r := by
    rw [byteOf_eq_dwByte]
    congr 2 <;> omega
  rw [← byte, ← byte, h r hr]

/-- Blocks with the same bytes are equal. -/
theorem block_ext_bytes {x y : Block} (h : ∀ j, j < 16 → byteOf x j = byteOf y j) : x = y :=
  block_ext fun _ hc => dword_eq_of_byteOf fun _ hr => h _ (by omega)

theorem subBytes_injective : Function.Injective subBytes := by
  intro x y h
  refine block_ext_bytes fun j hj => sbox_injective ?_
  rw [← byteOf_subBytes x j hj, ← byteOf_subBytes y j hj, h]

/-- Byte `j` stands in row `j mod 4`; ShiftRows moves it that many columns back. -/
theorem shiftRows_injective : Function.Injective shiftRows := by
  intro x y h
  refine block_ext_bytes fun j hj => ?_
  have moved := congrArg (byteOf · (4 * ((j / 4 + 4 - j % 4) % 4) + j % 4)) h
  have place : j % 4 + 4 * (((j / 4 + 4 - j % 4) % 4 + j % 4) % 4) = j := by omega
  rwa [byteOf_shiftRows _ _ _ (Nat.mod_lt _ (by decide)) (Nat.mod_lt _ (by decide)),
    byteOf_shiftRows _ _ _ (Nat.mod_lt _ (by decide)) (Nat.mod_lt _ (by decide)), place] at moved

theorem mixDword_injective : Function.Injective mixDword :=
  Function.LeftInverse.injective (g := fun w => mixDword (mixDword (mixDword w))) mixDword_four

theorem mixColumnOf_eq_mixDword (x : Block) (c : Nat) : mixColumnOf x c = mixDword (dwOf x c) := by
  have byte (r : Nat) (hr : r < 4) : byteOf x (4 * c + r) = dwByte (dwOf x c) r := by
    rw [byteOf_eq_dwByte]
    congr 2 <;> omega
  rw [mixColumnOf, mixDword, byte 1 (by decide), byte 2 (by decide), byte 3 (by decide),
    ← byte 0 (by decide), Nat.add_zero]

theorem mixColumns_injective : Function.Injective mixColumns := by
  intro x y h
  refine block_ext fun c hc => mixDword_injective ?_
  rw [← mixColumnOf_eq_mixDword, ← mixColumnOf_eq_mixDword, ← dwOf_mixColumns x c hc, h,
    dwOf_mixColumns y c hc]

/-- Settles O25: the three steps and the sum with the key are injective, and blocks are finitely
many. -/
theorem roundIsABijection : Obligations.RoundIsABijection := by
  intro hw k
  have finite : Finite Block := Finite.of_injective BitVec.toFin BitVec.toFin_injective
  refine Finite.injective_iff_bijective.mp fun x y h => ?_
  simp only [cipherRound_eq_roundHW, roundHW] at h
  have sums := congrArg (k ^^^ ·) h
  simp only [BitVec.xor_comm _ k, xor_xor_cancel_left] at sums
  exact subBytes_injective (shiftRows_injective (mixColumns_injective sums))

/-- Settles O24: the key is added last, and a column of the round looks up the bytes of one
diagonal. -/
theorem roundDependsOnOneDiagonal : Obligations.RoundDependsOnOneDiagonal := by
  intro hw x x' k k'
  refine ⟨?_, fun c hc bytes key => ?_⟩
  · rw [cipherRound_eq_roundHW, cipherRound_eq_roundHW, roundHW, roundHW, BitVec.xor_comm _ k,
      BitVec.xor_assoc, xor_xor_cancel_left]
  · have row0 : byteOf x (4 * c) = byteOf x' (4 * c) := by
      have := bytes 0 (by decide)
      rwa [Nat.add_zero, Nat.mod_eq_of_lt hc, Nat.zero_add] at this
    rw [cipherRound_eq_roundHW, cipherRound_eq_roundHW, dwOf_roundHW x k c hc,
      dwOf_roundHW x' k' c hc, roundSWDw, roundSWDw, row0, bytes 1 (by decide),
      bytes 2 (by decide), bytes 3 (by decide), key]

/-! ### Memories (R50) -/

/-- Settles O17: a write changes one byte, and canonical memories are known by their bytes. -/
theorem canonicalMemoriesAreEqualWhenTheyReadAlike :
    Obligations.CanonicalMemoriesAreEqualWhenTheyReadAlike := by
  refine ⟨fun m a v hm => ⟨Memory.wf_write a v hm, ?_⟩, fun m n hm hn h => Memory.ext_of_wf hm hn h⟩
  refine Memory.ext_of_wf (Memory.wf_write _ _ (Memory.wf_write _ _ hm)) hm fun b => ?_
  rw [Memory.read_write, Memory.read_write]
  by_cases same : b = a <;> simp [same]

/-! ### CFGCOMMIT (R173) -/

theorem isPowerOfTwo_iff (n : Nat) : isPowerOfTwo n = true ↔ ∃ k, n = 2 ^ k := by
  rw [isPowerOfTwo, Bool.and_eq_true, bne_iff_ne, beq_iff_eq]
  constructor
  · rintro ⟨-, e⟩
    exact ⟨n.log2, e.symm⟩
  · rintro ⟨k, rfl⟩
    exact ⟨(Nat.two_pow_pos k).ne', by rw [Nat.log2_two_pow]⟩

/-- CFG_CTL[31:1] is zero when each of its bits is. -/
theorem reservedControl_eq_zero_iff (v : Dword) :
    v.extractLsb' 1 31 = 0#31 ↔ ∀ b, 1 ≤ b → v.getLsbD b = false := by
  rw [extractLsb'_eq_zero_iff]
  constructor
  · intro h b hb
    by_cases inside : b < 32
    · simpa [Nat.add_sub_cancel' hb] using h (b - 1) (by omega)
    · exact BitVec.getLsbD_of_ge _ _ (by omega)
  · exact fun h i _ => h (1 + i) (by omega)

/-- The check of CFGCOMMIT in numbers: MASK is MEM - 16 where MEM is a power of two of at least
128. -/
theorem State.cfgConsistent_iff (s : State) :
    s.cfgConsistent = true ↔ (∃ k, s.cfgMem.toNat = 2 ^ k) ∧ 128 ≤ s.cfgMem.toNat
      ∧ s.cfgMem.toNat ≤ s.build.spmax ∧ s.cfgMask.toNat = s.cfgMem.toNat - 16
      ∧ ∀ b, 1 ≤ b → s.cfgCtl.getLsbD b = false := by
  have mask : (∃ k, s.cfgMem.toNat = 2 ^ k) → 128 ≤ s.cfgMem.toNat →
      (s.cfgMask = (s.cfgMem - 1#64) &&& ~~~0xF#64 ↔ s.cfgMask.toNat = s.cfgMem.toNat - 16) := by
    rintro ⟨k, hk⟩ large
    have exponent : 7 ≤ k :=
      (Nat.pow_le_pow_iff_right (a := 2) (by decide)).mp (large.trans_eq hk)
    obtain ⟨j, hj⟩ : 2 ^ 4 ∣ s.cfgMem.toNat := by
      rw [hk]
      exact pow_dvd_pow 2 (by omega)
    rw [← BitVec.toNat_inj, toNat_and_not_15,
      BitVec.toNat_sub_of_le (by rw [BitVec.le_def, BitVec.toNat_ofNat]; omega), BitVec.toNat_ofNat]
    omega
  simp only [State.cfgConsistent, Bool.and_eq_true, isPowerOfTwo_iff, decide_eq_true_eq, beq_iff_eq,
    reservedControl_eq_zero_iff]
  constructor
  · rintro ⟨⟨⟨⟨power, large⟩, fits⟩, hmask⟩, control⟩
    exact ⟨power, large, fits, (mask power large).mp hmask, control⟩
  · rintro ⟨power, large, fits, hmask, control⟩
    exact ⟨⟨⟨⟨power, large⟩, fits⟩, (mask power large).mpr hmask⟩, control⟩

theorem ready_cfgcommit {s : State} (idle : s.seq = none) (clear : s.faulted = false) :
    Ready s .cfgcommit :=
  ⟨idle, clear, rfl, rfl, rfl, nofun⟩

/-- Settles O28: on such a block CFGCOMMIT is ready, and its body makes the check. -/
theorem cfgcommitValidatesTheTuple : Obligations.CfgcommitValidatesTheTuple := by
  intro s idle clear ok
  have check : s.cfgConsistent = true ↔ ok := s.cfgConsistent_iff
  rw [← check, exec_of_ready (ready_cfgcommit idle clear)]
  refine ⟨fun passes => ?_, fun fails => ?_⟩
  · have consistent : State.cfgConsistent { s with done := false } = true := passes
    rw [bodyOf, cfgcommitBody, if_pos consistent, Ending.close]
    simp [idle]
  · have inconsistent : State.cfgConsistent { s with done := false } = false :=
      (Bool.not_eq_true _).mp fails
    rw [bodyOf, cfgcommitBody_of_fails inconsistent, Ending.close]
    simp [State.raise, State.setFault, idle]

end Sys2Proof.Machine
end

section
/-! PROOF. R31, R32, R38, R199, R214: the registers of an idle block. A register number names a register
as its place in the table of R31 says; a read answers it, a write stores it or is refused, and STATUS
is read bit by bit. -/

namespace Sys2Proof.Machine

/-! ### The numbers of the registers (R31) -/

/-- The number of a register (R31). -/
def regNumber : Reg → Nat
  | .cmd => 0x00
  | .status => 0x01
  | .cfgIter => 0x02
  | .cfgMem => 0x03
  | .cfgMask => 0x04
  | .cfgCtl => 0x05
  | .msgLen => 0x06
  | .sel l => 0x08 + laneNumber l
  | .k l i => 0x40 + 0x40 * laneNumber l + i.val
  | .x l i => 0x50 + 0x40 * laneNumber l + i.val
  | .idx l => 0x60 + 0x40 * laneNumber l
  | .al l => 0x61 + 0x40 * laneNumber l
  | .ah l => 0x62 + 0x40 * laneNumber l
  | .bx l => 0x63 + 0x40 * laneNumber l

theorem regOfNumber_regNumber (r : Reg) : regOfNumber (regNumber r) = some r := by
  cases r
  case k l i => revert i; cases l <;> decide
  case x l i => revert i; cases l <;> decide
  case sel l | idx l | al l | ah l | bx l => cases l <;> rfl
  all_goals rfl

theorem laneReg_eq_some {l : LaneId} {n : Nat} {r : Reg} (h : laneReg l n = some r) :
    regNumber r = 0x40 + 0x40 * laneNumber l + n := by
  rw [laneReg] at h
  split_ifs at h <;> cases h <;> simp only [regNumber] <;> omega

/-- A number names the register whose number it is, and no other (R31). -/
theorem regOfNumber_eq_some_iff {n : Nat} {r : Reg} : regOfNumber n = some r ↔ n = regNumber r := by
  refine ⟨fun h => ?_, fun h => h ▸ regOfNumber_regNumber r⟩
  rw [regOfNumber] at h
  iterate 9
    split at h
    · cases h; assumption
  split at h
  · rw [laneReg_eq_some h, laneNumber]; omega
  split at h
  · rw [laneReg_eq_some h, laneNumber]; omega
  · cases h

theorem listedNumber_regNumber (r : Reg) : listedNumber (regNumber r) := by
  cases r
  case k l i => cases l <;> simp only [listedNumber, regNumber, laneNumber] <;> omega
  case x l i => cases l <;> simp only [listedNumber, regNumber, laneNumber] <;> omega
  case sel l | idx l | al l | ah l | bx l =>
    cases l <;> simp [listedNumber, regNumber, laneNumber]
  all_goals simp [listedNumber, regNumber]

/-- Every number R31 lists is the number of a register. -/
theorem exists_regNumber_of_listed {n : Nat} (h : listedNumber n) : ∃ r, n = regNumber r := by
  have lane {l : LaneId} {j : Nat} (hj : j < 10 ∨ (0x10 ≤ j ∧ j < 0x18) ∨ (0x20 ≤ j ∧ j < 0x24)) :
      ∃ r, 0x40 + 0x40 * laneNumber l + j = regNumber r := by
    rcases hj with hj | ⟨lo, hi⟩ | ⟨lo, hi⟩
    · exact ⟨.k l ⟨j, hj⟩, rfl⟩
    · exact ⟨.x l ⟨j - 0x10, by omega⟩, by simp only [regNumber]; omega⟩
    · obtain rfl | rfl | rfl | rfl : j = 0x20 ∨ j = 0x21 ∨ j = 0x22 ∨ j = 0x23 := by omega
      · exact ⟨.idx l, by simp only [regNumber]; omega⟩
      · exact ⟨.al l, by simp only [regNumber]; omega⟩
      · exact ⟨.ah l, by simp only [regNumber]; omega⟩
      · exact ⟨.bx l, by simp only [regNumber]; omega⟩
  by_cases hl : 0x40 ≤ n
  · rw [listedNumber] at h
    by_cases h1 : n < 0x80
    · have named := lane (l := .l0) (j := n - 0x40) (by omega)
      rwa [show 0x40 + 0x40 * laneNumber .l0 + (n - 0x40) = n by rw [laneNumber]; omega] at named
    · have named := lane (l := .l1) (j := n - 0x80) (by omega)
      rwa [show 0x40 + 0x40 * laneNumber .l1 + (n - 0x80) = n by rw [laneNumber]; omega] at named
  · rw [listedNumber] at h
    obtain rfl | rfl | rfl | rfl | rfl | rfl | rfl | rfl | rfl : n = 0 ∨ n = 1 ∨ n = 2 ∨ n = 3
      ∨ n = 4 ∨ n = 5 ∨ n = 6 ∨ n = 8 ∨ n = 9 := by omega
    exacts [⟨.cmd, rfl⟩, ⟨.status, rfl⟩, ⟨.cfgIter, rfl⟩, ⟨.cfgMem, rfl⟩, ⟨.cfgMask, rfl⟩,
      ⟨.cfgCtl, rfl⟩, ⟨.msgLen, rfl⟩, ⟨.sel .l0, rfl⟩, ⟨.sel .l1, rfl⟩]

theorem lane1Number_regNumber_iff (r : Reg) :
    lane1Number (regNumber r) ↔ regLane r = some .l1 := by
  cases r
  case k l i =>
    cases l
    · simp [lane1Number, regNumber, laneNumber, regLane]; omega
    · simp [lane1Number, regNumber, laneNumber, regLane]
  case x l i =>
    cases l
    · simp [lane1Number, regNumber, laneNumber, regLane]; omega
    · simp [lane1Number, regNumber, laneNumber, regLane]; omega
  case sel l | idx l | al l | ah l | bx l =>
    cases l <;> simp [lane1Number, regNumber, laneNumber, regLane]
  all_goals simp [lane1Number, regNumber, regLane]

/-! ### The registers of a block -/

/-- Lane 1 is not there when NLANES = 1; all else is (R31). -/
theorem State.hasLane_iff (s : State) (o : Option LaneId) :
    s.hasLane o = true ↔ ¬ (s.build.nlanes = .single ∧ o = some .l1) := by
  rcases o with _ | _ | _ <;> cases h : s.build.nlanes <;> simp [State.hasLane, h]

theorem State.regAt_eq_some_iff {s : State} {n : Nat} {r : Reg} :
    s.regAt n = some r ↔ n = regNumber r ∧ s.hasLane (regLane r) = true := by
  constructor
  · intro h
    rw [State.regAt] at h
    split at h
    · next r' named =>
      split at h
      · next there =>
        cases h
        exact ⟨regOfNumber_eq_some_iff.mp named, there⟩
      · cases h
    · cases h
  · rintro ⟨rfl, there⟩
    rw [State.regAt, regOfNumber_regNumber]
    exact if_pos there

theorem State.regAt_regNumber {s : State} (r : Reg) (h : s.hasLane (regLane r) = true) :
    s.regAt (regNumber r) = some r :=
  State.regAt_eq_some_iff.mpr ⟨rfl, h⟩

/-- The reserved numbers are those that name no register of the block. -/
theorem reservedNumber_iff (s : State) (n : Nat) : reservedNumber s n ↔ s.regAt n = none := by
  by_cases listed : listedNumber n
  · obtain ⟨r, rfl⟩ := exists_regNumber_of_listed listed
    rw [reservedNumber, lane1Number_regNumber_iff]
    by_cases there : s.hasLane (regLane r) = true
    · rw [State.regAt_regNumber r there]
      simp [listed, (s.hasLane_iff _).mp there]
    · have absent := not_not.mp (mt (s.hasLane_iff _).mpr there)
      rw [State.regAt, regOfNumber_regNumber]
      exact iff_of_true (.inr absent) (if_neg there)
  · refine iff_of_true (.inl listed) ?_
    by_contra named
    obtain ⟨r, h⟩ := Option.ne_none_iff_exists'.mp named
    obtain ⟨rfl, -⟩ := State.regAt_eq_some_iff.mp h
    exact listed (listedNumber_regNumber r)

/-! ### Reads and writes of an idle block -/

theorem State.readReg_of_regAt {s : State} {n : Nat} {r : Reg} (idle : s.seq = none)
    (h : s.regAt n = some r) : s.readReg n = s.readRegIdle r := by
  rw [State.readReg, h, State.busy_eq_false idle]
  cases r <;> rfl

theorem State.readReg_of_reserved {s : State} {n : Nat} (h : s.regAt n = none) :
    s.readReg n = s.refuseRegRead := by
  rw [State.readReg, h]

theorem State.writeReg_of_regAt {s : State} {n : Nat} {r : Reg} (waits : Bool) (v : Word)
    (idle : s.seq = none) (h : s.regAt n = some r) (ne : r ≠ .cmd) :
    s.writeReg waits n v = .next (s.writeRegIdle v r) := by
  rw [State.writeReg, h, State.busy_eq_false idle]
  cases r
  case cmd => exact absurd rfl ne
  all_goals rfl

theorem State.writeReg_of_reserved {s : State} {n : Nat} (waits : Bool) (v : Word)
    (h : s.regAt n = none) : s.writeReg waits n v = .next s.refuseWrite := by
  rw [State.writeReg, h]

/-- A step in which the host reads a register of an idle block. -/
theorem step_readReg {s : State} {tm : Timing} {r : Reg} {rest : List HostItem}
    (idle : s.seq = none) (hh : s.host = ⟨tm, .readReg (regNumber r)⟩ :: rest)
    (there : s.hasLane (regLane r) = true) :
    step s = .next (State.readRegIdle { s with host := rest } r) := by
  rw [step_idle_cons idle hh]
  exact congrArg Host.Outcome.next
    (State.readReg_of_regAt (s := { s with host := rest }) idle (State.regAt_regNumber r there))

/-- A step in which the host writes a register, but for CMD, of an idle block. -/
theorem step_writeReg {s : State} {tm : Timing} {r : Reg} {v : Word} {rest : List HostItem}
    (idle : s.seq = none) (hh : s.host = ⟨tm, .writeReg (regNumber r) v⟩ :: rest)
    (there : s.hasLane (regLane r) = true) (ne : r ≠ .cmd) :
    step s = .next (State.writeRegIdle { s with host := rest } v r) := by
  rw [step_idle_cons idle hh]
  exact State.writeReg_of_regAt (s := { s with host := rest }) _ v idle
    (State.regAt_regNumber r there) ne

/-- Settles O10: these five registers are stored, and all but MSGLEN clear CFGOK. -/
theorem configurationWritesUncommit : Obligations.ConfigurationWritesUncommit := by
  intro s tm v rest idle
  exact ⟨fun h => step_writeReg (r := .cfgIter) idle h rfl nofun,
    fun h => step_writeReg (r := .cfgMem) idle h rfl nofun,
    fun h => step_writeReg (r := .cfgMask) idle h rfl nofun,
    fun h => step_writeReg (r := .cfgCtl) idle h rfl nofun,
    fun h => step_writeReg (r := .msgLen) idle h rfl nofun⟩

/-! ### What a register read returns (O12) -/

/-- Where the valid bit is clear, the answer is some value of the register's width. -/
theorem State.answerIf_of_invalid {s : State} {valid : Bool} (width : Nat) (v : Block)
    (h : valid = false) : ∃ u : Block, u.toNat < 2 ^ width ∧
      s.answerIf valid width v = { s with reply := .register u, freeCount := s.freeCount + 1 } := by
  refine ⟨((Config.freeValue s.freeCount .reply).setWidth width).setWidth 128, ?_, ?_⟩
  · rw [BitVec.toNat_setWidth]
    exact (Nat.mod_le _ _).trans_lt (BitVec.isLt _)
  · rw [State.answerIf, if_neg (by simp [h])]
    rfl

theorem State.answerIf_of_valid {s : State} {valid : Bool} (width : Nat) (v : Block)
    (h : valid = true) : s.answerIf valid width v = { s with reply := .register v } := by
  rw [State.answerIf, if_pos h]
  rfl

/-- A register that holds a value when a valid bit of its lane is set. -/
theorem step_readReg_of_valid {s : State} {tm : Timing} {r : Reg} {rest : List HostItem}
    {valid : Bool} {width : Nat} {v : Block} (idle : s.seq = none)
    (hh : s.host = ⟨tm, .readReg (regNumber r)⟩ :: rest) (there : s.hasLane (regLane r) = true)
    (hr : ∀ t : State, t.lane0 = s.lane0 → t.lane1 = s.lane1 →
      t.readRegIdle r = t.answerIf valid width v) :
    (valid = true → step s = .next { s with host := rest, reply := .register v })
    ∧ (valid = false → ∃ u : Block, u.toNat < 2 ^ width ∧ step s = .next
        { s with host := rest, reply := .register u, freeCount := s.freeCount + 1 }) := by
  rw [step_readReg idle hh there, hr { s with host := rest } rfl rfl]
  refine ⟨fun h => by rw [State.answerIf_of_valid width v h], fun h => ?_⟩
  obtain ⟨u, small, e⟩ := State.answerIf_of_invalid (s := { s with host := rest }) width v h
  exact ⟨u, small, congrArg _ e⟩

/-- Settles O12: each number names its register, which is answered where its valid bit is set. -/
theorem registerReadsReturnTheRegister : Obligations.RegisterReadsReturnTheRegister := by
  intro s tm n rest idle hh answers answersAny
  refine ⟨fun h => ?_, fun h => ?_, fun h => ?_, fun h => ?_, fun h => ?_, fun h => ?_,
    fun l there => ?_⟩
  · exact step_readReg (r := .status) idle (h ▸ hh) rfl
  · exact step_readReg (r := .cfgIter) idle (h ▸ hh) rfl
  · exact step_readReg (r := .cfgMem) idle (h ▸ hh) rfl
  · exact step_readReg (r := .cfgMask) idle (h ▸ hh) rfl
  · exact step_readReg (r := .cfgCtl) idle (h ▸ hh) rfl
  · exact step_readReg (r := .msgLen) idle (h ▸ hh) rfl
  have lane : s.hasLane (some l) = true := (s.hasLane_iff _).mpr fun ⟨single, e⟩ => by
    rw [there (Option.some.inj e)] at single
    cases single
  have read (r : Reg) {valid : Bool} {width : Nat} {v : Block} (h : n = regNumber r)
      (there : s.hasLane (regLane r) = true)
      (hr : ∀ t : State, t.lane0 = s.lane0 → t.lane1 = s.lane1 →
        t.readRegIdle r = t.answerIf valid width v) :
      (valid = true → answers v) ∧ (valid = false → answersAny width) :=
    step_readReg_of_valid idle (h ▸ hh) there hr
  have lanes {t : State} (h0 : t.lane0 = s.lane0) (h1 : t.lane1 = s.lane1) :
      t.lane l = s.lane l := by
    cases l
    exacts [h0, h1]
  have sel (h : n = 0x08 + laneNumber l) := read (.sel l) h lane fun t h0 h1 => by
    rw [State.readRegIdle, lanes h0 h1]
  have k (i : Fin 10) (h : n = 0x40 + 0x40 * laneNumber l + i.val) :=
    read (.k l i) h lane fun t h0 h1 => by rw [State.readRegIdle, lanes h0 h1]
  have x (i : Fin 8) (h : n = 0x50 + 0x40 * laneNumber l + i.val) :=
    read (.x l i) h lane fun t h0 h1 => by rw [State.readRegIdle, lanes h0 h1]
  have idx (h : n = 0x60 + 0x40 * laneNumber l) := read (.idx l) h lane fun t h0 h1 => by
    rw [State.readRegIdle, lanes h0 h1]
  have al (h : n = 0x61 + 0x40 * laneNumber l) := read (.al l) h lane fun t h0 h1 => by
    rw [State.readRegIdle, lanes h0 h1]
  have ah (h : n = 0x62 + 0x40 * laneNumber l) := read (.ah l) h lane fun t h0 h1 => by
    rw [State.readRegIdle, lanes h0 h1]
  have bx (h : n = 0x63 + 0x40 * laneNumber l) := read (.bx l) h lane fun t h0 h1 => by
    rw [State.readRegIdle, lanes h0 h1]
  refine ⟨fun h => (sel h).1, fun i h => (k i h).1, fun i h => (x i h).1, fun h => (idx h).1,
    fun h => (al h).1, fun h => (ah h).1, fun h => (bx h).1, fun h => (sel h).2,
    fun i h => (k i h).2, fun i h => (x i h).2, fun i hi h => ?_, fun h => (bx h).2⟩
  match i, hi with
  | 0, _ => exact (idx h).2
  | 1, _ => exact (al (by omega)).2
  | 2, _ => exact (ah (by omega)).2

/-! ### STATUS (R38) -/

theorem getLsbD_append_ofBool_zero {w : Nat} (v : BitVec w) (b : Bool) :
    (v ++ BitVec.ofBool b).getLsbD 0 = b := by
  rw [BitVec.getLsbD_append]
  cases b <;> rfl

theorem getLsbD_append_ofBool_succ {w : Nat} (v : BitVec w) (b : Bool) (k : Nat) :
    (v ++ BitVec.ofBool b).getLsbD (k + 1) = v.getLsbD k := by
  rw [BitVec.getLsbD_append, if_neg (by omega), Nat.add_sub_cancel]

theorem Lane.getLsbD_validBits (ln : Lane) :
    ln.validBits.getLsbD 0 = ln.kv ∧ ln.validBits.getLsbD 1 = ln.xv
      ∧ ln.validBits.getLsbD 2 = ln.mv ∧ ln.validBits.getLsbD 3 = ln.dv := by
  cases h0 : ln.kv <;> cases h1 : ln.xv <;> cases h2 : ln.mv <;> cases h3 : ln.dv <;>
    simp [Lane.validBits, h0, h1, h2, h3]

/-- Lane 1 shows its valid bits where it is there (R38). -/
theorem State.getLsbD_lane1ValidBits (s : State) (k : Nat) : s.lane1ValidBits.getLsbD k =
    (s.lane1.validBits.getLsbD k && decide (s.build.nlanes = .dual)) := by
  cases h : s.build.nlanes <;> simp [State.lane1ValidBits, h]

/-- Above the eight flags of STATUS stand the valid bits of the two lanes, and zeros (R38). -/
theorem State.getLsbD_statusWord_add_eight (s : State) (k : Nat) : s.statusWord.getLsbD (k + 8) =
    if k < 4 then s.lane0.validBits.getLsbD k
    else if k < 8 then s.lane1ValidBits.getLsbD (k - 4) else false := by
  have valid : s.statusWord.getLsbD (k + 8) =
      (0#16 ++ s.lane1ValidBits ++ s.lane0.validBits).getLsbD k := by
    simp only [State.statusWord, getLsbD_append_ofBool_succ]
  rw [valid, BitVec.getLsbD_append, BitVec.getLsbD_append]
  by_cases h0 : k < 4
  · simp [h0]
  · by_cases h1 : k < 8
    · simp [h0, h1, show k - 4 < 4 by omega]
    · simp [h0, h1, show ¬ k - 4 < 4 by omega]

/-- Settles O13: STATUS is put together from the flags, lane 1's valid bits masked. -/
theorem statusRegisterLayout : Obligations.StatusRegisterLayout := by
  intro s
  obtain ⟨kv0, xv0, mv0, dv0⟩ := s.lane0.getLsbD_validBits
  obtain ⟨kv1, xv1, mv1, dv1⟩ := s.lane1.getLsbD_validBits
  have upper := s.getLsbD_statusWord_add_eight
  have flags : s.statusWord.getLsbD 0 = s.busy ∧ s.statusWord.getLsbD 1 = s.done
      ∧ s.statusWord.getLsbD 2 = s.cfgok ∧ s.statusWord.getLsbD 3 = s.cfgerr
      ∧ s.statusWord.getLsbD 4 = s.cmderr ∧ s.statusWord.getLsbD 5 = s.seqerr
      ∧ s.statusWord.getLsbD 6 = s.exterr ∧ s.statusWord.getLsbD 7 = s.accerr := by
    simp only [State.statusWord, getLsbD_append_ofBool_zero, getLsbD_append_ofBool_succ, true_and]
  obtain ⟨f0, f1, f2, f3, f4, f5, f6, f7⟩ := flags
  refine ⟨f0, f1, f2, f3, f4, f5, f6, f7, (upper 0).trans kv0, (upper 1).trans xv0,
    (upper 2).trans mv0, (upper 3).trans dv0, (upper 4).trans ?_, (upper 5).trans ?_,
    (upper 6).trans ?_, (upper 7).trans ?_, fun k hk => ?_⟩
  · rw [← kv1]; exact s.getLsbD_lane1ValidBits 0
  · rw [← xv1]; exact s.getLsbD_lane1ValidBits 1
  · rw [← mv1]; exact s.getLsbD_lane1ValidBits 2
  · rw [← dv1]; exact s.getLsbD_lane1ValidBits 3
  · obtain ⟨j, rfl⟩ := Nat.exists_eq_add_of_le' hk
    exact (upper (j + 8)).trans (by simp)

/-! ### Windows (R31, R199) -/

theorem State.inWindow_iff (s : State) (w : Window) (offset count : Nat) :
    s.inWindow w offset count = true ↔ ¬ outsideWindow s w offset count := by
  rw [State.inWindow, Bool.and_eq_true, State.hasLane_iff, decide_eq_true_eq, outsideWindow, not_or,
    Nat.not_lt, and_comm]

theorem State.readWindow_of_outside {s : State} {w : Window} {offset count : Nat}
    (h : outsideWindow s w offset count) :
    s.readWindow w offset count = s.refuseWindowRead count := by
  rw [State.readWindow.eq_def, if_pos]
  simp [mt (s.inWindow_iff w offset count).mp (not_not.mpr h)]

theorem State.writeWindow_of_outside {s : State} {w : Window} {offset : Nat} {data : List Byte}
    (h : outsideWindow s w offset data.length) :
    s.writeWindow w offset data = s.refuseWrite := by
  rw [State.writeWindow.eq_def, if_pos]
  simp [mt (s.inWindow_iff w offset data.length).mp (not_not.mpr h)]

/-- DIG is read-only (R31). -/
theorem State.writeWindow_dig (s : State) (l : LaneId) (offset : Nat) (data : List Byte) :
    s.writeWindow (.dig l) offset data = s.refuseWrite := by
  rw [State.writeWindow]
  split <;> rfl

/-- A window read inside the window of an idle block (R31). -/
theorem State.readWindow_of_inside {s : State} {w : Window} {offset count : Nat}
    (idle : s.seq = none) (h : ¬ outsideWindow s w offset count) :
    s.readWindow w offset count =
      match w with
      | .dig l =>
        if (s.lane l).dv then { s with reply := .window ((s.lane l).dig.readBytes offset count) }
        else { s.drawn with reply := .window (freeBytes s.freeCount Slot.replyByte count) }
      | w => { s with reply := .window ((s.windowMem w).readBytes offset count) } := by
  rw [State.readWindow.eq_def, State.busy_eq_false idle, (s.inWindow_iff w offset count).mpr h,
    if_neg (by simp)]
  cases w <;> rfl

/-- A window write inside a window of an idle block that is not read-only (R31). -/
theorem State.writeWindow_of_inside {s : State} {w : Window} {offset : Nat} {data : List Byte}
    (idle : s.seq = none) (h : ¬ outsideWindow s w offset data.length) :
    s.writeWindow w offset data =
      match w with
      | .dig _ => s.refuseWrite
      | .msg => { s with msg := s.msg.writeBytes offset data }
      | .hs l => s.setLane l { s.lane l with hs := (s.lane l).hs.writeBytes offset data }
      | .sp l => s.setLane l { s.lane l with sp := (s.lane l).sp.writeBytes offset data } := by
  rw [State.writeWindow.eq_def, State.busy_eq_false idle,
    (s.inWindow_iff w offset data.length).mpr h, if_neg (by simp)]
  cases w <;> rfl

/-! ### Forbidden and allowed accesses (O9) -/

/-- No read of a register but CMD touches ACCERR. -/
theorem State.readRegIdle_accerr {s : State} {r : Reg} (ne : r ≠ .cmd) :
    (s.readRegIdle r).accerr = s.accerr := by
  have answers (valid : Bool) (width : Nat) (v : Block) :
      (s.answerIf valid width v).accerr = s.accerr := by
    rw [State.answerIf]
    split <;> rfl
  cases r
  case cmd => exact absurd rfl ne
  case sel | k | x | idx | al | ah | bx => exact answers _ _ _
  all_goals rfl

theorem State.writeRegIdle_of_writable {s : State} {v : Word} {r : Reg}
    (h : writableNumber (regNumber r)) : (s.writeRegIdle v r).accerr = s.accerr := by
  cases r
  case cmd | cfgIter | cfgMem | cfgMask | cfgCtl | msgLen => rfl
  all_goals simp only [writableNumber, regNumber] at h; omega

theorem State.writeRegIdle_of_not_writable {s : State} {v : Word} {r : Reg}
    (h : ¬ writableNumber (regNumber r)) : s.writeRegIdle v r = s.refuseWrite := by
  cases r
  case cmd | cfgIter | cfgMem | cfgMask | cfgCtl | msgLen => simp [writableNumber, regNumber] at h
  all_goals rfl

theorem State.readWindow_accerr {s : State} {w : Window} {offset count : Nat} (idle : s.seq = none)
    (h : ¬ outsideWindow s w offset count) : (s.readWindow w offset count).accerr = s.accerr := by
  rw [State.readWindow_of_inside idle h]
  cases w
  case dig => dsimp only; split <;> rfl
  all_goals rfl

theorem State.writeWindow_accerr {s : State} {w : Window} {offset : Nat} {data : List Byte}
    (idle : s.seq = none) (h : ¬ outsideWindow s w offset data.length) (write : ∀ l, w ≠ .dig l) :
    (s.writeWindow w offset data).accerr = s.accerr := by
  rw [State.writeWindow_of_inside idle h]
  cases w
  case dig l => exact absurd rfl (write l)
  case msg => rfl
  all_goals exact s.setLane_accerr _ _

/-- A forbidden access of an idle block is one of the three refusals (R199). -/
theorem State.hostAct_of_forbidden {s : State} {a : HostAction} (waits : Bool) (idle : s.seq = none)
    (h : forbiddenAccess s a) :
    s.hostAct waits a = .next s.refuseRegRead
      ∨ (∃ count, s.hostAct waits a = .next (s.refuseWindowRead count))
      ∨ s.hostAct waits a = .next s.refuseWrite := by
  cases a with
  | readReg n =>
    refine .inl (congrArg Host.Outcome.next ?_)
    rcases h with reserved | rfl
    · exact State.readReg_of_reserved ((reservedNumber_iff s n).mp reserved)
    · exact State.readReg_of_regAt idle (State.regAt_regNumber .cmd rfl)
  | writeReg n v =>
    refine .inr (.inr ?_)
    cases named : s.regAt n with
    | none => exact State.writeReg_of_reserved waits v named
    | some r =>
      have readOnly : ¬ writableNumber n := h.resolve_left fun reserved => by
        rw [reservedNumber_iff, named] at reserved
        cases reserved
      obtain ⟨rfl, -⟩ := State.regAt_eq_some_iff.mp named
      have ne : r ≠ .cmd := by
        rintro rfl
        exact readOnly (.inl rfl)
      rw [State.hostAct, State.writeReg_of_regAt waits v idle named ne,
        State.writeRegIdle_of_not_writable readOnly]
  | readWindow w offset count =>
    exact .inr (.inl ⟨count, congrArg _ (State.readWindow_of_outside h)⟩)
  | writeWindow w offset data =>
    refine .inr (.inr (congrArg Host.Outcome.next ?_))
    rcases h with outside | ⟨l, rfl⟩
    · exact State.writeWindow_of_outside outside
    · exact s.writeWindow_dig l offset data
  | resetInput image => cases h

/-- An allowed access of an idle block leaves ACCERR (R199). -/
theorem State.hostAct_of_allowed {s : State} {a : HostAction} (waits : Bool) (idle : s.seq = none)
    (h : ¬ forbiddenAccess s a) (notCmd : ∀ v, a ≠ .writeReg 0x00 v)
    (notReset : ∀ image, a ≠ .resetInput image) :
    ∃ t, s.hostAct waits a = .next t ∧ t.accerr = s.accerr := by
  cases a with
  | readReg n =>
    obtain ⟨present, ne⟩ := not_or.mp h
    rw [reservedNumber_iff] at present
    obtain ⟨r, named⟩ := Option.ne_none_iff_exists'.mp present
    refine ⟨_, congrArg _ (State.readReg_of_regAt idle named), State.readRegIdle_accerr ?_⟩
    rintro rfl
    exact ne (State.regAt_eq_some_iff.mp named).1
  | writeReg n v =>
    obtain ⟨present, writable⟩ := not_or.mp h
    rw [reservedNumber_iff] at present
    obtain ⟨r, named⟩ := Option.ne_none_iff_exists'.mp present
    obtain ⟨rfl, -⟩ := State.regAt_eq_some_iff.mp named
    refine ⟨_, State.writeReg_of_regAt waits v idle named ?_,
      State.writeRegIdle_of_writable (not_not.mp writable)⟩
    rintro rfl
    exact notCmd v rfl
  | readWindow w offset count => exact ⟨_, rfl, State.readWindow_accerr idle h⟩
  | writeWindow w offset data =>
    obtain ⟨inside, write⟩ := not_or.mp h
    exact ⟨_, rfl, State.writeWindow_accerr idle inside fun l e => write ⟨l, e⟩⟩
  | resetInput image => exact absurd rfl (notReset image)

/-- Settles O9: a step of the idle block takes the access, and each of the three refusals is the
state with ACCERR set, but for the answer and the count of free values. -/
theorem forbiddenAccessesSetAccerr : Obligations.ForbiddenAccessesSetAccerr := by
  intro s tm a rest idle hh
  rw [step_idle_cons idle hh]
  refine ⟨fun h => ?_, fun h notCmd notReset =>
    State.hostAct_of_allowed (s := { s with host := rest }) _ idle h notCmd notReset⟩
  rcases State.hostAct_of_forbidden (s := { s with host := rest }) (hostWaits rest) idle h
    with e | ⟨count, e⟩ | e
  · exact ⟨_, e, rfl⟩
  · exact ⟨_, e, rfl⟩
  · exact ⟨_, e, rfl⟩

/-! ### RESET and the reset input on STATUS (R180, R210) -/

/-- STATUS is zero where no flag of the block and no valid bit is set. -/
theorem State.statusWord_eq_zero {s : State} (idle : s.seq = none) (done : s.done = false)
    (cfgok : s.cfgok = false) (clear : s.faulted = false)
    (valid : ∀ l, (s.lane l).validBits = 0#4) : s.statusWord = 0#32 := by
  simp only [State.faulted, Bool.or_eq_false_iff] at clear
  obtain ⟨⟨⟨⟨cfgerr, cmderr⟩, seqerr⟩, exterr⟩, accerr⟩ := clear
  have valid0 : s.lane0.validBits = 0#4 := valid .l0
  have valid1 : s.lane1ValidBits = 0#4 := by
    rw [State.lane1ValidBits]
    split
    · rfl
    · exact valid .l1
  rw [State.statusWord, State.busy_eq_false idle, done, cfgok, cfgerr, cmderr, seqerr, exterr,
    accerr, valid0, valid1]
  rfl

theorem State.statusWord_resetRegisters (s : State) : s.resetRegisters.statusWord = 0#32 :=
  State.statusWord_eq_zero rfl rfl rfl rfl fun l => by
    rw [State.resetRegisters_lane]
    exact Lane.validBits_afterReset _ _ _

theorem State.statusWord_resetInput (s : State) (image : MemoryImage) :
    (s.resetInput image).statusWord = 0#32 :=
  State.statusWord_eq_zero rfl rfl rfl rfl fun l => by
    obtain ⟨hs, sp, lane⟩ := s.resetInput_lane image l
    rw [lane]
    exact Lane.validBits_afterReset (s.lane l) l s.freeCount

/-- Settles O29: RESET runs on every idle block, and its body touches no memory that the host sees. -/
theorem resetClearsRegistersAndKeepsMemories :
    Obligations.ResetClearsRegistersAndKeepsMemories := by
  intro s idle
  refine ⟨_, exec_reset idle, s.statusWord_resetRegisters, rfl, rfl, rfl, rfl, rfl, rfl,
    fun l => ?_, s.resetRegisters_msg, s.resetRegisters_build, s.resetRegisters_host,
    s.resetRegisters_reply, s.resetRegisters_extFails⟩
  rw [State.resetRegisters_lane]
  simp only [Lane.afterReset, and_self]

/-- Settles O14: a block takes the reset input at its moment, idle or busy. -/
theorem resetInputFromAnyState : Obligations.ResetInputFromAnyState := by
  intro s image rest hh
  have takes : step s = .next (State.resetInput { s with host := rest } image) := by
    cases hs : s.seq with
    | none => rw [step_idle_cons hs hh]; rfl
    | some q => rw [step_busy_act hs hh]; rfl
  have status := State.statusWord_resetInput { s with host := rest } image
  refine ⟨State.resetInput { s with host := rest } image, takes, status, ?_⟩
  simp only [State.resetInput, State.resetRegisters, and_self]

end Sys2Proof.Machine
end

section
/-! PROOF. R31, R50, R75, R193: the windows of an idle block and its register CMD. What a window write
stores a read inside the window answers; and a word written to CMD is decided by the tests of R75 in
their order. -/

namespace Sys2Proof.Machine

/-! ### Windows (O11, O58) -/

/-- A step in which the host reads inside a window of an idle block. -/
theorem step_readWindow {s : State} {tm : Timing} {w : Window} {offset count : Nat}
    {rest : List HostItem} (idle : s.seq = none)
    (hh : s.host = ⟨tm, .readWindow w offset count⟩ :: rest)
    (inside : ¬ outsideWindow s w offset count) (shown : ∀ l, w = .dig l → (s.lane l).dv = true) :
    step s = .next { s with
      host := rest, reply := .window ((s.windowMem w).readBytes offset count) } := by
  rw [step_idle_cons idle hh]
  refine congrArg Host.Outcome.next ?_
  rw [State.readWindow_of_inside (s := { s with host := rest }) idle inside]
  cases w
  case msg => rfl
  case hs l | sp l => cases l <;> rfl
  case dig l =>
    have valid : (State.lane { s with host := rest } l).dv = true := by
      cases l
      exacts [shown .l0 rfl, shown .l1 rfl]
    simp only [valid, if_true]
    cases l <;> rfl

theorem length_freeBytes_reply (draw count : Nat) :
    (freeBytes draw Slot.replyByte count).length = count := length_freeBytes draw _ count

/-- Settles O58: the bytes of the answer are those of the memory, in order. -/
theorem windowReadsReturnTheMemory : Obligations.WindowReadsReturnTheMemory := by
  intro s tm w offset count rest idle hh inside answers
  have reads (shown : ∀ l, w = .dig l → (s.lane l).dv = true) : answers (s.windowMem w) := by
    have answer := step_readWindow idle hh inside shown
    rwa [Memory.readBytes_eq_map] at answer
  refine ⟨?_, fun l => ⟨?_, ?_, ?_, ?_⟩⟩
  · rintro rfl
    exact reads nofun
  · rintro rfl
    exact reads nofun
  · rintro rfl
    exact reads nofun
  · rintro rfl valid
    exact reads fun l' e => by
      cases e
      exact valid
  · rintro rfl invalid
    refine ⟨_, length_freeBytes_reply s.freeCount count, ?_⟩
    rw [step_idle_cons idle hh]
    refine congrArg Host.Outcome.next ?_
    have clear : (State.lane { s with host := rest } l).dv = false := by
      cases l
      exacts [invalid, invalid]
    rw [State.readWindow_of_inside (s := { s with host := rest }) (w := .dig l) idle inside]
    simp only [clear]
    rfl

/-- A step in which the host writes inside a window of an idle block. -/
theorem step_writeWindow {s : State} {tm : Timing} {w : Window} {offset : Nat} {data : List Byte}
    {rest : List HostItem} (idle : s.seq = none)
    (hh : s.host = ⟨tm, .writeWindow w offset data⟩ :: rest)
    (inside : ¬ outsideWindow s w offset data.length) :
    (w = .msg → step s = .next { s with host := rest, msg := s.msg.writeBytes offset data })
    ∧ ∀ l, (w = .hs l → step s = .next (State.setLane { s with host := rest } l
          { s.lane l with hs := (s.lane l).hs.writeBytes offset data }))
        ∧ (w = .sp l → step s = .next (State.setLane { s with host := rest } l
          { s.lane l with sp := (s.lane l).sp.writeBytes offset data })) := by
  have writes := State.writeWindow_of_inside (s := { s with host := rest }) idle inside
  rw [step_idle_cons idle hh]
  refine ⟨?_, fun l => ⟨?_, ?_⟩⟩
  · rintro rfl
    exact congrArg _ writes
  · rintro rfl
    cases l <;> exact congrArg _ writes
  · rintro rfl
    cases l <;> exact congrArg _ writes

/-- Settles O11: the stored bytes are those of `writeBytes`, and the read that follows finds them. -/
theorem windowWriteIsReadBack : Obligations.WindowWriteIsReadBack := by
  constructor
  · intro s tm tm' w offset data rest idle write inside hh
    obtain ⟨msg, lanes⟩ := step_writeWindow idle hh inside
    have back (m : Memory) : (m.writeBytes offset data).readBytes offset data.length = data :=
      m.readBytes_writeBytes offset data
    cases w
    case dig l => exact absurd rfl (write l)
    case msg =>
      refine ⟨_, _, msg rfl, step_readWindow idle rfl inside nofun, ?_, rfl, rfl⟩
      exact congrArg Reply.window (back _)
    case hs l =>
      cases l
      · exact ⟨_, _, (lanes .l0).1 rfl, step_readWindow idle rfl inside nofun,
          congrArg Reply.window (back _), rfl, rfl⟩
      · exact ⟨_, _, (lanes .l1).1 rfl, step_readWindow idle rfl inside nofun,
          congrArg Reply.window (back _), rfl, rfl⟩
    case sp l =>
      cases l
      · exact ⟨_, _, (lanes .l0).2 rfl, step_readWindow idle rfl inside nofun,
          congrArg Reply.window (back _), rfl, rfl⟩
      · exact ⟨_, _, (lanes .l1).2 rfl, step_readWindow idle rfl inside nofun,
          congrArg Reply.window (back _), rfl, rfl⟩
  · intro s tm w offset data rest idle inside hh stored
    obtain ⟨msg, lanes⟩ := step_writeWindow idle hh inside
    have holds (m : Memory) : stored m (m.writeBytes offset data) :=
      m.read_writeBytes offset data
    exact ⟨fun h => ⟨_, msg h, holds _⟩, fun l =>
      ⟨fun h => ⟨_, (lanes l).1 h, holds _⟩, fun h => ⟨_, (lanes l).2 h, holds _⟩⟩⟩

/-! ### CMD (O5, O6, O59) -/

/-- A word that decodes, written to CMD (R32). -/
theorem State.writeCmd_of_decodes {s : State} {w : Dword} {i : Instr} (waits : Bool)
    (h : decodeWord w = .ok i) :
    s.writeCmd waits w = if waits then exec i s else s.beginCommand i := by
  rw [State.writeCmd, h]

/-- Settles O5: the step takes the write to CMD, and CMD decodes the word. -/
theorem stepRunsTheDecodedCommand : Obligations.StepRunsTheDecodedCommand := by
  refine ⟨fun s tm v rest i idle hh decodes => ?_, fun s w i decodes => ?_⟩
  · rw [step_writeCmd hh (.inl idle), State.writeCmd_of_decodes _ decodes]
    exact ⟨fun waits => by rw [waits]; rfl, fun waits => by rw [waits]; rfl⟩
  · have word : decodeWord (((BitVec.ofNat 32 (w % 2 ^ 32)).setWidth 64).setWidth 32) = .ok i := by
      rw [BitVec.setWidth_setWidth_of_le _ (by decide), BitVec.setWidth_eq]
      rw [decodeTableWord] at decodes
      split at decodes <;> simp_all
    have placed : (s.withFetchWord 32 w).host =
        ⟨.whenIdle, .writeReg 0x00 ((BitVec.ofNat 32 (w % 2 ^ 32)).setWidth 64)⟩ :: [] := rfl
    rw [step_writeCmd placed (.inl rfl), State.writeCmd_of_decodes _ word]
    rfl

/-- Every way an idle block can take a word written to CMD, as to its faults: it sets none but
EXTERR, or it raises one of the three for which the command does not run. -/
theorem State.writeCmd_faults {s t : State} {waits : Bool} {w : Dword} (idle : s.seq = none)
    (h : s.writeCmd waits w = .next t) :
    NoNewFault s t ∨ ∃ f, (f = .cfgerr ∨ f = .cmderr ∨ f = .seqerr) ∧ t = s.raise f := by
  have busy := State.busy_eq_false idle
  rcases s.writeCmd_cases waits w with ⟨i, -, e⟩ | ⟨-, e⟩ <;> rw [e] at h
  · by_cases commit : Ready s i ∧ s.commitFails i = true
    · have raises : exec i s = .next (s.raise .cfgerr) := by
        rw [← State.beginCommand_of_commitFails commit.1 commit.2,
          State.beginCommand_of_ready commit.1, if_pos commit.2]
      rw [State.beginCommand_of_commitFails commit.1 commit.2, ite_self, raises] at h
      cases h
      exact .inr ⟨_, .inl rfl, rfl⟩
    · have issued {run : State → State} (h : s.issue i run = .next t)
          (hrun : Ready s i ∨ i = .reset → s.commitFails i = false →
            NoNewFault s (run { s with done := false })) :
          NoNewFault s t ∨ ∃ f, (f = .cfgerr ∨ f = .cmderr ∨ f = .seqerr) ∧ t = s.raise f := by
        rcases State.issue_next_cases h with ⟨hb, -⟩ | ⟨-, -, -, rfl⟩ | ⟨-, -, f, hf, rfl⟩ |
          ⟨-, accepted, rfl⟩
        · rw [busy] at hb; cases hb
        · exact .inl ⟨id, id, id, id⟩
        · exact .inr ⟨f, .inr hf, rfl⟩
        · refine .inl (hrun ?_ ?_)
          · exact accepted.symm.imp_right And.right
          · rcases accepted with ⟨-, rfl⟩ | ready
            · rfl
            · exact (Bool.not_eq_true _).mp fun hc => commit ⟨ready, hc⟩
      cases waits with
      | true =>
        rw [if_pos rfl, exec_eq_issue] at h
        refine issued h fun accepted passes => ?_
        refine bodyOf_close_noNewFault (s := { s with done := false }) (fun ha => ?_) passes
        rcases accepted with ⟨-, -, -, -, -, consistent⟩ | rfl
        · exact consistent ha
        · cases ha
      | false =>
        refine issued (run := fun t =>
          if t.commitFails i then t.raise .cfgerr else t.startSequencer i) h fun _ passes => ?_
        have passes : State.commitFails { s with done := false } i = false := passes
        rw [if_neg (by simp [passes])]
        exact ⟨id, id, id, id⟩
  · rcases s.issueIllegal_cases with ⟨hb, -⟩ | ⟨-, -, e⟩ | ⟨-, -, e⟩
    · rw [busy] at hb; cases hb
    · rw [e] at h
      cases h
      exact .inl ⟨id, id, id, id⟩
    · rw [e] at h
      cases h
      exact .inr ⟨_, .inr (.inl rfl), rfl⟩

/-- Settles O59: where the block sets one of the three, it raises that one and does nothing else. -/
theorem commandFaultsArePrecise : Obligations.CommandFaultsArePrecise := by
  intro s t tm v rest idle hh h
  rw [step_writeCmd hh (.inl idle)] at h
  rcases State.writeCmd_faults (s := { s with host := rest }) idle h with
    ⟨cfgerr, cmderr, seqerr, -⟩ | ⟨f, hf, rfl⟩
  · exact ⟨fun clear set => absurd (cfgerr set) (by simp [clear]),
      fun clear set => absurd (cmderr set) (by simp [clear]),
      fun clear set => absurd (seqerr set) (by simp [clear])⟩
  · refine ⟨fun clear set => ?_, fun clear set => ?_, fun clear set => ?_⟩
    all_goals rcases hf with rfl | rfl | rfl <;> simp_all [State.raise, State.setFault]

/-! ### The order of R75 (O6) -/

/-- The word of RESET, and no other, decodes to it. -/
theorem decodeWord_eq_reset_iff (w : Dword) : decodeWord w = .ok .reset ↔ w = 0x0000001F#32 := by
  refine ⟨fun h => ?_, fun h => h ▸ encodeThenDecode .reset rfl⟩
  exact (decodeThenEncode w .reset h).2.symm

/-- In the faulted state every word but RESET's is ignored (R194). -/
theorem State.writeCmd_of_faulted {s : State} {w : Dword} (waits : Bool) (idle : s.seq = none)
    (faulted : s.faulted = true) (ne : w ≠ 0x0000001F#32) : s.writeCmd waits w = .next s := by
  rcases s.writeCmd_cases waits w with ⟨i, decodes, e⟩ | ⟨-, e⟩ <;> rw [e]
  · have notReset : i ≠ .reset := by
      rintro rfl
      exact ne ((decodeWord_eq_reset_iff w).mp decodes)
    rw [exec_eq_issue, State.beginCommand, State.issue_of_faulted _ idle faulted,
      State.issue_of_faulted _ idle faulted, if_neg notReset, if_neg notReset, ite_self]
  · rw [State.issueIllegal, State.busy_eq_false idle, faulted]
    rfl

/-- RESET is accepted by every idle block, and its sequencer started where the host does not wait. -/
theorem State.beginCommand_reset {s : State} (idle : s.seq = none) :
    s.beginCommand .reset = .next (State.startSequencer { s with done := false } .reset) := by
  cases faulted : s.faulted with
  | true => rw [State.beginCommand, State.issue_of_faulted _ idle faulted, if_pos rfl]; rfl
  | false => rw [State.beginCommand_of_ready (State.ready_reset idle faulted)]; rfl

/-- A part that ends a command sets DONE exactly if no fault is set (R75). -/
theorem PartEnds.done_close_iff {sel : LaneSel} {s : State} {e : Ending} (h : PartEnds sel s e)
    (done : s.done = false) (clear : s.faulted = false) :
    e.close.done = true ↔ e.close.faulted = false := by
  cases e with
  | completed t =>
    have runs : PartRuns sel s t := h
    have kept : (Ending.completed t).close.faulted = s.faulted := by
      simp only [Ending.close, State.faulted, runs.cfgerr, runs.kept.cmderr, runs.kept.seqerr,
        runs.exterr, runs.kept.accerr]
    exact iff_of_true rfl (kept.trans clear)
  | stopped t =>
    have fails : PartFails sel s t := h
    have faulted : (Ending.stopped t).close.faulted = true := by
      simp only [Ending.close, State.faulted, fails.exterr, Bool.or_true, Bool.true_or]
    refine iff_of_false (fun hd => ?_) (by simp [faulted])
    have set : t.done = true := hd
    rw [fails.done, done] at set
    cases set

/-- So does every command but RESET. -/
theorem bodyOf_done_close_iff {s : State} {i : Instr} (ne : i ≠ .reset) (done : s.done = false)
    (clear : s.faulted = false)
    (consistent : addressesScratchpad i = true → s.cfgConsistent = true) :
    (bodyOf i s).close.done = true ↔ (bodyOf i s).close.faulted = false := by
  cases hi : i.lanes with
  | some sel => exact (PartEnds.bodyOf hi consistent).done_close_iff done clear
  | none =>
    cases i
    case nop => exact iff_of_true rfl clear
    case cfgcommit =>
      rw [bodyOf]
      cases check : s.cfgConsistent with
      | true =>
        rw [cfgcommitBody, if_pos check]
        exact iff_of_true rfl clear
      | false =>
        rw [cfgcommitBody_of_fails check]
        exact iff_of_false nofun nofun
    case reset => exact absurd rfl ne
    all_goals cases hi

/-- Where no need of a legal command fails and its message fits, it is ready. -/
theorem ready_of_needs {s : State} {i : Instr} (idle : s.seq = none) (clear : s.faulted = false)
    (legal : s.legal i = true) (needed : ¬ seqNeedFails s i)
    (fits : readsMessage i = true → s.msgLen.toNat ≤ s.build.msgmax)
    (consistent : addressesScratchpad i = true → s.cfgConsistent = true) : Ready s i := by
  rw [seqNeedFails_iff, Bool.not_eq_false] at needed
  exact ⟨idle, clear, legal, needed, (messageFits_iff s i).mpr fits, consistent⟩

/-- A message that is too long is found where no need fails (R75). -/
theorem State.issue_of_long_message {s : State} {i : Instr} (run : State → State)
    (idle : s.seq = none) (clear : s.faulted = false) (legal : s.legal i = true)
    (needed : ¬ seqNeedFails s i) (reads : readsMessage i = true)
    (long : s.build.msgmax < s.msgLen.toNat) : s.issue i run = .next (s.raise .cmderr) := by
  rw [seqNeedFails_iff, Bool.not_eq_false] at needed
  have unfit : s.messageFits i = false := (Bool.not_eq_true _).mp fun fits =>
    absurd ((messageFits_iff s i).mp fits reads) (Nat.not_le.mpr long)
  rw [State.issue, State.verdict_of_idle i idle clear, if_neg (by simp [legal]),
    if_neg (by simp [needed]), if_pos unfit]

theorem seqNeedFails_withHost (s : State) (i : Instr) (host : List HostItem) :
    seqNeedFails { s with host := host } i ↔ seqNeedFails s i := by
  rw [seqNeedFails_iff, seqNeedFails_iff]
  rfl

/-- Settles O6: the tests are those of issuing a command, one after another. -/
theorem writesToCmdAreDecidedInOrder : Obligations.WritesToCmdAreDecidedInOrder := by
  intro s tm v rest hh w r
  have writes (h : s.seq = none ∨ tm = .afterUnits 0) : step s = r.writeCmd (hostWaits rest) w :=
    step_writeCmd hh h
  refine ⟨fun running now => ?_, fun idle faulted => ?_, fun idle clear => ?_⟩
  · obtain ⟨q, hq⟩ := Option.ne_none_iff_exists'.mp running
    rw [writes (.inr now), State.writeCmd_of_busy _ _ (State.busy_eq_true (s := r) hq)]
    rfl
  · rw [writes (.inl idle)]
    have decodes (e : w = 0x0000001F#32) := State.writeCmd_of_decodes (s := r) (hostWaits rest)
      ((decodeWord_eq_reset_iff w).mpr e)
    refine ⟨State.writeCmd_of_faulted (s := r) _ idle faulted, fun e waits => ?_, fun e waits => ?_⟩
    · rw [decodes e, if_pos waits, exec_reset (s := r) idle]
    · rw [decodes e, if_neg (by simp [waits]), State.beginCommand_reset (s := r) idle]
      exact ⟨_, rfl, rfl⟩
  · rw [writes (.inl idle)]
    refine ⟨State.writeCmd_of_illegal (s := r) _ idle clear, fun i decodes legal => ?_⟩
    have needs : seqNeedFails r i ↔ seqNeedFails s i := seqNeedFails_withHost s i rest
    rw [State.writeCmd_of_decodes _ decodes, exec_eq_issue, State.beginCommand, ← needs]
    refine ⟨fun unmet => ?_, fun needed reads long => ?_, fun needed fits consistent => ?_⟩
    · have unmet := (seqNeedFails_iff r i).mp unmet
      rw [State.issue_of_needs_fail (s := r) _ idle clear legal unmet,
        State.issue_of_needs_fail (s := r) _ idle clear legal unmet, ite_self]
      rfl
    · rw [State.issue_of_long_message (s := r) _ idle clear legal needed reads long,
        State.issue_of_long_message (s := r) _ idle clear legal needed reads long, ite_self]
      rfl
    · have ready : Ready r i := ready_of_needs idle clear legal needed fits consistent
      refine ⟨fun waits => ?_, fun waits => ?_⟩
      · rw [if_pos waits, State.issue_of_ready _ ready]
        exact ⟨_, rfl, rfl, Ending.close_seq _, fun ne =>
          bodyOf_done_close_iff (s := { r with done := false }) ne rfl clear consistent⟩
      · rw [if_neg (by simp [waits]), ← State.beginCommand, State.beginCommand_of_ready ready]
        have check : r.commitFails i = true ↔ i = .cfgcommit ∧ s.cfgConsistent = false := by
          rw [State.commitFails, Bool.and_eq_true, beq_iff_eq, Bool.not_eq_true']
          exact Iff.rfl
        refine ⟨fun passes => ?_, fun fails => ?_⟩
        · rw [if_neg (mt check.mp passes)]
          exact ⟨_, rfl, rfl⟩
        · rw [if_pos (check.mpr fails)]
          rfl

end Sys2Proof.Machine
end

section
/-! PROOF. R30, R63, R199: a command run unit by unit, and the host's refused accesses amid it. The units
of a part reach the end of the part's body, and the parts one after another reach the end of the
command's; what the host does meanwhile changes what the port shows, which no unit reads. -/

namespace Sys2Proof.Machine

/-! ### Runs of units -/

/-- Some number of units leads from one state to the other, nothing in between. -/
def Reaches (s t : State) : Prop := ∃ n, runUnits n s = .next t

theorem runUnits_succ_of_unit {s t : State} (n : Nat) (h : s.unit = .next t) :
    runUnits (n + 1) s = runUnits n t := by
  rw [runUnits, h]

theorem runUnits_add {s t : State} {m : Nat} (n : Nat) (h : runUnits m s = .next t) :
    runUnits (m + n) s = runUnits n t := by
  induction m generalizing s with
  | zero =>
    cases h
    rw [Nat.zero_add]
  | succ m ih =>
    rw [runUnits] at h
    split at h
    · next u hu =>
      rw [show m + 1 + n = (m + n) + 1 by omega, runUnits_succ_of_unit _ hu, ih h]
    · cases h
    · cases h

theorem Reaches.refl (s : State) : Reaches s s := ⟨0, rfl⟩

theorem Reaches.unit {s t : State} (h : s.unit = .next t) : Reaches s t :=
  ⟨1, runUnits_succ_of_unit 0 h⟩

theorem Reaches.trans {s t u : State} (h : Reaches s t) (h' : Reaches t u) : Reaches s u := by
  obtain ⟨m, hm⟩ := h
  obtain ⟨n, hn⟩ := h'
  exact ⟨m + n, (runUnits_add n hm).trans hn⟩

theorem Reaches.loop {n : Nat} {states : Nat → State}
    (h : ∀ c, c < n → (states c).unit = .next (states (c + 1))) : Reaches (states 0) (states n) := by
  induction n with
  | zero => exact .refl _
  | succ n ih =>
    exact (ih fun c hc => h c (Nat.lt_succ_of_lt hc)).trans (.unit (h n n.lt_succ_self))

/-- A unit of an idle block does nothing. -/
theorem State.unit_of_idle {s : State} (h : s.seq = none) : s.unit = .next s := by
  rw [State.unit, h]

theorem runUnits_of_idle {s : State} (n : Nat) (h : s.seq = none) : runUnits n s = .next s := by
  induction n with
  | zero => rfl
  | succ n ih => rw [runUnits_succ_of_unit n (State.unit_of_idle h), ih]

/-- Every state on the way to an idle one reaches it. -/
theorem Reaches.of_runUnits {s t w : State} {m : Nat} (h : Reaches s t) (idle : t.seq = none)
    (hw : runUnits m s = .next w) : Reaches w t := by
  obtain ⟨n, hn⟩ := h
  rcases Nat.le_total m n with le | le
  · obtain ⟨k, rfl⟩ := Nat.exists_eq_add_of_le le
    exact ⟨k, (runUnits_add k hw).symm.trans hn⟩
  · obtain ⟨k, rfl⟩ := Nat.exists_eq_add_of_le le
    rw [runUnits_add k hn, runUnits_of_idle k idle] at hw
    cases hw
    exact .refl t

/-! ### No body reads the sequencer -/

/-- The same state but for the sequencer. -/
def OtherSeq (s t : State) : Prop := ∃ q, t = { s with seq := q }

theorem OtherSeq.unread (sel : LaneSel) : Unread OtherSeq sel where
  onLanes := fun ⟨q, e⟩ f => ⟨q, by rw [e]; rfl⟩
  setLane := by
    rintro s _ l ⟨q, rfl⟩ - ln
    cases l <;> exact ⟨q, rfl⟩
  extCall := by
    rintro s _ ⟨q, rfl⟩
    rw [State.extCall, State.extCall]
    dsimp only
    split <;> exact ⟨rfl, q, rfl⟩
  extFailure := by
    rintro s _ ⟨q, rfl⟩
    exact ⟨q, by cases sel <;> trivial⟩
  lane := by
    rintro s _ l ⟨q, rfl⟩ -
    cases l <;> rfl
  message := by
    rintro s _ ⟨q, rfl⟩
    rfl
  work := by
    rintro s _ ⟨q, rfl⟩
    funext i
    cases i <;> rfl

theorem OtherSeq.close {e e' : Ending} (h : e.Rel OtherSeq e') : e'.close = e.close := by
  cases h with
  | completed h => obtain ⟨q, rfl⟩ := h; rfl
  | stopped h => obtain ⟨q, rfl⟩ := h; rfl

/-! ### The body of a part -/

/-- What the units of a part do together. -/
def partBody (i : Instr) : Phase → State → Ending
  | .single, s => singleBody i s
  | .absorb, s => absorbPart i (sequencerLanes i) s
  | .explode, s => explodeBody (sequencerLanes i) s
  | .mix, s => mixBody (sequencerLanes i) s
  | .implode, s => implodeBody (sequencerLanes i) s
  | .final, s => finalBody (sequencerLanes i) s

/-- The parts of a command one after another. -/
def partsBody (i : Instr) : List Phase → State → Ending
  | [], s => .completed s
  | p :: ps, s => (partBody i p s).andThen (partsBody i ps)

theorem Ending.andThen_assoc (e : Ending) (f g : State → Ending) :
    (e.andThen f).andThen g = e.andThen fun s => (f s).andThen g := by
  cases e <;> rfl

theorem Ending.andThen_completed (e : Ending) : e.andThen .completed = e := by
  cases e <;> rfl

theorem partsBody_eq_bodyOf (i : Instr) (s : State) : partsBody i (phasesOf i) s = bodyOf i s := by
  have single {p : Phase} (h : phasesOf i = [p]) :
      partsBody i (phasesOf i) s = partBody i p s := by
    rw [h]
    exact Ending.andThen_completed _
  cases i
  case hash sel =>
    simp only [bodyOf, hashBody, Ending.andThen_assoc]
    exact congrArg (Ending.andThen _) (funext fun _ => congrArg (Ending.andThen _) (funext fun _ =>
      congrArg (Ending.andThen _) (funext fun _ => congrArg (Ending.andThen _) (funext fun _ =>
        Ending.andThen_completed _))))
  all_goals exact single rfl

/-! ### The units of a loop -/

/-- A lane after so many turns of a loop that its start comes before; before the first turn, as it
was. -/
def loopLane (start : Lane → Lane) (turn : Nat → Lane → Lane) : Nat → Lane → Lane
  | 0, ln => ln
  | c + 1, ln => turn c (if c = 0 then start ln else loopLane start turn c ln)

theorem loopLane_succ (start : Lane → Lane) (turn : Nat → Lane → Lane) (c : Nat) (ln : Lane) :
    loopLane start turn (c + 1) ln = loopUp (c + 1) turn (start ln) := by
  induction c with
  | zero => rfl
  | succ c ih => rw [loopLane, if_neg c.succ_ne_zero, ih, loopUp_succ (c + 1)]

/-- The state after so many turns of a loop on these lanes, the sequencer with it. -/
def State.turned (s : State) (sel : LaneSel) (lane : Nat → Lane → Lane) (q : Nat → Sequencer)
    (c : Nat) : State :=
  { s.onLanes sel (lane c) with seq := some (q c) }

/-- A loop takes one unit for each turn, and the last one ends the part. -/
theorem Reaches.turns {s t : State} {sel : LaneSel} {lane : Nat → Lane → Lane} {q : Nat → Sequencer}
    {n : Nat} (start : s.turned sel lane q 0 = s) (consistent : s.cfgConsistent = true)
    (turn : ∀ c, c < n → runUnit (q c) (s.turned sel lane q c) = s.turned sel lane q (c + 1))
    (last : runUnit (q n) (s.turned sel lane q n) = t) : Reaches s t := by
  have unit (c : Nat) :
      (s.turned sel lane q c).unit = .next (runUnit (q c) (s.turned sel lane q c)) :=
    State.unit_of_seq rfl fun _ => consistent
  have loop := Reaches.loop (states := s.turned sel lane q) fun c hc => turn c hc ▸ unit c
  rw [start] at loop
  exact loop.trans (.unit (last ▸ unit n))

/-- What ends a part forgets the counters and the sequencer of the state. -/
theorem endPart_completed_withSeq (q q' : Sequencer) (s : State) (o : Option Sequencer)
    (h : q'.instr = q.instr ∧ q'.phase = q.phase) :
    endPart q' (.completed { s with seq := o }) = endPart q (.completed s) := by
  rw [endPart_completed, endPart_completed, h.1, h.2]

theorem State.turned_zero {s : State} (sel : LaneSel) (start : Lane → Lane)
    (turn : Nat → Lane → Lane) {q : Nat → Sequencer} (h : s.seq = some (q 0)) :
    s.turned sel (loopLane start turn) q 0 = s := by
  have lanes : s.onLanes sel (loopLane start turn 0) = s := s.onLanes_id sel
  rw [State.turned, lanes, ← h]

theorem State.turned_onLanes (s : State) (sel : LaneSel) (start : Lane → Lane)
    (turn : Nat → Lane → Lane) (q : Nat → Sequencer) (c : Nat) :
    (s.turned sel (loopLane start turn) q c).onLanes sel
      (fun ln => turn c (if c = 0 then start ln else ln)) =
    { s.onLanes sel (loopLane start turn (c + 1)) with seq := some (q c) } := by
  have lane : (fun ln => turn c (if c = 0 then start (loopLane start turn c ln)
      else loopLane start turn c ln)) = loopLane start turn (c + 1) := by
    funext ln
    cases c <;> rfl
  exact congrArg (fun t : State => { t with seq := some (q c) })
    ((s.onLanes_onLanes sel (loopLane start turn c) fun ln =>
      turn c (if c = 0 then start ln else ln)).trans (congrArg (s.onLanes sel) lane))

/-- The counter of a loop: a word that does not wrap. -/
theorem toNat_counter {c : Nat} (h : c < 2 ^ 64) : (BitVec.ofNat 64 c).toNat = c := by
  rw [BitVec.toNat_ofNat, Nat.mod_eq_of_lt h]

theorem counter_eq_zero_iff {c : Nat} (h : c < 2 ^ 64) : BitVec.ofNat 64 c = 0#64 ↔ c = 0 := by
  rw [← BitVec.toNat_inj, toNat_counter h, BitVec.toNat_ofNat, Nat.zero_mod]

theorem counter_succ (c : Nat) : BitVec.ofNat 64 c + 1#64 = BitVec.ofNat 64 (c + 1) :=
  (BitVec.ofNat_add c 1).symm

theorem State.chunks_lt (s : State) : s.chunks < 2 ^ 64 :=
  (Nat.div_le_self _ _).trans_lt s.cfgMem.isLt

/-- A part that counts chunks, before its chunk `c`. -/
def chunkSeq (i : Instr) (p : Phase) (c : Nat) : Sequencer := ⟨i, p, BitVec.ofNat 64 c, 0#64⟩

/-- One unit of a loop over the chunks, with its start before chunk 0 and what ends it after the
last. -/
def chunkUnit (start : Lane → Lane) (turn : Nat → Lane → Lane) (last : Lane → Lane) (q : Sequencer)
    (sel : LaneSel) (s : State) : State :=
  let t := s.onLanes sel fun ln => turn q.chunk.toNat (if q.chunk = 0#64 then start ln else ln)
  if q.chunk.toNat + 1 < s.chunks then { t with seq := some { q with chunk := q.chunk + 1#64 } }
  else endPart q (.completed (t.onLanes sel last))

theorem explodeUnit_eq_chunkUnit (q : Sequencer) (sel : LaneSel) (s : State) :
    explodeUnit q sel s = chunkUnit (explodeStart s.hwPath)
      (explodeChunk s.build.roundSeq s.hwPath) (fun ln => ln) q sel s := by
  rw [explodeUnit, chunkUnit, State.onLanes_id]

theorem implodeUnit_eq_chunkUnit (q : Sequencer) (sel : LaneSel) (s : State) :
    implodeUnit q sel s = chunkUnit (implodeStart s.hwPath)
      (implodeChunk s.build.roundSeq s.hwPath) stxLane q sel s := rfl

section
variable (s : State) (i : Instr) (p : Phase) (sel : LaneSel) (start : Lane → Lane)
  (turn : Nat → Lane → Lane) (last : Lane → Lane)

/-- One such unit, after `c` of them. -/
theorem chunkUnit_turned {c : Nat} (h : c < 2 ^ 64) :
    chunkUnit start turn last (chunkSeq i p c) sel
        (s.turned sel (loopLane start turn) (chunkSeq i p) c) =
      if c + 1 < s.chunks then s.turned sel (loopLane start turn) (chunkSeq i p) (c + 1)
      else endPart ⟨i, p, 0#64, 0#64⟩
        (.completed ((s.onLanes sel (loopLane start turn (c + 1))).onLanes sel last)) := by
  have number : (chunkSeq i p c).chunk.toNat = c := toNat_counter h
  have zero : (chunkSeq i p c).chunk = 0#64 ↔ c = 0 := counter_eq_zero_iff h
  have next : { chunkSeq i p c with chunk := (chunkSeq i p c).chunk + 1#64 } =
      chunkSeq i p (c + 1) := by
    simp only [chunkSeq, counter_succ]
  simp only [chunkUnit, number, zero, next, State.turned_onLanes]
  exact congrArg (ite (c + 1 < s.chunks) _)
    (endPart_completed_withSeq ⟨i, p, 0#64, 0#64⟩ (chunkSeq i p c)
      ((s.onLanes sel (loopLane start turn (c + 1))).onLanes sel last) (some (chunkSeq i p c))
      ⟨rfl, rfl⟩)

/-- A part whose units are these: one for each chunk. -/
theorem reaches_chunks (hs : s.seq = some ⟨i, p, 0#64, 0#64⟩) (consistent : s.cfgConsistent = true)
    (units : ∀ c, runUnit (chunkSeq i p c) (s.turned sel (loopLane start turn) (chunkSeq i p) c) =
      chunkUnit start turn last (chunkSeq i p c) sel
        (s.turned sel (loopLane start turn) (chunkSeq i p) c)) :
    Reaches s (endPart ⟨i, p, 0#64, 0#64⟩
      (.completed (s.onLanes sel fun ln => last (loopUp s.chunks turn (start ln))))) := by
  obtain ⟨n, hn⟩ := Nat.exists_eq_add_of_le' (State.chunks_of_cfgConsistent consistent).2
  have small := s.chunks_lt
  refine Reaches.turns (n := n) (sel := sel) (lane := loopLane start turn) (q := chunkSeq i p)
    (State.turned_zero sel start turn hs) consistent (fun c hc => ?_) ?_
  · rw [units, chunkUnit_turned s i p sel start turn last (by omega), if_pos (by omega)]
  · rw [units, chunkUnit_turned s i p sel start turn last (by omega), if_neg (by omega),
      State.onLanes_onLanes, hn]
    simp only [loopLane_succ]

end

/-- EXPLODE's part (R135). -/
theorem reaches_explode {s : State} {i : Instr} (hs : s.seq = some ⟨i, .explode, 0#64, 0#64⟩)
    (consistent : s.cfgConsistent = true) :
    Reaches s (endPart ⟨i, .explode, 0#64, 0#64⟩ (explodeBody (sequencerLanes i) s)) :=
  reaches_chunks s i .explode _ (explodeStart s.hwPath) (explodeChunk s.build.roundSeq s.hwPath)
    (fun ln => ln) hs consistent fun _ => explodeUnit_eq_chunkUnit _ _ _

/-- IMPLODE's part (R143). -/
theorem reaches_implode {s : State} {i : Instr} (hs : s.seq = some ⟨i, .implode, 0#64, 0#64⟩)
    (consistent : s.cfgConsistent = true) :
    Reaches s (endPart ⟨i, .implode, 0#64, 0#64⟩ (implodeBody (sequencerLanes i) s)) :=
  reaches_chunks s i .implode _ (implodeStart s.hwPath) (implodeChunk s.build.roundSeq s.hwPath)
    stxLane hs consistent fun _ => implodeUnit_eq_chunkUnit _ _ _

/-- MIX's part before its iteration `n`. -/
def iterSeq (i : Instr) (n : Nat) : Sequencer := ⟨i, .mix, 0#64, BitVec.ofNat 64 n⟩

/-- One iteration of MIX, after `n` of them (R157). -/
theorem mixUnit_turned (s : State) (i : Instr) (sel : LaneSel) {n : Nat} (h : n < s.iterations) :
    mixUnit (iterSeq i n) sel (s.turned sel
        (loopLane mixinitLane fun _ => mixstepLane s.hwPath s.cfgMask) (iterSeq i) n) =
      if n + 1 < s.iterations then s.turned sel
        (loopLane mixinitLane fun _ => mixstepLane s.hwPath s.cfgMask) (iterSeq i) (n + 1)
      else endPart ⟨i, .mix, 0#64, 0#64⟩ (.completed (s.onLanes sel
        (loopLane mixinitLane (fun _ => mixstepLane s.hwPath s.cfgMask) (n + 1)))) := by
  have small : n < 2 ^ 64 := h.trans s.cfgIter.isLt
  have number : (iterSeq i n).iter.toNat = n := toNat_counter small
  have zero : (iterSeq i n).iter = 0#64 ↔ n = 0 := counter_eq_zero_iff small
  have next : { iterSeq i n with iter := (iterSeq i n).iter + 1#64 } = iterSeq i (n + 1) := by
    simp only [iterSeq, counter_succ]
  have turn (t : State) : (if n = 0 then t.onLanes sel mixinitLane else t).onLanes sel
      (mixstepLane s.hwPath s.cfgMask) = t.onLanes sel fun ln =>
        mixstepLane s.hwPath s.cfgMask (if n = 0 then mixinitLane ln else ln) := by
    split
    · exact t.onLanes_onLanes sel _ _
    · rfl
  have here : (s.turned sel (loopLane mixinitLane fun _ => mixstepLane s.hwPath s.cfgMask)
    (iterSeq i) n).iterations = s.iterations := rfl
  have turned := (turn _).trans (s.turned_onLanes sel mixinitLane
    (fun _ => mixstepLane s.hwPath s.cfgMask) (iterSeq i) n)
  rw [mixUnit]
  simp only [number, zero, next, here]
  rw [if_pos h]
  refine congrArg₂ (ite (n + 1 < s.iterations)) ?_ ?_
  · exact congrArg (fun t : State => { t with seq := some (iterSeq i (n + 1)) }) turned
  · refine (congrArg (fun t => endPart (iterSeq i n) (.completed t)) turned).trans ?_
    exact endPart_completed_withSeq ⟨i, .mix, 0#64, 0#64⟩ (iterSeq i n) _ _ ⟨rfl, rfl⟩

/-- MIX's part: MIXINIT alone where there is no iteration (R157). -/
theorem reaches_mix {s : State} {i : Instr} (hs : s.seq = some ⟨i, .mix, 0#64, 0#64⟩)
    (consistent : s.cfgConsistent = true) :
    Reaches s (endPart ⟨i, .mix, 0#64, 0#64⟩ (mixBody (sequencerLanes i) s)) := by
  cases hn : s.iterations with
  | zero =>
    refine .unit ((State.unit_of_seq hs fun _ => consistent).trans (congrArg _ ?_))
    rw [runUnit, mixUnit, mixBody, hn]
    rfl
  | succ n =>
    have lanes : loopLane mixinitLane (fun _ => mixstepLane s.hwPath s.cfgMask) (n + 1) =
        mixLane s.hwPath s.cfgMask s.iterations := by
      funext ln
      rw [loopLane_succ, mixLane, hn]
    refine Reaches.turns (n := n) (sel := sequencerLanes i)
      (lane := loopLane mixinitLane fun _ => mixstepLane s.hwPath s.cfgMask) (q := iterSeq i)
      (State.turned_zero _ mixinitLane _ hs) consistent (fun c hc => ?_) ?_
    · exact (mixUnit_turned s i _ (by omega)).trans (if_pos (by omega))
    · refine (mixUnit_turned s i _ (by omega)).trans ((if_neg (by omega)).trans ?_)
      rw [lanes, mixBody]

/-! ### The parts of a command one after another -/

/-- Each part runs to the end of its body. -/
theorem reaches_part {s : State} {i : Instr} {p : Phase} (hp : p ∈ phasesOf i)
    (hs : s.seq = some ⟨i, p, 0#64, 0#64⟩)
    (consistent : addressesScratchpad i = true → s.cfgConsistent = true) :
    Reaches s (endPart ⟨i, p, 0#64, 0#64⟩ (partBody i p s)) := by
  have loop (h : p = .explode ∨ p = .mix ∨ p = .implode) : s.cfgConsistent = true :=
    consistent (addressesScratchpad_of_loop hp h)
  have unit := State.unit_of_seq hs consistent
  cases p
  case explode => exact reaches_explode hs (loop (.inl rfl))
  case mix => exact reaches_mix hs (loop (.inr (.inl rfl)))
  case implode => exact reaches_implode hs (loop (.inr (.inr rfl)))
  all_goals exact .unit unit

/-- A part that another follows keeps the tuple. -/
theorem partBody_cfgConsistent {s t : State} {i : Instr} {p : Phase} (hp : p ∈ phasesOf i)
    (ne : p ≠ .single) (consistent : addressesScratchpad i = true → s.cfgConsistent = true)
    (h : partBody i p s = .completed t) : t.cfgConsistent = s.cfgConsistent := by
  have loop (h : p = .explode ∨ p = .mix ∨ p = .implode) : s.cfgConsistent = true :=
    consistent (addressesScratchpad_of_loop hp h)
  have ends : PartEnds (sequencerLanes i) s (partBody i p s) := by
    cases p
    case single => exact absurd rfl ne
    case absorb => exact PartEnds.absorbPart _ _ s
    case explode => exact PartEnds.explodeBody _ (loop (.inl rfl))
    case mix => exact PartEnds.mixBody _ (loop (.inr (.inl rfl)))
    case implode => exact PartEnds.implodeBody _ s
    case final => exact PartEnds.finalBody _ s
  rw [h] at ends
  exact PartRuns.kept ends |>.cfgConsistent

theorem phaseAfter_append {p : Phase} {before after : List Phase} (h : p ∉ before) :
    phaseAfter p (before ++ p :: after) = after.head? := by
  induction before with
  | nil => exact if_pos rfl
  | cons r rs ih =>
    obtain ⟨ne, h⟩ := not_or.mp (mt List.mem_cons.mpr h)
    rw [List.cons_append, phaseAfter, if_neg (Ne.symm ne), ih h]

theorem nodup_phasesOf (i : Instr) : (phasesOf i).Nodup := by
  cases i <;> simp [phasesOf]

/-- The parts of a command with lanes read nothing of the sequencer. -/
theorem OtherSeq.partBody {s t : State} {i : Instr} {p : Phase} (ne : p ≠ .single)
    (h : OtherSeq s t) : (partBody i p s).Rel OtherSeq (partBody i p t) := by
  have unread := OtherSeq.unread (sequencerLanes i)
  cases p
  case single => exact absurd rfl ne
  case absorb =>
    cases i
    case hash => exact unread.absorbBody (unread.onLanes h _)
    all_goals exact unread.absorbBody h
  case explode => exact unread.laneWork (i := .explode (sequencerLanes i)) rfl rfl h
  case mix => exact unread.laneWork (i := .mix (sequencerLanes i)) rfl rfl h
  case implode => exact unread.laneWork (i := .implode (sequencerLanes i)) rfl rfl h
  case final => exact unread.finalBody h

theorem OtherSeq.partsBody {s t : State} {i : Instr} {ps : List Phase} (ne : .single ∉ ps)
    (h : OtherSeq s t) : (partsBody i ps s).Rel OtherSeq (partsBody i ps t) := by
  induction ps generalizing s t with
  | nil => exact .completed h
  | cons p ps ih =>
    obtain ⟨hp, hps⟩ := not_or.mp (mt List.mem_cons.mpr ne)
    exact (OtherSeq.partBody (Ne.symm hp) h).andThen fun _ _ => ih hps

/-- From the start of a part the sequencer reaches the end of the command. -/
theorem reaches_parts {i : Instr} {before after : List Phase} {p : Phase}
    (parts : phasesOf i = before ++ p :: after) {s : State}
    (hs : s.seq = some ⟨i, p, 0#64, 0#64⟩)
    (consistent : addressesScratchpad i = true → s.cfgConsistent = true) :
    Reaches s (partsBody i (p :: after) s).close := by
  have hp : p ∈ phasesOf i := by simp [parts]
  have next : phaseAfter p (phasesOf i) = after.head? := by
    have nodup := nodup_phasesOf i
    rw [parts] at nodup ⊢
    obtain ⟨-, -, apart⟩ := List.nodup_append.mp nodup
    exact phaseAfter_append fun h => apart p h p List.mem_cons_self rfl
  have run := reaches_part hp hs consistent
  rw [partsBody]
  cases ends : partBody i p s with
  | stopped t =>
    rw [ends] at run
    exact run
  | completed t =>
    rw [ends, endPart_completed, next] at run
    match after with
    | [] => exact run
    | p' :: after =>
      have several : .single ∉ phasesOf i := fun h => by
        have := congrArg List.length ((phasesOf_of_single h).symm.trans parts)
        simp at this
        omega
      have kept := partBody_cfgConsistent hp (fun e => several (e ▸ hp)) consistent ends
      have parts' : phasesOf i = (before ++ [p]) ++ p' :: after := by simp [parts]
      have rest := reaches_parts parts' (s := { t with seq := some ⟨i, p', 0#64, 0#64⟩ }) rfl
        fun ha => kept.trans (consistent ha)
      have same := (OtherSeq.partsBody (i := i) (ps := p' :: after)
        (fun h => several (by rw [parts']; exact List.mem_append_right _ h))
        ⟨some ⟨i, p', 0#64, 0#64⟩, rfl⟩ : (partsBody i (p' :: after) t).Rel OtherSeq _)
      exact run.trans (OtherSeq.close same ▸ rest)
termination_by after.length

/-- A command's sequencer, started, reaches the end of its body. -/
theorem reaches_bodyOf {s : State} {i : Instr}
    (consistent : addressesScratchpad i = true → s.cfgConsistent = true) :
    Reaches (s.startSequencer i) (bodyOf i (s.startSequencer i)).close := by
  obtain ⟨p, ps, parts⟩ : ∃ p ps, phasesOf i = p :: ps := by
    cases i <;> exact ⟨_, _, rfl⟩
  have start : (s.startSequencer i).seq = some ⟨i, p, 0#64, 0#64⟩ := by
    rw [State.startSequencer, parts]
    rfl
  rw [← partsBody_eq_bodyOf, parts]
  exact reaches_parts (before := []) parts start consistent

/-- The body of a command does the same with the sequencer started. -/
theorem bodyOf_close_startSequencer (s : State) (i : Instr) :
    (bodyOf i (s.startSequencer i)).close = (bodyOf i s).close := by
  cases hi : i.lanes with
  | some sel => exact OtherSeq.close ((OtherSeq.unread sel).bodyOf hi ⟨_, rfl⟩)
  | none =>
    cases i
    case nop => rfl
    case cfgcommit =>
      rw [bodyOf, bodyOf, cfgcommitBody, cfgcommitBody,
        show (s.startSequencer .cfgcommit).cfgConsistent = s.cfgConsistent from rfl]
      split <;> rfl
    case reset =>
      simp only [bodyOf, resetBody, Ending.close, State.resetRegisters, State.startSequencer]
    all_goals cases hi

/-! ### A running command amid refused accesses (R199) -/

/-- What a running command but RESET keeps until its end: no call has failed, and a scratchpad
command has its tuple. -/
def Undisturbed (i : Instr) (s : State) : Prop :=
  ∀ q, s.seq = some q → q.instr = i ∧ s.exterr = false
    ∧ (addressesScratchpad i = true → s.cfgConsistent = true)

theorem Undisturbed.endPart {i : Instr} {s : State} {q : Sequencer} {e : Ending}
    (h : Undisturbed i s) (hq : s.seq = some q)
    (kept : ∀ t, e = .completed t → t.exterr = s.exterr ∧ t.cfgConsistent = s.cfgConsistent) :
    Undisturbed i (endPart q e) := by
  obtain ⟨instr, clear, consistent⟩ := h q hq
  intro q' hq'
  cases e with
  | stopped t => cases hq'
  | completed t =>
    obtain ⟨exterr, tuple⟩ := kept t rfl
    rw [endPart_completed] at hq' ⊢
    split at hq'
    · cases hq'
      exact ⟨instr, exterr.trans clear, fun ha => tuple.trans (consistent ha)⟩
    · cases hq'

theorem PartEnds.of_completed {sel : LaneSel} {s t : State} {e : Ending} (h : PartEnds sel s e)
    (he : e = .completed t) : t.exterr = s.exterr ∧ t.cfgConsistent = s.cfgConsistent := by
  subst he
  have runs : PartRuns sel s t := h
  exact ⟨runs.exterr, runs.kept.cfgConsistent⟩

theorem singleBody_of_completed {i : Instr} {s t : State} (h : singleBody i s = .completed t) :
    t.exterr = s.exterr ∧ t.cfgConsistent = s.cfgConsistent := by
  cases i
  case reset => cases h
  case cfgcommit =>
    rw [singleBody, cfgcommitBody] at h
    split at h <;> cases h
    exact ⟨rfl, rfl⟩
  all_goals cases h; exact ⟨rfl, rfl⟩

/-- A turn of a loop goes on with the same command. -/
theorem Undisturbed.turn {i : Instr} {s t : State} {q q' : Sequencer} (h : Undisturbed i s)
    (hq : s.seq = some q) (instr : q'.instr = q.instr)
    (kept : t.exterr = s.exterr ∧ t.cfgConsistent = s.cfgConsistent) :
    Undisturbed i { t with seq := some q' } := by
  obtain ⟨hi, clear, consistent⟩ := h q hq
  intro r hr
  obtain rfl : q' = r := Option.some.inj hr
  exact ⟨instr.trans hi, kept.1.trans clear, fun ha => kept.2.trans (consistent ha)⟩

theorem Undisturbed.chunkUnit {i : Instr} {s : State} {q : Sequencer} (h : Undisturbed i s)
    (hq : s.seq = some q) (start : Lane → Lane) (turn : Nat → Lane → Lane) (last : Lane → Lane)
    (sel : LaneSel) : Undisturbed i (chunkUnit start turn last q sel s) := by
  rw [Machine.chunkUnit]
  split
  · exact h.turn hq rfl ⟨rfl, rfl⟩
  · exact h.endPart hq fun t ht => by cases ht; exact ⟨rfl, rfl⟩

theorem Undisturbed.mixUnit {i : Instr} {s : State} {q : Sequencer} (h : Undisturbed i s)
    (hq : s.seq = some q) (sel : LaneSel) : Undisturbed i (mixUnit q sel s) := by
  have start : (if q.iter = 0#64 then s.onLanes sel mixinitLane else s).exterr = s.exterr
      ∧ (if q.iter = 0#64 then s.onLanes sel mixinitLane else s).cfgConsistent =
        s.cfgConsistent := by
    split <;> exact ⟨rfl, rfl⟩
  rw [Machine.mixUnit]
  dsimp only
  generalize (if q.iter = 0#64 then s.onLanes sel mixinitLane else s) = t at start ⊢
  split
  · split
    · exact h.turn hq rfl start
    · exact h.endPart hq fun u hu => by cases hu; exact start
  · exact h.endPart hq fun u hu => by cases hu; exact start

theorem Undisturbed.runUnit {i : Instr} {s : State} {q : Sequencer} (h : Undisturbed i s)
    (hq : s.seq = some q) : Undisturbed i (runUnit q s) := by
  rw [Machine.runUnit]
  split
  · exact h.endPart hq fun _ => singleBody_of_completed
  · exact h.endPart hq fun _ => (PartEnds.absorbPart _ _ s).of_completed
  · rw [explodeUnit_eq_chunkUnit]
    exact h.chunkUnit hq _ _ _ _
  · exact h.mixUnit hq _
  · rw [implodeUnit_eq_chunkUnit]
    exact h.chunkUnit hq _ _ _ _
  · exact h.endPart hq fun _ => (PartEnds.finalBody _ s).of_completed

/-- A unit of such a command, with the port as it is and otherwise. -/
theorem Undisturbed.unit {i : Instr} {s : State} {q : Sequencer} (h : Undisturbed i s)
    (hq : s.seq = some q) (p : PortView) :
    s.unit = .next (Machine.runUnit q s)
      ∧ (s.atPort p).unit = .next (Machine.runUnit q (s.atPort p)) := by
  obtain ⟨rfl, -, consistent⟩ := h q hq
  exact ⟨State.unit_of_seq hq consistent, State.unit_of_seq (s := s.atPort p) hq consistent⟩

theorem UnitsAlike.seq {p : PortView} {s t : State} (h : UnitsAlike p s t) : t.seq = s.seq := by
  rw [h.alike.rest]
  rfl

/-- While the command runs nothing has drawn a value, so the port is all that differs. -/
theorem UnitsAlike.eq_atPort {p : PortView} {i : Instr} {s t : State} (h : UnitsAlike p s t)
    (hs : Undisturbed i s) (running : s.seq ≠ none) : t = s.atPort p := by
  obtain ⟨q, hq⟩ := Option.ne_none_iff_exists'.mp running
  obtain ⟨-, clear, -⟩ := hs q hq
  exact h.exact clear

/-- After any units and refused accesses the state is that after the units alone, but for the port
and what a failed call draws. -/
theorem exists_runUnits_of_amid {u v : State} {i : Instr} (ne : i ≠ .reset) (hu : Undisturbed i u)
    (h : RunsAmidAccesses u v) :
    ∃ m w p, runUnits m u = .next w ∧ Undisturbed i w ∧ UnitsAlike p w v := by
  induction h with
  | here =>
    exact ⟨0, u, ⟨u.accerr, u.host, u.reply, u.freeCount⟩, rfl, hu, UnitsAlike.atPort _ u⟩
  | @unit t v _ running ht ih =>
    obtain ⟨m, w, p, hm, hw, alike⟩ := ih
    rw [alike.seq] at running
    obtain rfl := alike.eq_atPort hw running
    obtain ⟨q, hq⟩ := Option.ne_none_iff_exists'.mp running
    obtain ⟨unit, unit'⟩ := hw.unit hq p
    rw [unit'] at ht
    cases ht
    have instr := (hw q hq).1
    exact ⟨m + 1, _, p, (runUnits_add 1 hm).trans (runUnits_succ_of_unit 0 unit), hw.runUnit hq,
      UnitsAlike.runUnit p (instr ▸ ne) w⟩
  | @access t v _ running ht ih =>
    obtain ⟨m, w, p, hm, hw, alike⟩ := ih
    rw [alike.seq] at running
    obtain rfl := alike.eq_atPort hw running
    rw [ht.eq_atPort, State.atPort_atPort]
    exact ⟨m, w, _, hm, hw, UnitsAlike.atPort _ w⟩

/-- From there the further units reach what they reach alone. -/
theorem UnitsAlike.reaches {i : Instr} (ne : i ≠ .reset) {p : PortView} {w v t : State}
    (alike : UnitsAlike p w v) (hw : Undisturbed i w) (h : Reaches w t) :
    ∃ t', Reaches v t' ∧ UnitsAlike p t t' := by
  obtain ⟨k, hk⟩ := h
  induction k generalizing w v with
  | zero =>
    cases hk
    exact ⟨v, .refl v, alike⟩
  | succ k ih =>
    cases running : w.seq with
    | none =>
      rw [runUnits_of_idle _ running] at hk
      cases hk
      exact ⟨v, .refl v, alike⟩
    | some q =>
      obtain rfl := alike.eq_atPort hw (by simp [running])
      obtain ⟨unit, unit'⟩ := hw.unit running p
      rw [runUnits_succ_of_unit k unit] at hk
      have instr := (hw q running).1
      obtain ⟨t', reaches, alike'⟩ :=
        ih (UnitsAlike.runUnit p (instr ▸ ne) w) (hw.runUnit running) hk
      exact ⟨t', (Reaches.unit unit').trans reaches, alike'⟩

/-! ### The statement (O54) -/

/-- A ready command, started: the sequencer runs to the state of `exec`, unless it is a CFGCOMMIT
whose check fails, which ends as it is accepted. -/
theorem exists_run_of_ready {s : State} {i : Instr} (h : Ready s i) :
    ∃ t u, exec i s = .next t ∧ s.beginCommand i = .next u
      ∧ (u.seq = none ↔ i = .cfgcommit ∧ s.cfgConsistent = false)
      ∧ Reaches u t ∧ t.seq = none ∧ Undisturbed i u := by
  have ⟨idle, clear, _, _, _, consistent⟩ := h
  have check : s.commitFails i = true ↔ i = .cfgcommit ∧ s.cfgConsistent = false := by
    rw [State.commitFails, Bool.and_eq_true, beq_iff_eq, Bool.not_eq_true']
  by_cases fails : s.commitFails i = true
  · have begun := State.beginCommand_of_ready h
    have ended : (s.raise .cfgerr).seq = none := (s.raise_seq _).trans idle
    rw [if_pos fails] at begun
    refine ⟨_, _, (State.beginCommand_of_commitFails h fails).symm.trans begun, begun,
      iff_of_true ended (check.mp fails), .refl _, ended, fun q hq => ?_⟩
    rw [ended] at hq
    cases hq
  · have begun := State.beginCommand_of_ready h
    rw [if_neg fails] at begun
    have run := reaches_bodyOf (s := { s with done := false }) consistent
    rw [bodyOf_close_startSequencer] at run
    refine ⟨_, _, exec_of_ready h, begun, iff_of_false nofun (mt check.mpr fails), run,
      Ending.close_seq _, fun q hq => ?_⟩
    cases hq
    simp only [State.faulted, Bool.or_eq_false_iff] at clear
    obtain ⟨⟨-, exterr⟩, -⟩ := clear
    exact ⟨rfl, exterr, consistent⟩

/-- RESET's one unit, and what the port shows before it. -/
theorem unit_reset {u : State} {q : Sequencer} (hq : u.seq = some q) (hi : q.instr = .reset)
    (hp : q.phase = .single) : u.unit = .next u.resetRegisters := by
  rw [State.unit_of_seq hq (by rw [hi]; nofun), runUnit, hp, hi, singleBody, resetBody,
    endPart_stopped]
  simp only [State.resetRegisters]

/-- Amid refused accesses RESET is before its one unit, or after it. -/
theorem amid_reset {u v : State} {q : Sequencer} (hq : u.seq = some q) (hi : q.instr = .reset)
    (hp : q.phase = .single) (h : RunsAmidAccesses u v) :
    ∃ p, v = u.atPort p ∨ v = (u.atPort p).resetRegisters := by
  induction h with
  | here => exact ⟨⟨u.accerr, u.host, u.reply, u.freeCount⟩, .inl rfl⟩
  | unit _ running ht ih =>
    obtain ⟨p, rfl | rfl⟩ := ih
    · rw [unit_reset (u := u.atPort p) hq hi hp] at ht
      cases ht
      exact ⟨p, .inr rfl⟩
    · exact absurd rfl running
  | access _ running ht ih =>
    obtain ⟨p, rfl | rfl⟩ := ih
    · exact ⟨_, .inl (ht.eq_atPort.trans (State.atPort_atPort _ _ _))⟩
    · exact absurd rfl running

/-- RESET after refused accesses: what the port shows is theirs but for ACCERR, which RESET clears,
and the lanes hold their memories, and registers that are free values. -/
theorem resetRegisters_atPort (s : State) (p : PortView) (l : LaneId) :
    (s.atPort p).resetRegisters = { s.resetRegisters with
        lane0 := (s.atPort p).resetRegisters.lane0, lane1 := (s.atPort p).resetRegisters.lane1
        accerr := false, host := p.host, reply := p.reply
        freeCount := (s.atPort p).resetRegisters.freeCount }
      ∧ ((s.atPort p).resetRegisters.lane l).hs = (s.resetRegisters.lane l).hs
      ∧ ((s.atPort p).resetRegisters.lane l).sp = (s.resetRegisters.lane l).sp
      ∧ ((s.atPort p).resetRegisters.lane l).validBits = (s.resetRegisters.lane l).validBits := by
  refine ⟨by simp only [State.resetRegisters, State.atPort], ?_⟩
  rw [State.resetRegisters_lane, State.resetRegisters_lane, State.atPort_lane,
    Lane.validBits_afterReset, Lane.validBits_afterReset]
  simp only [Lane.afterReset, and_self]

/-- RESET, started, and run with the port as it is or otherwise. -/
theorem unit_startSequencer_reset (s : State) (p : PortView) :
    ((State.startSequencer { s with done := false } .reset).atPort p).unit =
      .next (s.atPort p).resetRegisters := by
  rw [unit_reset (q := ⟨.reset, .single, 0#64, 0#64⟩) rfl rfl rfl]
  simp only [State.resetRegisters, State.startSequencer, State.atPort]

/-- After any units and refused accesses RESET ends, with the port as they left it. -/
theorem reset_reaches_of_amid {s v : State}
    (h : RunsAmidAccesses (State.startSequencer { s with done := false } .reset) v) :
    ∃ p, Reaches v (s.atPort p).resetRegisters ∧ v.host = p.host ∧ v.reply = p.reply := by
  obtain ⟨p, rfl | e⟩ := amid_reset (q := ⟨.reset, .single, 0#64, 0#64⟩) rfl rfl rfl h
  · exact ⟨p, .unit (unit_startSequencer_reset s p), rfl, rfl⟩
  · have same : v = (s.atPort p).resetRegisters := by
      rw [e]
      simp only [State.resetRegisters, State.startSequencer, State.atPort]
    exact ⟨p, same ▸ .refl v, by rw [same, State.resetRegisters_host]; rfl,
      by rw [same, State.resetRegisters_reply]; rfl⟩

/-- Settles O54: the parts reach the end of the body one after another; an access amid them changes
the port, which no unit but RESET's reads or writes. -/
theorem sequencerRunsTheWholeCommand : Obligations.SequencerRunsTheWholeCommand := by
  intro s i h
  by_cases ne : i = .reset
  · subst ne
    have idle : s.seq = none := h.elim (fun ready => ready.1) fun faulted => faulted.1
    refine ⟨1, s.resetRegisters, _, exec_reset idle, State.beginCommand_reset idle,
      iff_of_false nofun nofun, runUnits_succ_of_unit 0
        (unit_startSequencer_reset s ⟨s.accerr, s.host, s.reply, s.freeCount⟩), fun v amid => ?_⟩
    obtain ⟨p, ⟨k, hk⟩, host, reply⟩ := reset_reaches_of_amid amid
    refine ⟨k, _, hk, ?_, fun ne => absurd rfl ne, fun ne => absurd rfl ne, fun _ l =>
      (resetRegisters_atPort s p l).2⟩
    rw [host, reply, decide_eq_false (by simp), Bool.and_false]
    exact (resetRegisters_atPort s p .l0).1
  · have ready : Ready s i := h.resolve_right fun ⟨_, _, e⟩ => ne e
    obtain ⟨t, u, runs, begins, early, ⟨n, reaches⟩, ended, undisturbed⟩ := exists_run_of_ready ready
    refine ⟨n, t, u, runs, begins, early, reaches, fun v amid => ?_⟩
    obtain ⟨m, w, p, hm, hw, alike⟩ := exists_runUnits_of_amid ne undisturbed amid
    obtain ⟨t', ⟨k, hk⟩, ends⟩ :=
      alike.reaches ne hw (Reaches.of_runUnits ⟨n, reaches⟩ ended hm)
    have port : v.accerr = p.accerr ∧ v.host = p.host ∧ v.reply = p.reply := by
      rw [alike.alike.rest]
      exact ⟨rfl, rfl, rfl⟩
    obtain ⟨accerr, host, reply⟩ := port
    refine ⟨k, t', hk, ?_, fun _ clear => ?_, fun _ => ends.alike.lanes, fun e => absurd e ne⟩
    · rw [accerr, host, reply, decide_eq_true ne, Bool.and_true]
      exact ends.alike.rest
    · rw [ends.exact clear]
      exact ⟨rfl, rfl⟩

end Sys2Proof.Machine
end
